-- ==== Sys2Proof/Word.lean ====
section
/-!
DEFINITION. The word and byte types (R20, R21): every register and every bus access is one 32-bit word, all values
unsigned. Fields and byte order are built from these in Machine/Operands.lean and Machine/Memory.lean.
-/

namespace Sys2Proof

/-- A 32-bit word (R20). -/
abbrev Word := BitVec 32

/-- One byte of message RAM or of a payload (R101). -/
abbrev Byte := BitVec 8

/-- `NONE`, the result word of every status but `Ok` (R24). -/
def Word.none : Word := 0xFFFFFFFF#32

end Sys2Proof
end

