-- ==== Sys2Proof/Syntax.lean ====
section
/-!
DEFINITION. The commands of the sequencer (R153), one constructor per row of the opcode table. A command word carries
an opcode and the instance field INST (R150); operands travel in the argument and frame registers (R157), so INST is
every command's one field, the codec commands' too, which ignore it (R151).
-/

namespace Sys2Proof

/-- A command with its INST field. -/
inductive Instr where
  /-- R221. -/
  | enterConfig (inst : BitVec 2)
  /-- R222. -/
  | leaveConfig (inst : BitVec 2)
  /-- R224. -/
  | cfgMode (inst : BitVec 2)
  /-- R225. -/
  | setNominalTiming (inst : BitVec 2)
  /-- R226. -/
  | setFdTiming (inst : BitVec 2)
  /-- R260. -/
  | filterInit (inst : BitVec 2)
  /-- R261. -/
  | setStdFilter (inst : BitVec 2)
  /-- R262. -/
  | setExtFilter (inst : BitVec 2)
  /-- R301. -/
  | availableTx (inst : BitVec 2)
  /-- R302. -/
  | transmit (inst : BitVec 2)
  /-- R340. -/
  | availableRx (inst : BitVec 2)
  /-- R342. -/
  | receive (inst : BitVec 2)
  /-- R343. -/
  | fifoRelease (inst : BitVec 2)
  /-- R380. -/
  | enableIrq (inst : BitVec 2)
  /-- R381. -/
  | disableIrq (inst : BitVec 2)
  /-- R204. -/
  | lengthToDlc (inst : BitVec 2)
  /-- R205. -/
  | dlcToLength (inst : BitVec 2)
  deriving DecidableEq, Repr

end Sys2Proof
end

