-- ==== Sys2Proof/Decode.lean ====
section
/-!
DEFINITION. Decoding a command word (R150 to R156), total and rejecting by name, and the encoder (R150, R153).
-/

namespace Sys2Proof

/-- Why a word is no command; the sequencer finishes `Invalid` on each (R152, R154). -/
inductive Reject where
  /-- RSV, bits 31:7, is not zero (R152). -/
  | reservedBits
  /-- OP is 0x00 or 0x12 to 0x1F (R154). -/
  | reservedOp (op : BitVec 5)
  deriving DecidableEq, Repr

/-- The opcode map of R153. -/
def decodeOp (op : BitVec 5) (inst : BitVec 2) : Except Reject Instr :=
  match op.toNat with
  | 0x01 => .ok (.enterConfig inst)
  | 0x02 => .ok (.leaveConfig inst)
  | 0x03 => .ok (.cfgMode inst)
  | 0x04 => .ok (.setNominalTiming inst)
  | 0x05 => .ok (.setFdTiming inst)
  | 0x06 => .ok (.filterInit inst)
  | 0x07 => .ok (.setStdFilter inst)
  | 0x08 => .ok (.setExtFilter inst)
  | 0x09 => .ok (.availableTx inst)
  | 0x0A => .ok (.transmit inst)
  | 0x0B => .ok (.availableRx inst)
  | 0x0C => .ok (.receive inst)
  | 0x0D => .ok (.fifoRelease inst)
  | 0x0E => .ok (.enableIrq inst)
  | 0x0F => .ok (.disableIrq inst)
  | 0x10 => .ok (.lengthToDlc inst)
  | 0x11 => .ok (.dlcToLength inst)
  | _ => .error (.reservedOp op)

/-- OP, bits 4:0 (R150). -/
def opField (w : BitVec 32) : BitVec 5 := w.extractLsb' 0 5

/-- INST, bits 6:5 (R150, R151). -/
def instField (w : BitVec 32) : BitVec 2 := w.extractLsb' 5 2

/-- RSV, bits 31:7 (R150, R152). -/
def rsvField (w : BitVec 32) : BitVec 25 := w.extractLsb' 7 25

/-- A command word's meaning: the reserved bits are looked at first, then OP (R155, R443). -/
def decode (w : BitVec 32) : Except Reject Instr :=
  if rsvField w ≠ 0 then .error .reservedBits else decodeOp (opField w) (instField w)

/-- A command word from its fields, RSV zero (R150). -/
def commandWord (op : BitVec 5) (inst : BitVec 2) : BitVec 32 := (inst.setWidth 32 <<< 5) ||| op.setWidth 32

/-- The command word of a command (R153). -/
def encode : Instr → BitVec 32
  | .enterConfig i => commandWord 0x01#5 i
  | .leaveConfig i => commandWord 0x02#5 i
  | .cfgMode i => commandWord 0x03#5 i
  | .setNominalTiming i => commandWord 0x04#5 i
  | .setFdTiming i => commandWord 0x05#5 i
  | .filterInit i => commandWord 0x06#5 i
  | .setStdFilter i => commandWord 0x07#5 i
  | .setExtFilter i => commandWord 0x08#5 i
  | .availableTx i => commandWord 0x09#5 i
  | .transmit i => commandWord 0x0A#5 i
  | .availableRx i => commandWord 0x0B#5 i
  | .receive i => commandWord 0x0C#5 i
  | .fifoRelease i => commandWord 0x0D#5 i
  | .enableIrq i => commandWord 0x0E#5 i
  | .disableIrq i => commandWord 0x0F#5 i
  | .lengthToDlc i => commandWord 0x10#5 i
  | .dlcToLength i => commandWord 0x11#5 i

/-- The word that lies in CMD when an instruction of `nbits` bits is given as the number `w`: a command is exactly one
word (R150), so the number's bits above `nbits` are 0 and the rest are the word's. -/
def tableWord (nbits w : Nat) : BitVec 32 := BitVec.ofNat 32 (w % 2 ^ nbits)

/-- The command this decoder reads from a table word; `none` where it rejects. -/
def decodeTableWord (nbits w : Nat) : Option Instr :=
  match decode (tableWord nbits w) with
  | .ok i => some i
  | .error _ => none

end Sys2Proof
end

