-- ==== Sys2Proof/Machine/Bits.lean ====
section
/-!
DEFINITION. Placing a field in a word (R21) and the little-endian word of four bytes (R101).
-/

namespace Sys2Proof.Machine

/-- The field `x` with its bit 0 at bit `k` of a word, every other bit 0. -/
def place {n : Nat} (x : BitVec n) (k : Nat) : Word := x.setWidth 32 <<< k

/-- The bit `b` at bit `k` of a word, every other bit 0. -/
def flag (b : Bool) (k : Nat) : Word := place (BitVec.ofBool b) k

/-- The word of four bytes, the first in bits 7:0 (R101). -/
def wordOfBytes (b0 b1 b2 b3 : Byte) : Word := place b3 24 ||| place b2 16 ||| place b1 8 ||| place b0 0

end Sys2Proof.Machine
end

