-- ==== Sys2Proof/Config.lean ====
section
/-!
DEFINITION. The implementation parameters of 00_scope.md section 4, their defaults, the message-RAM layout they give (R107,
R108), and the free values of the model: constants without a body, of which nothing can be proved.
-/

namespace Sys2Proof

/-- The parameters a model takes as arguments (R9, R14, R16 to R19). No step changes them (R480); they ride in the state
because a step has no other argument (DESIGN CHOICE, safe, log 5). Arrays have one entry for each of the at most four instances
R9 admits. -/
structure Params where
  /-- `NUM_INST` (R9). -/
  numInst : Nat
  /-- `FIFO_DEPTH` (R14). -/
  fifoDepth : Nat
  /-- `TXEVT_WORDS` (R16). -/
  txevtWords : Nat
  /-- `MSGRAM_BASE` (R17). -/
  msgramBase : Word
  /-- `REG_BASE[i]` (R17). -/
  regBase : Vector Word 4
  /-- `SEQ_BASE` (R17). -/
  seqBase : Word
  /-- `CLOCK_RUNNING[i]` (R18). -/
  clockRunning : Vector Bool 4
  /-- `BUS_OFF_ALLOWED` (R19). -/
  busOffAllowed : Bool
  deriving DecidableEq, Repr

namespace Config

/-- FREE VALUE (safe, log 5): the sequencer's base address, which R17 leaves OPEN. -/
opaque seqBase : Word

/-- FREE VALUE (safe, log 5): which controller clocks run, the environment's choice of R18. -/
opaque clockRunning : Vector Bool 4

/-- FREE VALUE (safe, log 8): what the byte of message RAM at an address holds until it is first written, a draw for every
byte (R486). -/
opaque ramReset : Nat → Byte

/-- `STD_MAX` (R10), fixed at the value R10 gives: a constant, not a parameter (DESIGN CHOICE, unsafe for a variant with another
maximum, log 20). -/
def stdMax : Nat := 28

/-- `EXT_MAX` (R11), fixed at the value R11 gives: a constant, not a parameter (DESIGN CHOICE, unsafe for a variant with another
maximum, log 20). -/
def extMax : Nat := 8

/-- `NUM_TXBUF` (R12). -/
def numTxbuf : Nat := 3

/-- A slot's size in bytes, `4 * SLOT_WORDS` (R15, R107). -/
def slotBytes : Nat := 72

/-- The size of the sequencer block in bytes (R100). -/
def seqBytes : Nat := 256

/-- The size of one controller register block in bytes (R100). -/
def regBytes : Nat := 1024

/-- `EFL_OFF` (R107); `SFL_OFF` is 0. -/
def eflOff : Nat := 4 * stdMax

/-- `F0_OFF` (R107): where the filter regions end. -/
def f0Off : Nat := eflOff + 8 * extMax

end Config

/-- The parameters' defaults (R9, R14, R16, R17, R19); the two OPEN ones are free values. -/
def Params.default : Params where
  numInst := 3
  fifoDepth := 3
  txevtWords := 6
  msgramBase := 0x4000A400#32
  regBase := #v[0x40006400#32, 0x40006800#32, 0x40006C00#32, 0x40007000#32]
  seqBase := Config.seqBase
  clockRunning := Config.clockRunning
  busOffAllowed := true

/-- `F1_OFF` (R107). -/
def Params.f1Off (p : Params) : Nat := Config.f0Off + Config.slotBytes * p.fifoDepth

/-- `TXE_OFF` (R107): the reserved transmit-event region. -/
def Params.txeOff (p : Params) : Nat := p.f1Off + Config.slotBytes * p.fifoDepth

/-- `TXB_OFF` (R107). -/
def Params.txbOff (p : Params) : Nat := p.txeOff + 4 * p.txevtWords

/-- `MSGRAM_INST_BYTES` (R107). -/
def Params.sliceBytes (p : Params) : Nat := p.txbOff + Config.slotBytes * Config.numTxbuf

/-- `msgram(i)`, the host byte address of instance i's slice (R108). -/
def Params.msgram (p : Params) (i : BitVec 2) : Nat := p.msgramBase.toNat + i.toNat * p.sliceBytes

/-- The values R9 and R14 call legal, and a word-aligned message RAM (R104: every address is a multiple of 4). -/
abbrev Params.Legal (p : Params) : Prop :=
  1 ≤ p.numInst ∧ p.numInst ≤ 4 ∧ 1 ≤ p.fifoDepth ∧ p.fifoDepth ≤ 4 ∧ p.msgramBase.toNat % 4 = 0

end Sys2Proof
end

