-- ==== Sys2Proof/Machine/State.lean ====
section
/-!
DEFINITION. The machine's state as plain data (R40 to R64), the agents' steps as plain data (R5, R414), the reasons a step
stops, and the state after reset (R69).
-/

namespace Sys2Proof.Machine

/-- The position within a command (R46, R67). -/
inductive Phase where
  | idle
  | exec
  | poll
  deriving DecidableEq, Repr

/-- The status codes a command finishes with (R160). -/
inductive Status where
  | ok
  | timeout
  | busy
  | invalid
  | notAvailable
  | outOfRange
  deriving DecidableEq, Repr

/-- The two receive FIFOs (R13). -/
inductive FifoId where
  | fifo0
  | fifo1
  deriving DecidableEq, Repr

/-- Nominal bit timing, the fields of R53; bit 7 of the register is reserved. -/
structure Nbtp where
  nsjw : BitVec 7
  nbrp : BitVec 9
  ntseg1 : BitVec 8
  ntseg2 : BitVec 7
  deriving DecidableEq, Repr

/-- Data-phase bit timing, the fields of R54. -/
structure Dbtp where
  tdc : Bool
  dbrp : BitVec 5
  dtseg1 : BitVec 5
  dtseg2 : BitVec 4
  dsjw : BitVec 4
  deriving DecidableEq, Repr

/-- Global filter configuration, the fields of R55. -/
structure Rxgfc where
  lse : BitVec 4
  lss : BitVec 5
  anfs : BitVec 2
  anfe : BitVec 2
  deriving DecidableEq, Repr

/-- Index state of one receive FIFO (R60) and its acknowledge register's field FfAI (R57). -/
structure RxFifo where
  gi : BitVec 2
  pi : BitVec 2
  fl : BitVec 4
  ai : BitVec 3
  deriving DecidableEq, Repr

/-- One bit for each interrupt source of R61: the flags IR, and the enables IE (R62). -/
structure IrqBits where
  rf0n : Bool
  rf0f : Bool
  rf0l : Bool
  rf1n : Bool
  rf1f : Bool
  rf1l : Bool
  tc : Bool
  deriving DecidableEq, Repr

/-- The state of one controller instance (R47 to R64). Reserved bits are not stored: they read 0 (R65). -/
structure Ctrl where
  /-- INIT_REQ (R47). -/
  initReq : Bool
  /-- INIT_ACK, what CCCR bit 0 reads (R47). -/
  initAck : Bool
  /-- CCCR.CCE (R49, R50). -/
  cce : Bool
  /-- CCCR.MON (R49). -/
  mon : Bool
  /-- CCCR.DAR (R49). -/
  dar : Bool
  /-- CCCR.TEST (R49). -/
  test : Bool
  /-- CCCR.FDOE (R49). -/
  fdoe : Bool
  /-- CCCR.BRSE (R49). -/
  brse : Bool
  /-- TEST.LBCK (R51). -/
  lbck : Bool
  /-- NBTP (R53). -/
  nbtp : Nbtp
  /-- DBTP (R54). -/
  dbtp : Dbtp
  /-- RXGFC (R55). -/
  rxgfc : Rxgfc
  /-- Receive FIFO 0 (R57, R60). -/
  fifo0 : RxFifo
  /-- Receive FIFO 1 (R57, R60). -/
  fifo1 : RxFifo
  /-- TRP, the pending transmit requests (R59). -/
  trp : BitVec 3
  /-- IR (R61). -/
  ir : IrqBits
  /-- IE (R62). -/
  ie : IrqBits
  /-- ILS (R63). -/
  ils : BitVec 3
  /-- ILE (R64). -/
  ile : BitVec 2
  deriving DecidableEq, Repr

/-- The frame registers (R45); their hardwired bits are not stored. -/
structure FrameRegs where
  /-- FR_ID.ID. -/
  id : BitVec 29
  /-- FR_FLAGS.XTD. -/
  xtd : Bool
  /-- FR_FLAGS.RTR. -/
  rtr : Bool
  /-- FR_FLAGS.FDF. -/
  fdf : Bool
  /-- FR_FLAGS.BRS. -/
  brs : Bool
  /-- FR_FLAGS.ANMF. -/
  anmf : Bool
  /-- FR_LEN. -/
  len : Word
  /-- FR_META.FIDX. -/
  fidx : BitVec 7
  /-- FR_META.TS. -/
  ts : BitVec 16
  /-- FR_DATA[0..15]. -/
  data : Vector Word 16
  deriving DecidableEq, Repr

/-- A frame on the bus (46_protocol_engine.md, notation). A standard identifier lies in the low 11 bits of `id`. -/
structure Frame where
  xtd : Bool
  rtr : Bool
  id : BitVec 29
  fdf : Bool
  brs : Bool
  esi : Bool
  dlc : BitVec 4
  bytes : List Byte
  deriving DecidableEq, Repr

/-- Where acceptance filtering sends a frame (R405). -/
inductive Dest where
  | store (f : FifoId)
  | discard
  deriving DecidableEq, Repr

/-- The draws of one delivery, each under no law (R22): the capture timestamp (R412), the FIDX of a frame that matched no
rule (R411), the destination of the reserved action codes (R410) and the padding of the last data word (R394). -/
structure Draws where
  ts : BitVec 16
  fidx : BitVec 7
  dest : Dest
  pad : BitVec 24
  deriving DecidableEq, Repr

/-- The width of a host access; only `w32` is answered (R103). -/
inductive Width where
  | w8
  | w16
  | w32
  | w64
  deriving DecidableEq, Repr

/-- One step of one agent, with its draws: the entries of the agenda (R5, R118, R414; DESIGN CHOICE,
safe, log 1, log 7). -/
inductive Turn where
  /-- The sequencer's EXEC or POLL step (R155, R223). -/
  | sequencer
  /-- A host write of `v` at byte address `addr` (R516). -/
  | hostWrite (width : Width) (addr : Word) (v : Word)
  /-- A host read at byte address `addr` (R516). -/
  | hostRead (width : Width) (addr : Word)
  /-- Instance `i`'s synchronisation step (R390). -/
  | sync (i : BitVec 2)
  /-- Instance `i`'s transmit completion of mailbox `m`, with the drawn outcome (R392). -/
  | txDone (i : BitVec 2) (m : Fin 3) (success : Bool) (d : Draws)
  /-- Instance `i`'s receive step with the drawn frame (R394). -/
  | rxFrame (i : BitVec 2) (f : Frame) (d : Draws)
  /-- Instance `i`'s bus-off step (R397). -/
  | busOff (i : BitVec 2)
  /-- The environment's reset step (R480). -/
  | reset
  deriving DecidableEq, Repr

/-- Message RAM: (address, byte) pairs, addresses strictly rising. The byte at an address not listed has not been written
since power-on and is the draw `Config.ramReset` (R486, log 8). -/
abbrev Memory := List Host.Cell

/-- Why the host is stuck: the ground on which an access of its was refused (R516). No step of the model stops with one: the
refused access is a step that leaves the reason in `State.hostStuck`, and every other agent goes on. -/
inductive Fault where
  /-- Raised by a host access that is 8, 16 or 64 bits wide (R103). Safe: the host has no step from there, and the chip would
  complete the access (D32, log 4). -/
  | hostWidth
  /-- Raised by a host access at an address not a multiple of 4 (R104). Safe, as `hostWidth`. -/
  | hostMisaligned (addr : Word)
  /-- Raised by a host access at an address in no region of R100 (R110). Safe, as `hostWidth`. -/
  | hostUnmapped (addr : Word)
  deriving DecidableEq, Repr

/-- Everything the spec gives the machine, with its parameters, the host agent's `hostStuck`, and the two fields that
are the model's own. -/
structure State where
  /-- The implementation parameters (R9, R14, R16 to R19); no step changes them (R480, log 5). -/
  params : Params
  /-- CUR, which CMD reads (R41, R46). -/
  cur : Word
  /-- STAT.BUSY (R42). -/
  busy : Bool
  /-- STAT.CODE (R42, R160). -/
  code : Status
  /-- STAT.OVR (R42). -/
  ovr : Bool
  /-- RESULT (R43). -/
  result : Word
  /-- ARG0 (R44). -/
  arg0 : Word
  /-- ARG1 (R44). -/
  arg1 : Word
  /-- ARG2 (R44). -/
  arg2 : Word
  /-- ARG3 (R44). -/
  arg3 : Word
  /-- ARG4 (R44). -/
  arg4 : Word
  /-- FR_ID, FR_FLAGS, FR_LEN, FR_META, FR_DATA (R45). -/
  fr : FrameRegs
  /-- PHASE (R46). -/
  phase : Phase
  /-- BUDGET (R46). -/
  budget : Word
  /-- TARGET (R46). -/
  target : Bool
  /-- The controller instances (R47 to R64); those at or above NUM_INST do not exist (DESIGN CHOICE, safe,
  log 6). -/
  ctrls : Vector Ctrl 4
  /-- The message RAM (R107, R108). -/
  mem : Memory
  /-- The host agent's: the refused access it is stuck on, if it is (R103, R104, R110, R516; log 4). -/
  hostStuck : Option Fault
  /-- The model's own: the steps the agents take next, in order (DESIGN CHOICE, safe, log 1). -/
  agenda : List Turn
  /-- The model's own: the word the host's last read returned (DESIGN CHOICE, unsafe, log 10). -/
  hostData : Word
  deriving DecidableEq, Repr

/-- Reasons an instruction has no meaning. -/
inductive Refusal where
  /-- Raised by exec's arm of an instruction that has no meaning yet; no arm does. Safe. -/
  | notModelled (mnemonic : String)
  deriving DecidableEq, Repr

/-- No interrupt flag, no enable. -/
def IrqBits.zero : IrqBits := ⟨false, false, false, false, false, false, false⟩

/-- A FIFO after reset (R60, R69). -/
def RxFifo.reset : RxFifo := ⟨0, 0, 0, 0⟩

/-- A controller after reset (R69): NBTP is 0x06000A03 and DBTP 0x00000A33. -/
def Ctrl.reset : Ctrl where
  initReq := true
  initAck := true
  cce := false
  mon := false
  dar := false
  test := false
  fdoe := false
  brse := false
  lbck := false
  nbtp := { nsjw := 3, nbrp := 0, ntseg1 := 10, ntseg2 := 3 }
  dbtp := { tdc := false, dbrp := 0, dtseg1 := 10, dtseg2 := 3, dsjw := 3 }
  rxgfc := { lse := 0, lss := 0, anfs := 0, anfe := 0 }
  fifo0 := RxFifo.reset
  fifo1 := RxFifo.reset
  trp := 0
  ir := IrqBits.zero
  ie := IrqBits.zero
  ils := 0
  ile := 0

/-- The frame registers after reset (R69). -/
def FrameRegs.reset : FrameRegs where
  id := 0
  xtd := false
  rtr := false
  fdf := false
  brs := false
  anmf := false
  len := 0
  fidx := 0
  ts := 0
  data := Vector.replicate 16 0

/-- The machine right after power-on (R69, R480), with default parameters, message RAM unwritten (R486), the host not
stuck, and the model's own fields empty (log 1, log 10). -/
def State.reset : State where
  params := Params.default
  cur := 0
  busy := false
  code := .ok
  ovr := false
  result := 0
  arg0 := 0
  arg1 := 0
  arg2 := 0
  arg3 := 0
  arg4 := 0
  fr := FrameRegs.reset
  phase := .idle
  budget := 0
  target := false
  ctrls := Vector.replicate 4 Ctrl.reset
  mem := []
  hostStuck := none
  agenda := []
  hostData := 0

end Sys2Proof.Machine
end

