-- ==== Sys2Proof/Machine/Flags.lean ====
section
/-!
DEFINITION. Status codes and STAT (R42, R160), the interrupt bits (R61, R62), the interrupt lines (R446), and the predicates
on the configuration state (R25, R220).
-/

namespace Sys2Proof.Machine

/-- The number of a status code in STAT.CODE (R160). -/
def Status.code : Status → BitVec 4
  | .ok => 0
  | .timeout => 1
  | .busy => 2
  | .invalid => 3
  | .notAvailable => 4
  | .outOfRange => 5

/-- STAT as read: BUSY bit 0, CODE bits 11:8, OVR bit 16 (R42). -/
def statWord (busy : Bool) (code : Status) (ovr : Bool) : Word :=
  flag ovr 16 ||| place code.code 8 ||| flag busy 0

/-- IR or IE as read: RF0N 0, RF0F 1, RF0L 2, RF1N 3, RF1F 4, RF1L 5, TC 7 (R61, R62). -/
def IrqBits.word (b : IrqBits) : Word :=
  flag b.tc 7 ||| flag b.rf1l 5 ||| flag b.rf1f 4 ||| flag b.rf1n 3 ||| flag b.rf0l 2 ||| flag b.rf0f 1 ||| flag b.rf0n 0

/-- The listed bits of a word (R62). -/
def IrqBits.ofWord (w : Word) : IrqBits where
  rf0n := w.getLsbD 0
  rf0f := w.getLsbD 1
  rf0l := w.getLsbD 2
  rf1n := w.getLsbD 3
  rf1f := w.getLsbD 4
  rf1l := w.getLsbD 5
  tc := w.getLsbD 7

/-- A write of `w` to IR clears every flag whose bit is 1 (R61). -/
def IrqBits.clear (b : IrqBits) (w : Word) : IrqBits where
  rf0n := b.rf0n && !w.getLsbD 0
  rf0f := b.rf0f && !w.getLsbD 1
  rf0l := b.rf0l && !w.getLsbD 2
  rf1n := b.rf1n && !w.getLsbD 3
  rf1f := b.rf1f && !w.getLsbD 4
  rf1l := b.rf1l && !w.getLsbD 5
  tc := b.tc && !w.getLsbD 7

/-- RFfN (R61). -/
def IrqBits.setNew (b : IrqBits) : FifoId → IrqBits
  | .fifo0 => { b with rf0n := true }
  | .fifo1 => { b with rf1n := true }

/-- RFfF (R61). -/
def IrqBits.setFull (b : IrqBits) : FifoId → IrqBits
  | .fifo0 => { b with rf0f := true }
  | .fifo1 => { b with rf1f := true }

/-- RFfL (R61). -/
def IrqBits.setLost (b : IrqBits) : FifoId → IrqBits
  | .fifo0 => { b with rf0l := true }
  | .fifo1 => { b with rf1l := true }

/-- Whether FIFO `f`'s lost flag is set (R56). -/
def IrqBits.lost (b : IrqBits) : FifoId → Bool
  | .fifo0 => b.rf0l
  | .fifo1 => b.rf1l

/-- The seven interrupt sources of an instance (R445). -/
inductive IrqSource where
  | rf0n
  | rf0f
  | rf0l
  | rf1n
  | rf1f
  | rf1l
  | tc
  deriving DecidableEq, Repr

/-- Every source (R445). -/
def irqSources : List IrqSource := [.rf0n, .rf0f, .rf0l, .rf1n, .rf1f, .rf1l, .tc]

/-- The source's ILS group, also its ILS bit number (R63, R446). -/
def irqGroup : IrqSource → Nat
  | .rf0n => 0
  | .rf0f => 0
  | .rf0l => 0
  | .rf1n => 1
  | .rf1f => 1
  | .rf1l => 1
  | .tc => 2

/-- The source's bit. -/
def IrqBits.bit (b : IrqBits) : IrqSource → Bool
  | .rf0n => b.rf0n
  | .rf0f => b.rf0f
  | .rf0l => b.rf0l
  | .rf1n => b.rf1n
  | .rf1f => b.rf1f
  | .rf1l => b.rf1l
  | .tc => b.tc

/-- IRQ0 (`line = false`) and IRQ1 (`line = true`) of an instance, level outputs at every state (R446). -/
def irqLine (c : Ctrl) (line : Bool) : Bool :=
  c.ile.getLsbD line.toNat &&
    irqSources.any (fun s => c.ir.bit s && c.ie.bit s && (c.ils.getLsbD (irqGroup s) == line))

/-- CONFIGURING (R25). -/
def Ctrl.configuring (c : Ctrl) : Bool := c.initAck && c.cce

/-- OPERATING (R25). -/
def Ctrl.operating (c : Ctrl) : Bool := !c.initAck

/-- The configuration states of an instance (R220, R451). -/
inductive ConfigState where
  | operating
  | entryRequested
  | configuring
  | notWritable
  | leaveRequested
  deriving DecidableEq, Repr

/-- The configuration state as a function of INIT_REQ, INIT_ACK and CCE (R220); INIT_REQ = 0 with CCE = 1 is unreachable. -/
def Ctrl.configState (c : Ctrl) : ConfigState :=
  match c.initReq, c.initAck, c.cce with
  | false, false, _ => .operating
  | true, false, _ => .entryRequested
  | true, true, true => .configuring
  | true, true, false => .notWritable
  | false, true, _ => .leaveRequested

/-- LOOPBACK (46_protocol_engine.md, notation; R395). -/
def Ctrl.loopback (c : Ctrl) : Bool := c.test && c.lbck

/-- effLSS (R25, R55). -/
def Ctrl.effLSS (c : Ctrl) : Nat := min c.rxgfc.lss.toNat Config.stdMax

/-- effLSE (R25, R55). -/
def Ctrl.effLSE (c : Ctrl) : Nat := min c.rxgfc.lse.toNat Config.extMax

end Sys2Proof.Machine
end

