-- ==== Sys2Proof/Machine/Memory.lean ====
section
/-!
DEFINITION. Message RAM as sorted (address, byte) pairs: byte and word accesses, little-endian (R101), the element addresses of
R108 as offsets within a slice, and the write gate of R109.
-/

namespace Sys2Proof.Machine

/-- The byte listed at an address, `none` where nothing has been written. -/
def Memory.get? : Memory → Nat → Option Byte
  | [], _ => none
  | (k, v) :: m, a => if k = a then some v else Memory.get? m a

/-- The byte at an address: what was last written, or the address's own draw, stable until written (R486, log 8). -/
def Memory.readByte (m : Memory) (a : Nat) : Byte := (Memory.get? m a).getD (Config.ramReset a)

/-- Stores a byte, keeping the addresses strictly rising. -/
def Memory.writeByte : Memory → Nat → Byte → Memory
  | [], a, b => [(a, b)]
  | (k, v) :: m, a, b =>
    if a < k then (a, b) :: (k, v) :: m
    else if a = k then (a, b) :: m
    else (k, v) :: Memory.writeByte m a b

/-- The canonical form: addresses strictly rising, so no address is listed twice. An unlisted address has no listed value
to coincide with (DESIGN CHOICE, safe, log 8). -/
abbrev Memory.wf (m : Memory) : Prop := List.Pairwise (fun x y => x.1 < y.1) m

/-- The 32-bit word at an address, the byte at the address in bits 7:0 (R101). -/
def Memory.readWord (m : Memory) (a : Nat) : Word :=
  wordOfBytes (m.readByte a) (m.readByte (a + 1)) (m.readByte (a + 2)) (m.readByte (a + 3))

/-- Stores a 32-bit word, bits 7:0 at the address (R101). -/
def Memory.writeWord (m : Memory) (a : Nat) (w : Word) : Memory :=
  (((m.writeByte a (w.extractLsb' 0 8)).writeByte (a + 1) (w.extractLsb' 8 8)).writeByte (a + 2)
    (w.extractLsb' 16 8)).writeByte (a + 3) (w.extractLsb' 24 8)

/-- Whether a write at slice offset `off` takes effect (R109): always outside the filter regions, and inside them only while
CONFIGURING. -/
def gateOpen (configuring : Bool) (off : Nat) : Bool := configuring || decide (Config.f0Off ≤ off)

/-- Stores the words `ws` at consecutive word addresses from slice offset `off`, slice base `base`, each behind the gate of
R109 (R119: in order). -/
def Memory.writeSlice (base : Nat) (configuring : Bool) : Memory → Nat → List Word → Memory
  | m, _, [] => m
  | m, off, w :: ws =>
    Memory.writeSlice base configuring
      (if gateOpen configuring off then m.writeWord (base + off) w else m) (off + 4) ws

/-- `sfl(i,k)` as a slice offset (R108). -/
def sfl (k : Nat) : Nat := 4 * k

/-- `efl(i,k)` as a slice offset (R108); word F1 is at +4. -/
def efl (k : Nat) : Nat := Config.eflOff + 8 * k

/-- `rxslot(i,f,s)` as a slice offset (R108). -/
def rxslot (p : Params) (f : FifoId) (s : Nat) : Nat :=
  (match f with
    | .fifo0 => Config.f0Off
    | .fifo1 => p.f1Off) + Config.slotBytes * s

/-- `txslot(i,m)` as a slice offset (R108). -/
def txslot (p : Params) (m : Nat) : Nat := p.txbOff + Config.slotBytes * m

end Sys2Proof.Machine
end

