-- ==== Sys2Proof/Machine/Operands.lean ====
section
/-!
DEFINITION. The DLC codec (R200, R201), the operands a command takes from the argument registers (R157 to R159), the words it
packs (R111 to R114, R225, R226, R303, R304), the slot decoder (R341) and the frame registers as words (R45).
-/

namespace Sys2Proof.Machine

/-- `l2d(n)`, length to DLC; `none` is the sentinel INVALID (R200). -/
def l2d (n : Word) : Option (BitVec 4) :=
  if n.toNat ≤ 8 then some (n.extractLsb' 0 4)
  else if n = 12#32 then some 9
  else if n = 16#32 then some 10
  else if n = 20#32 then some 11
  else if n = 24#32 then some 12
  else if n = 32#32 then some 13
  else if n = 48#32 then some 14
  else if n = 64#32 then some 15
  else none

/-- `d2l(d)`, DLC to length, total on 4-bit codes (R201). -/
def d2l (d : BitVec 4) : Nat :=
  match d.toNat with
  | 9 => 12
  | 10 => 16
  | 11 => 20
  | 12 => 24
  | 13 => 32
  | 14 => 48
  | 15 => 64
  | n => n

/-- `ceil4(n)`: how many 32-bit words hold `n` bytes (R22). -/
def ceil4 (n : Nat) : Nat := (n + 3) / 4

/-- A FIFO number operand, all 32 bits compared: anything but 0 and 1 is out of range (R340, R342, R343). -/
def fifoArg (w : Word) : Option FifoId :=
  if w = 0#32 then some .fifo0 else if w = 1#32 then some .fifo1 else none

/-- `first_zero(p)`: the lowest free mailbox, `none` if all three are pending (R300). -/
def firstZero (p : BitVec 3) : Option (Fin 3) :=
  if p.getLsbD 0 = false then some 0
  else if p.getLsbD 1 = false then some 1
  else if p.getLsbD 2 = false then some 2
  else none

/-- The word SET_NOMINAL_TIMING writes to NBTP, each operand masked to its field (R157, R225). -/
def nominalWord (sjw ts1 ts2 prescaler : Word) : Word :=
  ((sjw &&& 0x7F#32) <<< 25) ||| ((prescaler &&& 0x1FF#32) <<< 16) ||| ((ts1 &&& 0xFF#32) <<< 8) ||| (ts2 &&& 0x7F#32)

/-- The word SET_FD_TIMING writes to DBTP, TDC clear (R157, R226). -/
def fdWord (sjw ts1 ts2 prescaler : Word) : Word :=
  ((prescaler &&& 0x1F#32) <<< 16) ||| ((ts1 &&& 0x1F#32) <<< 8) ||| ((ts2 &&& 0xF#32) <<< 4) ||| (sjw &&& 0xF#32)

/-- The word CFG_MODE writes to CCCR from its old value `c` and the flags `f`: MON 5, DAR 6, TEST 7, FDOE 8, BRSE 9 from flags
3, 2, 4, 0, 1, with INIT and CCE set (R159, R224). -/
def cfgModeWord (c f : Word) : Word :=
  (c &&& ~~~0x3E0#32) ||| 0x3#32 ||| (((f >>> 3) &&& 1#32) <<< 5) ||| (((f >>> 2) &&& 1#32) <<< 6)
    ||| (((f >>> 4) &&& 1#32) <<< 7) ||| ((f &&& 1#32) <<< 8) ||| (((f >>> 1) &&& 1#32) <<< 9)

/-- The word CFG_MODE writes to TEST: flag 5 is LBCK (R159, R224). -/
def cfgTestWord (f : Word) : Word := ((f >>> 5) &&& 1#32) <<< 4

/-- The word FILTER_INIT writes to RXGFC: the old word with LSS and LSE replaced by the counts (R260). -/
def filterCountsWord (g s e : Word) : Word := (g &&& ~~~0x0F1F0000#32) ||| (s <<< 16) ||| (e <<< 24)

/-- A standard filter element from its operands (R111, R261). -/
def stdFilterWord (mode id1 id2 action : Word) : Word :=
  ((mode &&& 0x3#32) <<< 30) ||| ((action &&& 0x7#32) <<< 27) ||| ((id1 &&& 0x7FF#32) <<< 16) ||| (id2 &&& 0x7FF#32)

/-- Word F0 of an extended filter element (R112, R262). -/
def extFilterWord0 (id1 action : Word) : Word := ((action &&& 0x7#32) <<< 29) ||| (id1 &&& 0x1FFFFFFF#32)

/-- Word F1 of an extended filter element (R112, R262). -/
def extFilterWord1 (mode id2 : Word) : Word := ((mode &&& 0x3#32) <<< 30) ||| (id2 &&& 0x1FFFFFFF#32)

/-- The identifier field of a slot's first word: 29 bits, or 11 bits in bits 28:18 (R113, R114, R303). -/
def idField (xtd : Bool) (id : BitVec 29) : BitVec 29 := if xtd then id else id <<< 18

/-- The identifier in a slot's first word (R341, R393). -/
def idOfField (xtd : Bool) (f : BitVec 29) : BitVec 29 := if xtd then f else (f.extractLsb' 18 11).setWidth 29

/-- `enc_t0`: ESI 0, XTD, RTR and the identifier field (R114, R303). -/
def encT0 (r : FrameRegs) : Word := flag r.xtd 30 ||| flag r.rtr 29 ||| place (idField r.xtd r.id) 0

/-- `enc_t1`: FDF 21, BRS 20, DLC 19:16, all else 0 (R114, R304). -/
def encT1 (r : FrameRegs) (d : BitVec 4) : Word := flag r.fdf 21 ||| flag r.brs 20 ||| place d 16

/-- The words TRANSMIT writes: T0, T1 and the first `ceil4(n)` frame data words (R302). -/
def txWords (r : FrameRegs) (d : BitVec 4) : List Word :=
  encT0 r :: encT1 r d :: r.data.toList.take (ceil4 r.len.toNat)

/-- The payload length a slot's second word reports: `d2l` of its DLC, whatever the format (R341). -/
def slotLength (r1 : Word) : Nat := d2l (r1.extractLsb' 16 4)

/-- `decode(r0, r1)` as the frame registers RECEIVE leaves, with the data words given (R113, R341). -/
def decodeSlot (r0 r1 : Word) (data : Vector Word 16) : FrameRegs where
  id := idOfField (r0.getLsbD 30) (r0.extractLsb' 0 29)
  xtd := r0.getLsbD 30
  rtr := r0.getLsbD 29
  fdf := r1.getLsbD 21
  brs := r1.getLsbD 20
  anmf := r1.getLsbD 31
  len := BitVec.ofNat 32 (slotLength r1)
  fidx := r1.extractLsb' 24 7
  ts := r1.extractLsb' 0 16
  data := data

/-- RX0 of a stored frame (R113, R394). -/
def encRx0 (f : Frame) : Word :=
  flag f.esi 31 ||| flag f.xtd 30 ||| flag f.rtr 29 ||| place (idField f.xtd f.id) 0

/-- RX1 of a stored frame (R113, R394). -/
def encRx1 (f : Frame) (anmf : Bool) (fidx : BitVec 7) (ts : BitVec 16) : Word :=
  flag anmf 31 ||| place fidx 24 ||| flag f.fdf 21 ||| flag f.brs 20 ||| place f.dlc 16 ||| place ts 0

/-- A byte sequence as little-endian words (R101), the bytes past its end in the last word drawn (R394). -/
def wordsOfBytes (pad : BitVec 24) : List Byte → List Word
  | [] => []
  | [b0] => [wordOfBytes b0 (pad.extractLsb' 0 8) (pad.extractLsb' 8 8) (pad.extractLsb' 16 8)]
  | [b0, b1] => [wordOfBytes b0 b1 (pad.extractLsb' 0 8) (pad.extractLsb' 8 8)]
  | [b0, b1, b2] => [wordOfBytes b0 b1 b2 (pad.extractLsb' 0 8)]
  | b0 :: b1 :: b2 :: b3 :: bs => wordOfBytes b0 b1 b2 b3 :: wordsOfBytes pad bs

/-- FR_FLAGS as read (R45). -/
def FrameRegs.flagsWord (r : FrameRegs) : Word :=
  flag r.anmf 8 ||| flag r.brs 3 ||| flag r.fdf 2 ||| flag r.rtr 1 ||| flag r.xtd 0

/-- FR_META as read (R45). -/
def FrameRegs.metaWord (r : FrameRegs) : Word := place r.ts 16 ||| place r.fidx 0

/-- FR_ID as read (R45). -/
def FrameRegs.idWord (r : FrameRegs) : Word := place r.id 0

/-- A host write to FR_ID: bits 31:29 are ignored (R45). -/
def FrameRegs.writeId (r : FrameRegs) (w : Word) : FrameRegs := { r with id := w.extractLsb' 0 29 }

/-- A host write to FR_FLAGS: the bits not listed are ignored (R45). -/
def FrameRegs.writeFlags (r : FrameRegs) (w : Word) : FrameRegs :=
  { r with
    xtd := w.getLsbD 0
    rtr := w.getLsbD 1
    fdf := w.getLsbD 2
    brs := w.getLsbD 3
    anmf := w.getLsbD 8 }

/-- A host write to FR_META: bits 15:7 are ignored (R45). -/
def FrameRegs.writeMeta (r : FrameRegs) (w : Word) : FrameRegs :=
  { r with fidx := w.extractLsb' 0 7, ts := w.extractLsb' 16 16 }

end Sys2Proof.Machine
end

