-- ==== Sys2Proof/Machine/Registers.lean ====
section
/-!
DEFINITION. The register maps (R40, R48) and the effect of reading and writing each controller register (R49 to R65), reserved
bits reading 0 and ignoring writes.
-/

namespace Sys2Proof.Machine

/-- The controller registers (R48); `rxs f` is RXFfS and `rxa f` is RXFfA. -/
inductive CtrlReg where
  | dbtp
  | test
  | cccr
  | nbtp
  | ir
  | ie
  | ils
  | ile
  | rxgfc
  | rxs (f : FifoId)
  | rxa (f : FifoId)
  | txbrp
  | txbar
  deriving DecidableEq, Repr

/-- Byte offset from REG_BASE[i] (R48). -/
def CtrlReg.offset : CtrlReg → Nat
  | .dbtp => 0x00C
  | .test => 0x010
  | .cccr => 0x018
  | .nbtp => 0x01C
  | .ir => 0x050
  | .ie => 0x054
  | .ils => 0x058
  | .ile => 0x05C
  | .rxgfc => 0x080
  | .rxs .fifo0 => 0x090
  | .rxa .fifo0 => 0x094
  | .rxs .fifo1 => 0x098
  | .rxa .fifo1 => 0x09C
  | .txbrp => 0x0C8
  | .txbar => 0x0CC

/-- Every controller register. -/
def CtrlReg.all : List CtrlReg :=
  [.dbtp, .test, .cccr, .nbtp, .ir, .ie, .ils, .ile, .rxgfc, .rxs .fifo0, .rxa .fifo0, .rxs .fifo1, .rxa .fifo1,
    .txbrp, .txbar]

/-- The register at an offset; `none` is reserved (R48). -/
def CtrlReg.ofOffset (off : Nat) : Option CtrlReg := CtrlReg.all.find? (fun r => r.offset == off)

/-- The sequencer registers (R40). -/
inductive SeqReg where
  | cmd
  | stat
  | result
  | arg (k : Fin 5)
  | frId
  | frFlags
  | frLen
  | frMeta
  | frData (k : Fin 16)
  deriving DecidableEq, Repr

/-- Byte offset from SEQ_BASE (R40). -/
def SeqReg.offset : SeqReg → Nat
  | .cmd => 0x00
  | .stat => 0x04
  | .result => 0x08
  | .arg k => 0x10 + 4 * k.val
  | .frId => 0x40
  | .frFlags => 0x44
  | .frLen => 0x48
  | .frMeta => 0x4C
  | .frData k => 0x80 + 4 * k.val

/-- Every sequencer register. -/
def SeqReg.all : List SeqReg :=
  [.cmd, .stat, .result, .arg 0, .arg 1, .arg 2, .arg 3, .arg 4, .frId, .frFlags, .frLen, .frMeta, .frData 0,
    .frData 1, .frData 2, .frData 3, .frData 4, .frData 5, .frData 6, .frData 7, .frData 8, .frData 9, .frData 10,
    .frData 11, .frData 12, .frData 13, .frData 14, .frData 15]

/-- The register at an offset; `none` is reserved (R40). -/
def SeqReg.ofOffset (off : Nat) : Option SeqReg := SeqReg.all.find? (fun r => r.offset == off)

/-- CCCR as read: bit 0 is INIT_ACK (R47, R49). -/
def Ctrl.cccrWord (c : Ctrl) : Word :=
  flag c.brse 9 ||| flag c.fdoe 8 ||| flag c.test 7 ||| flag c.dar 6 ||| flag c.mon 5 ||| flag c.cce 1 ||| flag c.initAck 0

/-- NBTP as read (R53). -/
def Nbtp.word (t : Nbtp) : Word := place t.nsjw 25 ||| place t.nbrp 16 ||| place t.ntseg1 8 ||| place t.ntseg2 0

/-- The fields a write of `w` to NBTP stores (R53). -/
def Nbtp.ofWord (w : Word) : Nbtp where
  nsjw := w.extractLsb' 25 7
  nbrp := w.extractLsb' 16 9
  ntseg1 := w.extractLsb' 8 8
  ntseg2 := w.extractLsb' 0 7

/-- DBTP as read (R54). -/
def Dbtp.word (t : Dbtp) : Word :=
  flag t.tdc 23 ||| place t.dbrp 16 ||| place t.dtseg1 8 ||| place t.dtseg2 4 ||| place t.dsjw 0

/-- The fields a write of `w` to DBTP stores (R54). -/
def Dbtp.ofWord (w : Word) : Dbtp where
  tdc := w.getLsbD 23
  dbrp := w.extractLsb' 16 5
  dtseg1 := w.extractLsb' 8 5
  dtseg2 := w.extractLsb' 4 4
  dsjw := w.extractLsb' 0 4

/-- RXGFC as read (R55). -/
def Rxgfc.word (g : Rxgfc) : Word := place g.lse 24 ||| place g.lss 16 ||| place g.anfs 4 ||| place g.anfe 2

/-- The fields a write of `w` to RXGFC stores (R55). -/
def Rxgfc.ofWord (w : Word) : Rxgfc where
  lse := w.extractLsb' 24 4
  lss := w.extractLsb' 16 5
  anfs := w.extractLsb' 4 2
  anfe := w.extractLsb' 2 2

/-- RXFfS as read (R56): FfFL 3:0, FfGI 9:8, FfPI 17:16, FfF 24, RFfL 25; `n` is FIFO_DEPTH. -/
def RxFifo.statusWord (n : Nat) (x : RxFifo) (lost : Bool) : Word :=
  flag lost 25 ||| flag (decide (x.fl.toNat = n)) 24 ||| place x.pi 16 ||| place x.gi 8 ||| place x.fl 0

/-- How many slots index `a` lies past the get index, modulo FIFO_DEPTH, non-negative (R22, R58). -/
def RxFifo.ahead (n : Nat) (x : RxFifo) (a : BitVec 3) : Nat :=
  (((a.toNat : Int) - (x.gi.toNat : Int)) % (n : Int)).toNat

/-- `ack(i, f, a)` (R58): frees the slots from the get index up to and including `a`, if `a` lies in the filled window. -/
def RxFifo.ack (n : Nat) (x : RxFifo) (a : BitVec 3) : RxFifo :=
  if 0 < x.fl.toNat ∧ a.toNat < n ∧ x.ahead n a < x.fl.toNat then
    { x with
      gi := BitVec.ofNat 2 ((a.toNat + 1) % n)
      fl := BitVec.ofNat 4 (x.fl.toNat - (x.ahead n a + 1)) }
  else x

/-- A write to RXFfA stores FfAI and acknowledges (R57). -/
def RxFifo.writeAck (n : Nat) (x : RxFifo) (a : BitVec 3) : RxFifo := { x.ack n a with ai := a }

/-- FIFO `f` of a controller. -/
def Ctrl.fifo (c : Ctrl) : FifoId → RxFifo
  | .fifo0 => c.fifo0
  | .fifo1 => c.fifo1

/-- Replaces FIFO `f`. -/
def Ctrl.setFifo (c : Ctrl) (f : FifoId) (x : RxFifo) : Ctrl :=
  match f with
  | .fifo0 => { c with fifo0 := x }
  | .fifo1 => { c with fifo1 := x }

/-- A write of `w` to CCCR (R50): INIT and CCE always, the mode bits only if CONFIGURING before the write. -/
def Ctrl.writeCccr (c : Ctrl) (w : Word) : Ctrl :=
  let req := { c with initReq := w.getLsbD 0, cce := w.getLsbD 0 && w.getLsbD 1 }
  if c.configuring then
    { req with
      mon := w.getLsbD 5
      dar := w.getLsbD 6
      test := w.getLsbD 7
      fdoe := w.getLsbD 8
      brse := w.getLsbD 9
      lbck := w.getLsbD 7 && c.lbck }
  else req

/-- A write of `w` to TEST (R51). -/
def Ctrl.writeTest (c : Ctrl) (w : Word) : Ctrl :=
  if c.configuring && c.test then { c with lbck := w.getLsbD 4 } else c

/-- The value a read of a controller register returns; reads have no side effects (R106). `n` is FIFO_DEPTH. -/
def Ctrl.read (n : Nat) (c : Ctrl) : CtrlReg → Word
  | .dbtp => c.dbtp.word
  | .test => flag c.lbck 4
  | .cccr => c.cccrWord
  | .nbtp => c.nbtp.word
  | .ir => c.ir.word
  | .ie => c.ie.word
  | .ils => place c.ils 0
  | .ile => place c.ile 0
  | .rxgfc => c.rxgfc.word
  | .rxs f => (c.fifo f).statusWord n (c.ir.lost f)
  | .rxa f => place (c.fifo f).ai 0
  | .txbrp => place c.trp 0
  | .txbar => 0

/-- The effect of writing `w` to a controller register (R50 to R64), protected registers behind the gate of R52. -/
def Ctrl.write (n : Nat) (c : Ctrl) (r : CtrlReg) (w : Word) : Ctrl :=
  match r with
  | .dbtp => if c.configuring then { c with dbtp := Dbtp.ofWord w } else c
  | .test => c.writeTest w
  | .cccr => c.writeCccr w
  | .nbtp => if c.configuring then { c with nbtp := Nbtp.ofWord w } else c
  | .ir => { c with ir := c.ir.clear w }
  | .ie => { c with ie := IrqBits.ofWord w }
  | .ils => { c with ils := w.extractLsb' 0 3 }
  | .ile => { c with ile := w.extractLsb' 0 2 }
  | .rxgfc => if c.configuring then { c with rxgfc := Rxgfc.ofWord w } else c
  | .rxs _ => c
  | .rxa f => c.setFifo f ((c.fifo f).writeAck n (w.extractLsb' 0 3))
  | .txbrp => c
  | .txbar => { c with trp := c.trp ||| w.extractLsb' 0 3 }

end Sys2Proof.Machine
end

