-- ==== Sys2Proof/Machine/Ops.lean ====
section
/-!
DEFINITION. The named operations over the state: an instance's controller, RegRead and RegWrite, MemRead and MemWrite (R22),
finish (R22), the instance check (R151, R155), the sequencer's registers as the host sees them (R40 to R45) and the reset
step (R480). The block takes no exceptions and returns from none (R440, R447, R448): an error is a status given to `finish`.
-/

namespace Sys2Proof.Machine

/-- Instance `i`'s controller. -/
def State.ctrl (s : State) (i : BitVec 2) : Ctrl := s.ctrls.get i.toFin

/-- Replaces instance `i`'s controller. -/
def State.setCtrl (s : State) (i : BitVec 2) (c : Ctrl) : State :=
  { s with ctrls := s.ctrls.set i.toNat c i.isLt }

/-- `RegRead(i, off)` (R22); it changes nothing (R106). -/
def State.regRead (s : State) (i : BitVec 2) (r : CtrlReg) : Word := (s.ctrl i).read s.params.fifoDepth r

/-- `RegWrite(i, off, v)` with the register's side effects (R22). -/
def State.regWrite (s : State) (i : BitVec 2) (r : CtrlReg) (w : Word) : State :=
  s.setCtrl i ((s.ctrl i).write s.params.fifoDepth r w)

/-- `MemRead` of the word at offset `off` of instance `i`'s slice (R22, R108). -/
def State.memRead (s : State) (i : BitVec 2) (off : Nat) : Word := s.mem.readWord (s.params.msgram i + off)

/-- `MemWrite` of consecutive words from offset `off` of instance `i`'s slice, behind the gate of R109. -/
def State.memWrites (s : State) (i : BitVec 2) (off : Nat) (ws : List Word) : State :=
  { s with mem := Memory.writeSlice (s.params.msgram i) (s.ctrl i).configuring s.mem off ws }

/-- `finish(code, result); PHASE <- IDLE`, the end of every command (R22, R155). -/
def State.finish (s : State) (st : Status) (result : Word) : State :=
  { s with code := st, result := result, busy := false, phase := .idle }

/-- `finish(code, NONE)`: a command that meets an error (R24, R440). -/
def State.fail (s : State) (st : Status) : State := s.finish st Word.none

/-- The instance check of R155 in front of a command's body: an unknown instance finishes `Invalid` (R151). -/
def onInst (i : BitVec 2) (s : State) (body : State → State) : Host.Outcome State Fault Refusal :=
  if i.toNat < s.params.numInst then .next (body s) else .next (s.fail .invalid)

/-- The value of ARG`k` (R44). -/
def State.arg (s : State) (k : Fin 5) : Word :=
  match k with
  | 0 => s.arg0
  | 1 => s.arg1
  | 2 => s.arg2
  | 3 => s.arg3
  | 4 => s.arg4

/-- Stores a whole word in ARG`k` (R44). -/
def State.setArg (s : State) (k : Fin 5) (w : Word) : State :=
  match k with
  | 0 => { s with arg0 := w }
  | 1 => { s with arg1 := w }
  | 2 => { s with arg2 := w }
  | 3 => { s with arg3 := w }
  | 4 => { s with arg4 := w }

/-- A host write of `w` to CMD (R41): dropped with OVR set while busy, else the next command. -/
def State.writeCmd (s : State) (w : Word) : State :=
  if s.busy then { s with ovr := true } else { s with cur := w, busy := true, phase := .exec }

/-- A host write of `w` to STAT (R42): bit 16 clears OVR. -/
def State.writeStat (s : State) (w : Word) : State := { s with ovr := s.ovr && !w.getLsbD 16 }

/-- What the host reads from a sequencer register (R40 to R45). -/
def State.seqRead (s : State) (r : SeqReg) : Word :=
  match r with
  | .cmd => s.cur
  | .stat => statWord s.busy s.code s.ovr
  | .result => s.result
  | .arg k => s.arg k
  | .frId => s.fr.idWord
  | .frFlags => s.fr.flagsWord
  | .frLen => s.fr.len
  | .frMeta => s.fr.metaWord
  | .frData k => s.fr.data.get k

/-- The effect of a host write to a sequencer register (R40 to R45). -/
def State.seqWrite (s : State) (r : SeqReg) (w : Word) : State :=
  match r with
  | .cmd => s.writeCmd w
  | .stat => s.writeStat w
  | .result => s
  | .arg k => s.setArg k w
  | .frId => { s with fr := s.fr.writeId w }
  | .frFlags => { s with fr := s.fr.writeFlags w }
  | .frLen => { s with fr := { s.fr with len := w } }
  | .frMeta => { s with fr := s.fr.writeMeta w }
  | .frData k => { s with fr := { s.fr with data := s.fr.data.set k.val w k.isLt } }

/-- The reset step (R480): everything to its value of R69 but the parameters and the message RAM (R486), and what is not the
block's: the agenda, whether the host is stuck, and the host's last read (DESIGN CHOICE, safe, log 13). -/
def State.resetStep (s : State) : State :=
  { State.reset with params := s.params, mem := s.mem, hostStuck := s.hostStuck, agenda := s.agenda, hostData := s.hostData }

end Sys2Proof.Machine
end

