-- ==== Sys2Proof/Machine/Bus.lean ====
section
/-!
DEFINITION. The host's accesses (R100, R103, R104, R110, R516): which region an address lies in, reads and writes, and the
expansion of a command statement into accesses (R163).
-/

namespace Sys2Proof.Machine

/-- What an address selects (R100). -/
inductive Region where
  | seq (off : Nat)
  | reg (i : BitVec 2) (off : Nat)
  | ram (i : BitVec 2) (off : Nat)
  | unmapped
  deriving DecidableEq, Repr

/-- Whether address `a` lies in the `size` bytes from `base`. -/
def inBlock (base size a : Nat) : Bool := decide (base ≤ a) && decide (a < base + size)

/-- The instance whose register block holds the address (R48, R100). -/
def regOwner (p : Params) (a : Nat) : Option (BitVec 2) :=
  ([0#2, 1#2, 2#2, 3#2] : List (BitVec 2)).find? fun i =>
    decide (i.toNat < p.numInst) && inBlock (p.regBase.get i.toFin).toNat Config.regBytes a

/-- The instance whose message-RAM slice holds the address (R107, R108). -/
def ramOwner (p : Params) (a : Nat) : Option (BitVec 2) :=
  ([0#2, 1#2, 2#2, 3#2] : List (BitVec 2)).find? fun i =>
    decide (i.toNat < p.numInst) && inBlock (p.msgram i) p.sliceBytes a

/-- The region of an address (R100, R110). Regions that a choice of the base parameters makes overlap are tried in this order
(DESIGN CHOICE, unsafe, log 11). -/
def regionOf (p : Params) (a : Nat) : Region :=
  if inBlock p.seqBase.toNat Config.seqBytes a then .seq (a - p.seqBase.toNat)
  else
    match regOwner p a with
    | some i => .reg i (a - (p.regBase.get i.toFin).toNat)
    | none =>
      match ramOwner p a with
      | some i => .ram i (a - p.msgram i)
      | none => .unmapped

/-- Why the host's access is refused, if it is: width (R103), alignment (R104), unmapped (R110). -/
def refusedAccess (p : Params) (width : Width) (addr : Word) : Option Fault :=
  if width ≠ .w32 then some .hostWidth
  else if addr.toNat % 4 ≠ 0 then some (.hostMisaligned addr)
  else if regionOf p addr.toNat = .unmapped then some (.hostUnmapped addr)
  else none

/-- The word at an accepted address; reserved offsets read 0 (R40, R48). -/
def State.busRead (s : State) (addr : Word) : Word :=
  match regionOf s.params addr.toNat with
  | .seq off =>
    match SeqReg.ofOffset off with
    | some r => s.seqRead r
    | none => 0
  | .reg i off =>
    match CtrlReg.ofOffset off with
    | some r => s.regRead i r
    | none => 0
  | .ram i off => s.memRead i off
  | .unmapped => 0

/-- The effect of a write at an accepted address; reserved offsets ignore it (R40, R48). -/
def State.busWrite (s : State) (addr : Word) (v : Word) : State :=
  match regionOf s.params addr.toNat with
  | .seq off =>
    match SeqReg.ofOffset off with
    | some r => s.seqWrite r v
    | none => s
  | .reg i off =>
    match CtrlReg.ofOffset off with
    | some r => s.regWrite i r v
    | none => s
  | .ram i off => s.memWrites i off [v]
  | .unmapped => s

/-- One host access whose effect, if it is accepted, is `effect` (R516): a stuck host has no step, a refused access leaves the
host stuck and touches nothing of the block (R103, R104, R110; log 4). -/
def State.hostAccess (s : State) (width : Width) (addr : Word) (effect : State) : State :=
  if s.hostStuck.isSome then s
  else
    match refusedAccess s.params width addr with
    | some e => { s with hostStuck := some e }
    | none => effect

/-- A host read step: the word is returned to the host, the block is as before (R106; DESIGN CHOICE, log 10). -/
def State.hostRead (width : Width) (addr : Word) (s : State) : State :=
  s.hostAccess width addr { s with hostData := s.busRead addr }

/-- A host write step (R516). -/
def State.hostWrite (width : Width) (addr v : Word) (s : State) : State := s.hostAccess width addr (s.busWrite addr v)

/-- The byte address of a sequencer register (R40). -/
def seqAddr (p : Params) (r : SeqReg) : Word := p.seqBase + BitVec.ofNat 32 r.offset

/-- The byte address of a controller register (R48). -/
def regAddr (p : Params) (i : BitVec 2) (r : CtrlReg) : Word := p.regBase.get i.toFin + BitVec.ofNat 32 r.offset

/-- The byte address of a message-RAM offset (R108). -/
def ramAddr (p : Params) (i : BitVec 2) (off : Nat) : Word := BitVec.ofNat 32 (p.msgram i + off)

/-- `WR` of a sequencer register (R162). -/
def wrSeq (p : Params) (r : SeqReg) (v : Word) : Turn := .hostWrite .w32 (seqAddr p r) v

/-- The ARG writes of a command statement from ARG`k` on, one for each operand given (R163). -/
def argWrites (p : Params) : Nat → List Word → List Turn
  | _, [] => []
  | k, a :: as => (if h : k < 5 then [wrSeq p (.arg ⟨k, h⟩) a] else []) ++ argWrites p (k + 1) as

/-- A command statement's host accesses (R163), its wait loop taken `polls` times. The loop's end is the host's program's
choice, which is outside the block (R67; DESIGN CHOICE, safe, log 12). -/
def statementTurns (p : Params) (i : Instr) (operands : List Word) (polls : Nat) : List Turn :=
  argWrites p 0 operands ++ wrSeq p .cmd (encode i)
    :: List.replicate polls (.hostRead .w32 (seqAddr p .stat))

end Sys2Proof.Machine
end

