-- ==== Sys2Proof/Machine/Codec.lean ====
section
/-!
DEFINITION. The codec commands (40_codec.md). They ignore INST (R151).
-/

namespace Sys2Proof.Machine

/-- LENGTH_TO_DLC (R204). -/
def execLengthToDlc (_inst : BitVec 2) (s : State) : Host.Outcome State Fault Refusal :=
  match l2d s.arg0 with
  | none => .next (s.fail .invalid)
  | some d => .next (s.finish .ok (d.setWidth 32))

/-- DLC_TO_LENGTH (R205): a code above 15 is `Invalid`, never masked. -/
def execDlcToLength (_inst : BitVec 2) (s : State) : Host.Outcome State Fault Refusal :=
  if 15 < s.arg0.toNat then .next (s.fail .invalid)
  else .next (s.finish .ok (BitVec.ofNat 32 (d2l (s.arg0.extractLsb' 0 4))))

end Sys2Proof.Machine
end

