-- ==== Sys2Proof/Machine/ConfigState.lean ====
section
/-!
DEFINITION. The configuration state machine and bit timing (41_config.md): ENTER_CONFIG, LEAVE_CONFIG and the POLL step they
share, CFG_MODE, SET_NOMINAL_TIMING, SET_FD_TIMING.
-/

namespace Sys2Proof.Machine

/-- Starts waiting for INIT_ACK to read `target` with the budget latched from ARG0 (R122, R221, R222). -/
def State.startPoll (s : State) (target : Bool) : State :=
  { s with budget := s.arg0, target := target, phase := .poll }

/-- EXEC body of ENTER_CONFIG (R221): no write if already CONFIGURING, else INIT and CCE in one CCCR write. -/
def State.enterConfig (i : BitVec 2) (s : State) : State :=
  if (s.ctrl i).initReq && (s.ctrl i).initAck && (s.ctrl i).cce then s.finish .ok 0
  else (s.regWrite i .cccr (s.regRead i .cccr ||| 0x3#32)).startPoll true

/-- EXEC body of LEAVE_CONFIG (R222): no write if already OPERATING, else INIT and CCE cleared in one CCCR write. -/
def State.leaveConfig (i : BitVec 2) (s : State) : State :=
  if !(s.ctrl i).initReq && !(s.ctrl i).initAck then s.finish .ok 0
  else (s.regWrite i .cccr (s.regRead i .cccr &&& ~~~0x3#32)).startPoll false

/-- The POLL step (R223), instance CUR[6:5]: `Ok` on the target, `Timeout` on budget 0 with no rollback, else one less. -/
def State.pollStep (s : State) : State :=
  if (s.regRead (instField s.cur) .cccr).getLsbD 0 = s.target then s.finish .ok 0
  else if s.budget = 0#32 then s.fail .timeout
  else { s with budget := s.budget - 1#32 }

/-- EXEC body of CFG_MODE (R224): outside CONFIGURING no write, else CCCR's mode bits and then TEST.LBCK. -/
def State.cfgMode (i : BitVec 2) (s : State) : State :=
  if (s.ctrl i).configuring then
    ((s.regWrite i .cccr (cfgModeWord (s.regRead i .cccr) s.arg0)).regWrite i .test (cfgTestWord s.arg0)).finish .ok 0
  else s.finish .ok 0

/-- EXEC body of SET_NOMINAL_TIMING (R225). -/
def State.setNominalTiming (i : BitVec 2) (s : State) : State :=
  (s.regWrite i .nbtp (nominalWord s.arg0 s.arg1 s.arg2 s.arg3)).finish .ok 0

/-- EXEC body of SET_FD_TIMING (R226). -/
def State.setFdTiming (i : BitVec 2) (s : State) : State :=
  (s.regWrite i .dbtp (fdWord s.arg0 s.arg1 s.arg2 s.arg3)).finish .ok 0

/-- ENTER_CONFIG (R155, R221). -/
def execEnterConfig (inst : BitVec 2) (s : State) : Host.Outcome State Fault Refusal := onInst inst s (State.enterConfig inst)

/-- LEAVE_CONFIG (R155, R222). -/
def execLeaveConfig (inst : BitVec 2) (s : State) : Host.Outcome State Fault Refusal := onInst inst s (State.leaveConfig inst)

/-- CFG_MODE (R155, R224). -/
def execCfgMode (inst : BitVec 2) (s : State) : Host.Outcome State Fault Refusal := onInst inst s (State.cfgMode inst)

/-- SET_NOMINAL_TIMING (R155, R225). -/
def execSetNominalTiming (inst : BitVec 2) (s : State) : Host.Outcome State Fault Refusal :=
  onInst inst s (State.setNominalTiming inst)

/-- SET_FD_TIMING (R155, R226). -/
def execSetFdTiming (inst : BitVec 2) (s : State) : Host.Outcome State Fault Refusal := onInst inst s (State.setFdTiming inst)

end Sys2Proof.Machine
end

