-- ==== Sys2Proof/Machine/Filters.lean ====
section
/-!
DEFINITION. The filter-table loader (42_filters.md): FILTER_INIT, SET_STD_FILTER, SET_EXT_FILTER.
-/

namespace Sys2Proof.Machine

/-- EXEC body of FILTER_INIT (R260): every filter word zeroed, then the counts published. -/
def State.filterInit (i : BitVec 2) (s : State) : State :=
  if Config.stdMax < s.arg0.toNat ∨ Config.extMax < s.arg1.toNat then s.fail .outOfRange
  else
    let z := (s.memWrites i (sfl 0) (List.replicate Config.stdMax 0)).memWrites i (efl 0)
      (List.replicate (2 * Config.extMax) 0)
    (z.regWrite i .rxgfc (filterCountsWord (z.regRead i .rxgfc) s.arg0 s.arg1)).finish .ok 0

/-- EXEC body of SET_STD_FILTER (R261). -/
def State.setStdFilter (i : BitVec 2) (s : State) : State :=
  if (s.ctrl i).effLSS ≤ s.arg0.toNat then s.fail .outOfRange
  else (s.memWrites i (sfl s.arg0.toNat) [stdFilterWord s.arg1 s.arg2 s.arg3 s.arg4]).finish .ok 0

/-- EXEC body of SET_EXT_FILTER (R262): F0, then F1. -/
def State.setExtFilter (i : BitVec 2) (s : State) : State :=
  if (s.ctrl i).effLSE ≤ s.arg0.toNat then s.fail .outOfRange
  else
    (s.memWrites i (efl s.arg0.toNat) [extFilterWord0 s.arg2 s.arg4, extFilterWord1 s.arg1 s.arg3]).finish .ok 0

/-- FILTER_INIT (R155, R260). -/
def execFilterInit (inst : BitVec 2) (s : State) : Host.Outcome State Fault Refusal := onInst inst s (State.filterInit inst)

/-- SET_STD_FILTER (R155, R261). -/
def execSetStdFilter (inst : BitVec 2) (s : State) : Host.Outcome State Fault Refusal := onInst inst s (State.setStdFilter inst)

/-- SET_EXT_FILTER (R155, R262). -/
def execSetExtFilter (inst : BitVec 2) (s : State) : Host.Outcome State Fault Refusal := onInst inst s (State.setExtFilter inst)

end Sys2Proof.Machine
end

