-- ==== Sys2Proof/Machine/Irq.lean ====
section
/-!
DEFINITION. IRQ line control (45_irq.md): ENABLE_IRQ, DISABLE_IRQ. The lines themselves are `irqLine` (R446).
-/

namespace Sys2Proof.Machine

/-- EXEC body of ENABLE_IRQ (R380). -/
def State.enableIrq (i : BitVec 2) (s : State) : State :=
  let v := s.regRead i .ile ||| (s.arg0 &&& 0x3#32)
  (s.regWrite i .ile v).finish .ok v

/-- EXEC body of DISABLE_IRQ (R381). -/
def State.disableIrq (i : BitVec 2) (s : State) : State :=
  let v := s.regRead i .ile &&& ~~~(s.arg0 &&& 0x3#32)
  (s.regWrite i .ile v).finish .ok v

/-- ENABLE_IRQ (R155, R380). -/
def execEnableIrq (inst : BitVec 2) (s : State) : Host.Outcome State Fault Refusal := onInst inst s (State.enableIrq inst)

/-- DISABLE_IRQ (R155, R381). -/
def execDisableIrq (inst : BitVec 2) (s : State) : Host.Outcome State Fault Refusal := onInst inst s (State.disableIrq inst)

end Sys2Proof.Machine
end

