-- ==== Sys2Proof/Machine/Receive.lean ====
section
/-!
DEFINITION. The receive FIFO index tracker and frame decoder (44_receive.md): AVAILABLE_RX, RECEIVE, FIFO_RELEASE.
-/

namespace Sys2Proof.Machine

/-- The fill level in a status word, bits 3:0 (R56, R342). -/
def fillOf (w : Word) : BitVec 4 := w.extractLsb' 0 4

/-- The get index in a status word, bits 9:8 (R56, R342). -/
def getOf (w : Word) : BitVec 2 := w.extractLsb' 8 2

/-- EXEC body of AVAILABLE_RX (R340): count and get index at their register positions. -/
def State.availableRx (i : BitVec 2) (s : State) : State :=
  match fifoArg s.arg0 with
  | none => s.fail .invalid
  | some f =>
    let w := s.regRead i (.rxs f)
    s.finish .ok ((fillOf w).setWidth 32 ||| ((getOf w).setWidth 32 <<< 8))

/-- The frame registers after RECEIVE decodes the slot at index `g` of FIFO `f` (R341, R342): data words from the slot below
`ceil4(n)`, the old ones at and above it. -/
def State.receivedFrame (s : State) (i : BitVec 2) (f : FifoId) (g : BitVec 2) : FrameRegs :=
  let a := rxslot s.params f g.toNat
  let r1 := s.memRead i (a + 4)
  decodeSlot (s.memRead i a) r1
    (Vector.ofFn fun k : Fin 16 =>
      if k.val < ceil4 (slotLength r1) then s.memRead i (a + 8 + 4 * k.val) else s.fr.data.get k)

/-- The acknowledge write of index `g` to RXFfA (R342, R343). -/
def State.ackFifo (s : State) (i : BitVec 2) (f : FifoId) (g : BitVec 2) : State := s.regWrite i (.rxa f) (g.setWidth 32)

/-- EXEC body of RECEIVE (R342). -/
def State.receive (i : BitVec 2) (s : State) : State :=
  match fifoArg s.arg0 with
  | none => s.fail .invalid
  | some f =>
    let w := s.regRead i (.rxs f)
    if fillOf w = 0#4 then s.fail .notAvailable
    else
      let t := { s with fr := s.receivedFrame i f (getOf w) }
      (if s.arg1.getLsbD 0 then t.ackFifo i f (getOf w) else t).finish .ok ((getOf w).setWidth 32)

/-- EXEC body of FIFO_RELEASE (R343). -/
def State.fifoRelease (i : BitVec 2) (s : State) : State :=
  match fifoArg s.arg0 with
  | none => s.fail .invalid
  | some f =>
    let w := s.regRead i (.rxs f)
    if fillOf w = 0#4 then s.fail .notAvailable
    else (s.ackFifo i f (getOf w)).finish .ok ((getOf w).setWidth 32)

/-- AVAILABLE_RX (R155, R340). -/
def execAvailableRx (inst : BitVec 2) (s : State) : Host.Outcome State Fault Refusal := onInst inst s (State.availableRx inst)

/-- RECEIVE (R155, R342). -/
def execReceive (inst : BitVec 2) (s : State) : Host.Outcome State Fault Refusal := onInst inst s (State.receive inst)

/-- FIFO_RELEASE (R155, R343). -/
def execFifoRelease (inst : BitVec 2) (s : State) : Host.Outcome State Fault Refusal := onInst inst s (State.fifoRelease inst)

end Sys2Proof.Machine
end

