-- ==== Sys2Proof/Machine/Transmit.lean ====
section
/-!
DEFINITION. The transmit mailbox allocator and frame encoder (43_transmit.md): AVAILABLE_TX, TRANSMIT.
-/

namespace Sys2Proof.Machine

/-- The pending vector as the commands read it, TXBRP[2:0] (R301, R302). -/
def State.pending (s : State) (i : BitVec 2) : BitVec 3 := (s.regRead i .txbrp).extractLsb' 0 3

/-- EXEC body of AVAILABLE_TX (R301). -/
def State.availableTx (i : BitVec 2) (s : State) : State :=
  s.finish .ok (if s.pending i = 0b111#3 then 0 else 1)

/-- What TRANSMIT does once it has a mailbox `m` and a code `d` (R302): the slot's words, then the request bit last. -/
def State.sendFrame (i : BitVec 2) (m : Fin 3) (d : BitVec 4) (s : State) : State :=
  ((s.memWrites i (txslot s.params m.val) (txWords s.fr d)).regWrite i .txbar (1#32 <<< m.val)).finish .ok
    (BitVec.ofNat 32 m.val)

/-- EXEC body of TRANSMIT (R302): `Busy`, then `Invalid`, else the frame is sent. -/
def State.transmit (i : BitVec 2) (s : State) : State :=
  match firstZero (s.pending i) with
  | none => s.fail .busy
  | some m =>
    match l2d s.fr.len with
    | none => s.fail .invalid
    | some d => s.sendFrame i m d

/-- AVAILABLE_TX (R155, R301). -/
def execAvailableTx (inst : BitVec 2) (s : State) : Host.Outcome State Fault Refusal := onInst inst s (State.availableTx inst)

/-- TRANSMIT (R155, R302). -/
def execTransmit (inst : BitVec 2) (s : State) : Host.Outcome State Fault Refusal := onInst inst s (State.transmit inst)

end Sys2Proof.Machine
end

