-- ==== Sys2Proof/Machine/Dispatch.lean ====
section
/-!
DEFINITION. exec: the EXEC body of each command, one arm per constructor of Instr (R153, R155).
-/

namespace Sys2Proof.Machine

def exec (i : Instr) (s : State) : Host.Outcome State Fault Refusal :=
  match i with
  | .enterConfig inst => Sys2Proof.Machine.execEnterConfig inst s
  | .leaveConfig inst => Sys2Proof.Machine.execLeaveConfig inst s
  | .cfgMode inst => Sys2Proof.Machine.execCfgMode inst s
  | .setNominalTiming inst => Sys2Proof.Machine.execSetNominalTiming inst s
  | .setFdTiming inst => Sys2Proof.Machine.execSetFdTiming inst s
  | .filterInit inst => Sys2Proof.Machine.execFilterInit inst s
  | .setStdFilter inst => Sys2Proof.Machine.execSetStdFilter inst s
  | .setExtFilter inst => Sys2Proof.Machine.execSetExtFilter inst s
  | .availableTx inst => Sys2Proof.Machine.execAvailableTx inst s
  | .transmit inst => Sys2Proof.Machine.execTransmit inst s
  | .availableRx inst => Sys2Proof.Machine.execAvailableRx inst s
  | .receive inst => Sys2Proof.Machine.execReceive inst s
  | .fifoRelease inst => Sys2Proof.Machine.execFifoRelease inst s
  | .enableIrq inst => Sys2Proof.Machine.execEnableIrq inst s
  | .disableIrq inst => Sys2Proof.Machine.execDisableIrq inst s
  | .lengthToDlc inst => Sys2Proof.Machine.execLengthToDlc inst s
  | .dlcToLength inst => Sys2Proof.Machine.execDlcToLength inst s

end Sys2Proof.Machine
end

