-- ==== Sys2Proof/Machine/Acceptance.lean ====
section
/-!
DEFINITION. Acceptance filtering (46_protocol_engine.md, R405 to R411): which FIFO a frame reaches, read from the filter table in
message RAM at the step.
-/

namespace Sys2Proof.Machine

/-- The three match modes compared against an identifier (R406, R407): range, dual ID, classic mask. -/
def rangeMatch (id1 id2 id : Nat) : Bool := decide (id1 ≤ id) && decide (id ≤ id2)

/-- `std_rule(w, id)` (R406): the element's action code if it matches, `none` for skip. -/
def stdRule (w : Word) (id : BitVec 29) : Option (BitVec 3) :=
  let t := w.extractLsb' 30 2
  let c := w.extractLsb' 27 3
  let id1 : BitVec 11 := w.extractLsb' 16 11
  let id2 : BitVec 11 := w.extractLsb' 0 11
  let x : BitVec 11 := id.setWidth 11
  if c = 0#3 ∨ t = 3#2 then none
  else if (t = 0#2 ∧ rangeMatch id1.toNat id2.toNat x.toNat = true) ∨ (t = 1#2 ∧ (x = id1 ∨ x = id2)) ∨
      (t = 2#2 ∧ x &&& id2 = id1 &&& id2) then some c
  else none

/-- `ext_rule(w0, w1, id)` (R407), types 0 and 3 the same range (R408). -/
def extRule (w0 w1 : Word) (id : BitVec 29) : Option (BitVec 3) :=
  let c := w0.extractLsb' 29 3
  let id1 : BitVec 29 := w0.extractLsb' 0 29
  let t := w1.extractLsb' 30 2
  let id2 : BitVec 29 := w1.extractLsb' 0 29
  if c = 0#3 then none
  else if ((t = 0#2 ∨ t = 3#2) ∧ rangeMatch id1.toNat id2.toNat id.toNat = true) ∨ (t = 1#2 ∧ (id = id1 ∨ id = id2)) ∨
      (t = 2#2 ∧ id &&& id2 = id1 &&& id2) then some c
  else none

/-- The first element from index `k` on, among `n` of them, that does not skip, with its index (R405: first match wins). -/
def firstMatch (rule : Nat → Option (BitVec 3)) : Nat → Nat → Option (BitVec 3 × Nat)
  | _, 0 => none
  | k, n + 1 =>
    match rule k with
    | some c => some (c, k)
    | none => firstMatch rule (k + 1) n

/-- What `accept` answers: destination, filter index, non-matching bit (R405). -/
structure Accepted where
  dest : Dest
  fidx : BitVec 7
  anmf : Bool
  deriving DecidableEq, Repr

/-- `action(c, k)` (R409): codes 1 and 5 store in FIFO 0, 2 and 6 in FIFO 1, 3 rejects, and 4 and 7 go where the draw says
(R410). No rule matches with code 0. -/
def filterAction (d : Draws) (c : BitVec 3) (k : Nat) : Accepted where
  dest :=
    if c = 1#3 ∨ c = 5#3 then .store .fifo0
    else if c = 2#3 ∨ c = 6#3 then .store .fifo1
    else if c = 3#3 then .discard
    else d.dest
  fidx := BitVec.ofNat 7 k
  anmf := false

/-- `nonmatch(g)` (R411): FIFO 0, FIFO 1 or discard, with a drawn FIDX and ANMF set. -/
def nonmatch (d : Draws) (g : BitVec 2) : Accepted where
  dest := if g = 0#2 then .store .fifo0 else if g = 1#2 then .store .fifo1 else .discard
  fidx := d.fidx
  anmf := true

/-- The first standard element of instance `i` that matches, below effLSS (R405). -/
def State.stdMatch (s : State) (i : BitVec 2) (id : BitVec 29) : Option (BitVec 3 × Nat) :=
  firstMatch (fun k => stdRule (s.memRead i (sfl k)) id) 0 (s.ctrl i).effLSS

/-- The first extended element of instance `i` that matches, below effLSE (R405). -/
def State.extMatch (s : State) (i : BitVec 2) (id : BitVec 29) : Option (BitVec 3 × Nat) :=
  firstMatch (fun k => extRule (s.memRead i (efl k)) (s.memRead i (efl k + 4)) id) 0 (s.ctrl i).effLSE

/-- `accept(i, F)` (R405). -/
def State.accept (s : State) (i : BitVec 2) (f : Frame) (d : Draws) : Accepted :=
  match (if f.xtd then s.extMatch i f.id else s.stdMatch i f.id) with
  | some (c, k) => filterAction d c k
  | none => nonmatch d (if f.xtd then (s.ctrl i).rxgfc.anfe else (s.ctrl i).rxgfc.anfs)

end Sys2Proof.Machine
end

