-- ==== Sys2Proof/Machine/Engine.lean ====
section
/-!
DEFINITION. The protocol engine's steps (46_protocol_engine.md, R390 to R399): each with its enabling condition. A step that is
not enabled changes nothing (DESIGN CHOICE, safe, log 3).
-/

namespace Sys2Proof.Machine

/-- Instance `i` exists and its clock runs (R18, R391). -/
def State.clocked (s : State) (i : BitVec 2) : Bool :=
  decide (i.toNat < s.params.numInst) && s.params.clockRunning.get i.toFin

/-- RUN(i): OPERATING and clocked (46_protocol_engine.md, notation). -/
def State.running (s : State) (i : BitVec 2) : Bool := s.clocked i && (s.ctrl i).operating

/-- The synchronisation step (R390): INIT_ACK takes INIT_REQ. -/
def State.syncStep (i : BitVec 2) (s : State) : State :=
  if s.clocked i && ((s.ctrl i).initReq != (s.ctrl i).initAck) then
    s.setCtrl i { s.ctrl i with initAck := (s.ctrl i).initReq }
  else s

/-- `len_eff(rtr, fdf, dlc)` (R399). -/
def lenEff (rtr fdf : Bool) (dlc : BitVec 4) : Nat :=
  if rtr then 0 else if fdf then d2l dlc else min (d2l dlc) 8

/-- `tx_frame` (R393), the frame sent from mailbox `m` as its slot stands, with the esi of R396. -/
def State.txFrame (s : State) (i : BitVec 2) (m : Fin 3) : Frame :=
  let a := txslot s.params m.val
  let t0 := s.memRead i a
  let t1 := s.memRead i (a + 4)
  let fdf := t1.getLsbD 21 && (s.ctrl i).fdoe
  let rtr := t0.getLsbD 29 && !fdf
  let dlc := t1.extractLsb' 16 4
  { xtd := t0.getLsbD 30
    rtr := rtr
    id := idOfField (t0.getLsbD 30) (t0.extractLsb' 0 29)
    fdf := fdf
    brs := t1.getLsbD 20 && fdf && (s.ctrl i).brse
    esi := false
    dlc := dlc
    bytes := (List.range (lenEff rtr fdf dlc)).map (fun k => s.mem.readByte (s.params.msgram i + a + 8 + k)) }

/-- One more frame in a FIFO: the put index moves on and the fill level rises (R394). -/
def RxFifo.push (n : Nat) (x : RxFifo) : RxFifo :=
  { x with pi := BitVec.ofNat 2 ((x.pi.toNat + 1) % n), fl := x.fl + 1#4 }

/-- The flags a stored frame sets: RFfN, and RFfF if the FIFO, now `x`, is full (R394). -/
def IrqBits.stored (b : IrqBits) (n : Nat) (f : FifoId) (x : RxFifo) : IrqBits :=
  if x.fl.toNat = n then (b.setNew f).setFull f else b.setNew f

/-- `deliver` into FIFO `f` (R394): a full FIFO loses the frame, else the slot at the put index is written. -/
def State.store (s : State) (i : BitVec 2) (f : FifoId) (fr : Frame) (a : Accepted) (d : Draws) : State :=
  let n := s.params.fifoDepth
  let c := s.ctrl i
  let x := c.fifo f
  if x.fl.toNat = n then s.setCtrl i { c with ir := c.ir.setLost f }
  else
    (s.memWrites i (rxslot s.params f x.pi.toNat)
      (encRx0 fr :: encRx1 fr a.anmf a.fidx d.ts :: wordsOfBytes d.pad fr.bytes)).setCtrl i
      { c.setFifo f (x.push n) with ir := c.ir.stored n f (x.push n) }

/-- `deliver(i, F)` (R394). -/
def State.deliver (s : State) (i : BitVec 2) (fr : Frame) (d : Draws) : State :=
  match (s.accept i fr d).dest with
  | .discard => s
  | .store f => s.store i f fr (s.accept i fr d) d

/-- The transmit completion step is enabled for mailbox `m` (R392). -/
def State.txEnabled (s : State) (i : BitVec 2) (m : Fin 3) : Bool :=
  s.running i && (s.ctrl i).trp.getLsbD m.val && (!(s.ctrl i).mon || (s.ctrl i).loopback)

/-- Takes mailbox `m`'s pending bit away (R392); `tc` sets IR.TC. -/
def Ctrl.complete (c : Ctrl) (m : Fin 3) (tc : Bool) : Ctrl :=
  { c with trp := c.trp &&& ~~~(1#3 <<< m.val), ir := { c.ir with tc := c.ir.tc || tc } }

/-- The transmit completion step (R392): success in loopback whatever was drawn, then delivery to itself (R396); on failure
the request is dropped with DAR and kept without. -/
def State.txStep (i : BitVec 2) (m : Fin 3) (success : Bool) (d : Draws) (s : State) : State :=
  if s.txEnabled i m then
    if (s.ctrl i).loopback then (s.setCtrl i ((s.ctrl i).complete m true)).deliver i (s.txFrame i m) d
    else if success then s.setCtrl i ((s.ctrl i).complete m true)
    else if (s.ctrl i).dar then s.setCtrl i ((s.ctrl i).complete m false)
    else s
  else s

/-- A frame the bus can bring to a controller (R394), its identifier in its range (46_protocol_engine.md, notation). -/
def busFrame (c : Ctrl) (f : Frame) : Bool :=
  (!f.fdf || c.fdoe) && (!f.brs || f.fdf) && (!f.fdf || !f.rtr) && (f.fdf || !f.esi)
    && decide (f.bytes.length = lenEff f.rtr f.fdf f.dlc) && (f.xtd || decide (f.id.toNat < 2 ^ 11))

/-- The receive step (R394): not in internal loopback. -/
def State.rxStep (i : BitVec 2) (f : Frame) (d : Draws) (s : State) : State :=
  if s.running i && !((s.ctrl i).loopback && (s.ctrl i).mon) && busFrame (s.ctrl i) f then s.deliver i f d else s

/-- The bus-off step (R397): back to initialisation, CCE as it stands. -/
def State.busOffStep (i : BitVec 2) (s : State) : State :=
  if s.params.busOffAllowed && s.running i && !(s.ctrl i).initReq then
    s.setCtrl i { s.ctrl i with initReq := true, initAck := true }
  else s

end Sys2Proof.Machine
end

