-- ==== Sys2Proof/Machine/Sequencer.lean ====
section
/-!
DEFINITION. One step of the sequencer (R155, R223) and one step of each agent (R5, R414).
-/

namespace Sys2Proof.Machine

/-- The EXEC step (R155): a word that is no command finishes `Invalid`, a command runs its body. -/
def State.execStep (s : State) : Host.Outcome State Fault Refusal :=
  match decode s.cur with
  | .ok i => exec i s
  | .error _ => .next (s.fail .invalid)

/-- The sequencer's step (R155): none while idle, and the state stays as it is. -/
def State.sequencerStep (s : State) : Host.Outcome State Fault Refusal :=
  match s.phase with
  | .idle => .next s
  | .exec => s.execStep
  | .poll => .next s.pollStep

/-- One agenda entry's step (R118: one agent, one atomic step). -/
def State.turnStep (t : Turn) (s : State) : Host.Outcome State Fault Refusal :=
  match t with
  | .sequencer => s.sequencerStep
  | .hostWrite width addr v => .next (s.hostWrite width addr v)
  | .hostRead width addr => .next (s.hostRead width addr)
  | .sync i => .next (s.syncStep i)
  | .txDone i m success d => .next (s.txStep i m success d)
  | .rxFrame i f d => .next (s.rxStep i f d)
  | .busOff i => .next (s.busOffStep i)
  | .reset => .next s.resetStep

/-- Takes the first entry off the agenda. -/
def State.dropTurn (s : State) : State := { s with agenda := s.agenda.tail }

/-- The next agent's step: the agenda's first entry, or the sequencer's when the agenda is empty (DESIGN CHOICE,
unsafe for the empty agenda, log 1, log 2). -/
def State.nextTurn (s : State) : Turn := s.agenda.head?.getD .sequencer

/-- The state right after the host's CMD write of a command word was accepted (R41), the sequencer's EXEC step next
(DESIGN CHOICE, safe, log 9). -/
def State.acceptedCommand (s : State) (w : Word) : State :=
  { s with cur := w, busy := true, phase := .exec, agenda := .sequencer :: s.agenda }

end Sys2Proof.Machine
end

