-- ==== Sys2Proof/Machine/Step.lean ====
section
/-!
DEFINITION. One step of the machine: the next agent's atomic step (R105, R118, R444).
-/

namespace Sys2Proof.Machine

/-- One step: the agenda's next entry is taken off and its agent steps. -/
def step (s : State) : Host.Outcome State Fault Refusal := s.dropTurn.turnStep s.nextTurn

/-- `s` with the command word of a table row as the accepted command, so that the next step executes it (DESIGN CHOICE, safe,
log 9). -/
def State.withFetchWord (s : State) (nbits w : Nat) : State := s.acceptedCommand (tableWord nbits w)

end Sys2Proof.Machine
end

