-- ==== Sys2Proof/Safety.lean ====
section
/-!
DEFINITION. The terms claims use: the invariants the spec names (R46, R50, R60), the launch premise and the end of a run (R515,
R517), slot ownership (R124), and what it means that a step leaves something alone.
-/

namespace Sys2Proof.Machine

/-- Instance `i` exists (R151). -/
abbrev State.Known (s : State) (i : BitVec 2) : Prop := i.toNat < s.params.numInst

/-- The FIFO index invariants for FIFO_DEPTH `n` (R60). -/
abbrev RxFifo.Ok (n : Nat) (x : RxFifo) : Prop :=
  x.fl.toNat ≤ n ∧ x.gi.toNat < n ∧ x.pi.toNat < n ∧ x.pi.toNat = (x.gi.toNat + x.fl.toNat) % n

/-- A controller in a reachable state: CCE only with a request (R50), LBCK only with CCCR.TEST (R50, R51), FIFOs in order
(R60). -/
abbrev Ctrl.Ok (n : Nat) (c : Ctrl) : Prop :=
  (c.cce = true → c.initReq = true) ∧ (c.lbck = true → c.test = true) ∧ c.fifo0.Ok n ∧ c.fifo1.Ok n

/-- A waiting command is ENTER_CONFIG or LEAVE_CONFIG of a known instance, waiting for its own target (R46, R155). -/
abbrev State.PollOk (s : State) : Prop :=
  s.phase = .poll → s.Known (instField s.cur) ∧
    ((decode s.cur = .ok (.enterConfig (instField s.cur)) ∧ s.target = true) ∨
      (decode s.cur = .ok (.leaveConfig (instField s.cur)) ∧ s.target = false))

/-- The machine's invariant: legal parameters (R9, R14), memory in canonical form, every controller in order, STAT.BUSY = 0
exactly when PHASE = IDLE (R46), and only a configuration command waits. -/
abbrev State.Inv (s : State) : Prop :=
  s.params.Legal ∧ Memory.wf s.mem ∧ (∀ i : BitVec 2, (s.ctrl i).Ok s.params.fifoDepth) ∧
    (s.busy = false ↔ s.phase = .idle) ∧ s.PollOk

/-- Every written byte lies in the message RAM of the `numInst` instances (R100, R108). -/
abbrev Memory.Mapped (p : Params) (m : Memory) : Prop :=
  ∀ e ∈ m, p.msgramBase.toNat ≤ e.1 ∧ e.1 < p.msgramBase.toNat + p.numInst * p.sliceBytes

/-- The block is in the state of R69, with any message RAM and parameters (R480). Of what is not the block's, the agenda,
`hostStuck` and `hostData`, it says nothing (log 13). -/
abbrev State.AtReset (s : State) : Prop := s = s.resetStep

/-- `CLEAN(s)`, the launch premise (R515): the state of R69 with no step taken, so with a host that no refused access has left
stuck. Message RAM, parameters, agenda and the model's own `hostData` are arbitrary (R486, log 1, log 10). -/
abbrev State.Clean (s : State) : Prop := s.AtReset ∧ s.hostStuck = none

/-- A host access of the agenda. -/
def Turn.isHost : Turn → Bool
  | .hostWrite _ _ _ => true
  | .hostRead _ _ => true
  | _ => false

/-- The end of a run (R517): the host has made its last access and the sequencer is idle. A stuck host never gets there (R516). -/
abbrev State.Ended (s : State) : Prop :=
  s.phase = .idle ∧ s.hostStuck = none ∧ s.agenda.all (fun t => !t.isHost) = true

/-- A host access that R103, R104 or R110 refuses: of another width than 32 bits, misaligned, or unmapped. -/
abbrev Refused (p : Params) (width : Width) (addr : Word) : Prop :=
  width ≠ .w32 ∨ addr.toNat % 4 ≠ 0 ∨ regionOf p addr.toNat = .unmapped

/-- Receive slot `k` lies in the filled window, so the host side owns it (R124). -/
abbrev RxFifo.InWindow (n : Nat) (x : RxFifo) (k : Nat) : Prop := ∃ j < x.fl.toNat, k = (x.gi.toNat + j) % n

/-- From `s` to `t` instance `i`'s controller becomes `c` and the others stay. -/
abbrev State.CtrlBecomes (s t : State) (i : BitVec 2) (c : Ctrl) : Prop :=
  t.ctrl i = c ∧ ∀ j : BitVec 2, j ≠ i → t.ctrl j = s.ctrl j

/-- From `s` to `t` every byte of memory outside the `len` bytes from `base` reads as before. -/
abbrev State.SameOutside (s t : State) (base len : Nat) : Prop :=
  ∀ a : Nat, ¬(base ≤ a ∧ a < base + len) → t.mem.readByte a = s.mem.readByte a

/-- TRP of instance `i` (R59). -/
abbrev State.trpOf (s : State) (i : BitVec 2) : BitVec 3 := (s.ctrl i).trp

/-- The number that selects a FIFO in an operand (R340). -/
def FifoId.number : FifoId → Word
  | .fifo0 => 0
  | .fifo1 => 1

/-- The other FIFO (R346). -/
def FifoId.other : FifoId → FifoId
  | .fifo0 => .fifo1
  | .fifo1 => .fifo0

end Sys2Proof.Machine
end

