-- ==== Sys2Proof/WellFormed.lean ====
section
/-!
DEFINITION. When a command is well formed: its instance exists (R151). That the field fits two bits is in its type.
-/

namespace Sys2Proof

/-- The command's INST field. -/
def Instr.inst : Instr → BitVec 2
  | .enterConfig i => i
  | .leaveConfig i => i
  | .cfgMode i => i
  | .setNominalTiming i => i
  | .setFdTiming i => i
  | .filterInit i => i
  | .setStdFilter i => i
  | .setExtFilter i => i
  | .availableTx i => i
  | .transmit i => i
  | .availableRx i => i
  | .receive i => i
  | .fifoRelease i => i
  | .enableIrq i => i
  | .disableIrq i => i
  | .lengthToDlc i => i
  | .dlcToLength i => i

/-- Whether the command acts on an instance: every command but the two of the codec (R151). -/
def Instr.takesInst : Instr → Bool
  | .enterConfig _ => true
  | .leaveConfig _ => true
  | .cfgMode _ => true
  | .setNominalTiming _ => true
  | .setFdTiming _ => true
  | .filterInit _ => true
  | .setStdFilter _ => true
  | .setExtFilter _ => true
  | .availableTx _ => true
  | .transmit _ => true
  | .availableRx _ => true
  | .receive _ => true
  | .fifoRelease _ => true
  | .enableIrq _ => true
  | .disableIrq _ => true
  | .lengthToDlc _ => false
  | .dlcToLength _ => false

/-- The command names an instance the block has, or ignores the field (R151). A command that is not well formed still
runs: it finishes `Invalid` (R155). -/
def Instr.wf (p : Params) (i : Instr) : Bool :=
  !i.takesInst || decide (i.inst.toNat < p.numInst)

end Sys2Proof
end

