-- ==== Sys2Proof/Certificates/Slice0/Obligations.lean ====
section
/-!
DEFINITION. The statements for the provers, each citing the rules of the spec it formalises. A command's statement gives the whole
next state, so its frame is in it: what the record update and the clauses after it do not name is unchanged.
-/

open Sys2Proof Sys2Proof.Machine

/-! ## Encoding and decoding -/

/-- R153: a word selects a row iff its bits under 0xFFFFFF9F are the row's, and it is then exactly that command's word with INST
in bits 6:5. -/
def Obligations.DecodeIsExactInverseOfEncode : Prop :=
  ∀ (w : BitVec 32) (i : Instr),
    (decode w = .ok i ↔ w = encode i) ∧
    (decode w = .ok i ↔ (w &&& 0xFFFFFF9F#32) = (encode i &&& 0xFFFFFF9F#32) ∧ w.extractLsb' 5 2 = i.inst)

/-- R164 and the words of the test vectors L2.8. -/
def Obligations.SampleCommandWordsDecode : Prop :=
  decode 0x00000001#32 = .ok (.enterConfig 0) ∧ decode 0x00000061#32 = .ok (.enterConfig 3) ∧
  decode 0x00000007#32 = .ok (.setStdFilter 0) ∧ decode 0x0000002A#32 = .ok (.transmit 1) ∧
  decode 0x0000004C#32 = .ok (.receive 2) ∧ decode 0x0000000E#32 = .ok (.enableIrq 0) ∧
  decode 0x00000010#32 = .ok (.lengthToDlc 0) ∧ decode 0x00000070#32 = .ok (.lengthToDlc 3) ∧
  decode 0x00000080#32 = .error .reservedBits ∧ decode 0x8000000A#32 = .error .reservedBits ∧
  decode 0x00000000#32 = .error (.reservedOp 0) ∧ decode 0x00000012#32 = .error (.reservedOp 0x12) ∧
  decode 0x0000001F#32 = .error (.reservedOp 0x1F)

/-- R152, R154: a word with a reserved bit set, or with OP 0x00 or 0x12 to 0x1F, finishes `Invalid` and has no other effect. -/
def Obligations.ReservedCommandWordsFinishInvalid : Prop :=
  ∀ (s : State) (rest : List Turn), s.agenda = .sequencer :: rest → s.phase = .exec →
    (s.cur >>> 7 ≠ 0#32 ∨ (s.cur &&& 0x1F#32) = 0#32 ∨ 0x12#32 ≤ (s.cur &&& 0x1F#32)) →
    step s = .next { s with
      agenda := rest, code := .invalid, result := 0xFFFFFFFF#32, busy := false, phase := .idle }

/-- R151: every command but the codec's finishes `Invalid` on an unknown instance, touching nothing else; the instance is bits
6:5 of the command word; the codec commands ignore INST. -/
def Obligations.UnknownInstanceFinishesInvalid : Prop :=
  (∀ (i : Instr) (s : State), i.takesInst = true → s.params.numInst ≤ i.inst.toNat →
    exec i s = .next { s with code := .invalid, result := 0xFFFFFFFF#32, busy := false, phase := .idle }) ∧
  (∀ (w : BitVec 32) (i : Instr), decode w = .ok i → i.inst = w.extractLsb' 5 2) ∧
  (∀ (a b : BitVec 2) (s : State),
    exec (.lengthToDlc a) s = exec (.lengthToDlc b) s ∧ exec (.dlcToLength a) s = exec (.dlcToLength b) s)

/-- R155: the sequencer's step on an accepted command word runs the decoded command. What the step adds is taking the entry off
the agenda; with an empty agenda the sequencer's step is the one taken (the model's choice, log 2). -/
def Obligations.StepRunsDecodedCommand : Prop :=
  ∀ (s : State) (i : Instr), s.phase = .exec → decode s.cur = .ok i →
    (∀ rest : List Turn, s.agenda = .sequencer :: rest → step s = exec i { s with agenda := rest }) ∧
    (s.agenda = [] → step s = exec i s)

/-! ## The codec -/

/-- R204 with the table of R200: the DLC of each encodable length, `Invalid` on every other 32-bit value. -/
def Obligations.LengthToDlcAnswers : Prop :=
  ∀ (inst : BitVec 2) (s : State),
    let table : List (Nat × Nat) := [(0, 0), (1, 1), (2, 2), (3, 3), (4, 4), (5, 5), (6, 6), (7, 7), (8, 8), (12, 9), (16, 10),
      (20, 11), (24, 12), (32, 13), (48, 14), (64, 15)]
    encode (.lengthToDlc inst) = 0x10#32 ||| (inst.setWidth 32 <<< 5) ∧
    (∀ d : Nat, (s.arg0.toNat, d) ∈ table → exec (.lengthToDlc inst) s =
      .next { s with code := .ok, result := BitVec.ofNat 32 d, busy := false, phase := .idle }) ∧
    ((∀ d : Nat, (s.arg0.toNat, d) ∉ table) → exec (.lengthToDlc inst) s =
      .next { s with code := .invalid, result := 0xFFFFFFFF#32, busy := false, phase := .idle })

/-- R205 with the table of R201: the length of each code, `Invalid` above 15. -/
def Obligations.DlcToLengthAnswers : Prop :=
  ∀ (inst : BitVec 2) (s : State),
    let lengths : List Nat := [0, 1, 2, 3, 4, 5, 6, 7, 8, 12, 16, 20, 24, 32, 48, 64]
    encode (.dlcToLength inst) = 0x11#32 ||| (inst.setWidth 32 <<< 5) ∧
    (∀ n : Nat, lengths[s.arg0.toNat]? = some n → exec (.dlcToLength inst) s =
      .next { s with code := .ok, result := BitVec.ofNat 32 n, busy := false, phase := .idle }) ∧
    (15 < s.arg0.toNat → exec (.dlcToLength inst) s =
      .next { s with code := .invalid, result := 0xFFFFFFFF#32, busy := false, phase := .idle })

/-- R202: the two codec functions are inverse on what `l2d` accepts, and every code comes from its length. -/
def Obligations.CodecFunctionsAreInverse : Prop :=
  (∀ (n : Word) (d : BitVec 4), l2d n = some d → d2l d = n.toNat) ∧
  (∀ d : BitVec 4, l2d (BitVec.ofNat 32 (d2l d)) = some d) ∧
  (∀ (n m : Word) (d : BitVec 4), l2d n = some d → l2d m = some d → n = m)

/-! ## Configuration state machine and bit timing -/

/-- R221. CCE is set only with a request pending in every reachable state (an invariant of its own), which keeps the mode bits.
-/
def Obligations.EnterConfigRequestsOnce : Prop :=
  ∀ (inst : BitVec 2) (s : State), s.Known inst → ((s.ctrl inst).cce = true → (s.ctrl inst).initReq = true) →
    encode (.enterConfig inst) = 0x01#32 ||| (inst.setWidth 32 <<< 5) ∧
    (((s.ctrl inst).initReq = true ∧ (s.ctrl inst).initAck = true ∧ (s.ctrl inst).cce = true) →
      exec (.enterConfig inst) s = .next { s with code := .ok, result := 0, busy := false, phase := .idle }) ∧
    (¬((s.ctrl inst).initReq = true ∧ (s.ctrl inst).initAck = true ∧ (s.ctrl inst).cce = true) →
      ∃ t, exec (.enterConfig inst) s = .next t ∧
        t = { s with budget := s.arg0, target := true, phase := .poll, ctrls := t.ctrls } ∧
        s.CtrlBecomes t inst { s.ctrl inst with initReq := true, cce := true })

/-- R222. LBCK is set only with CCCR.TEST in every reachable state (an invariant of its own), which keeps it. -/
def Obligations.LeaveConfigRequestsOnce : Prop :=
  ∀ (inst : BitVec 2) (s : State), s.Known inst → ((s.ctrl inst).lbck = true → (s.ctrl inst).test = true) →
    encode (.leaveConfig inst) = 0x02#32 ||| (inst.setWidth 32 <<< 5) ∧
    (((s.ctrl inst).initReq = false ∧ (s.ctrl inst).initAck = false) →
      exec (.leaveConfig inst) s = .next { s with code := .ok, result := 0, busy := false, phase := .idle }) ∧
    (¬((s.ctrl inst).initReq = false ∧ (s.ctrl inst).initAck = false) →
      ∃ t, exec (.leaveConfig inst) s = .next t ∧
        t = { s with budget := s.arg0, target := false, phase := .poll, ctrls := t.ctrls } ∧
        s.CtrlBecomes t inst { s.ctrl inst with initReq := false, cce := false })

/-- R223, one POLL step: `Ok` when INIT reads the target, `Timeout` when the budget is 0, else one less, nothing rolled back. -/
def Obligations.PollStepCountsDown : Prop :=
  ∀ (s : State) (rest : List Turn), s.agenda = .sequencer :: rest → s.phase = .poll →
    ((s.ctrl (s.cur.extractLsb' 5 2)).initAck = s.target →
      step s = .next { s with agenda := rest, code := .ok, result := 0, busy := false, phase := .idle }) ∧
    ((s.ctrl (s.cur.extractLsb' 5 2)).initAck ≠ s.target → s.budget = 0#32 →
      step s = .next { s with agenda := rest, code := .timeout, result := 0xFFFFFFFF#32, busy := false, phase := .idle }) ∧
    ((s.ctrl (s.cur.extractLsb' 5 2)).initAck ≠ s.target → s.budget ≠ 0#32 →
      step s = .next { s with agenda := rest, budget := BitVec.ofNat 32 (s.budget.toNat - 1) })

/-- R223, R391, R442: a wait that nobody acknowledges takes exactly BUDGET + 1 polls and ends in `Timeout` with the request
still in place. The agenda is empty, so only the sequencer steps (log 2). -/
def Obligations.UnacknowledgedWaitTimesOutAfterBudgetPlusOnePolls : Prop :=
  ∀ s : State, s.phase = .poll → s.agenda = [] → (s.ctrl (s.cur.extractLsb' 5 2)).initAck ≠ s.target →
    (∀ k : Nat, k ≤ s.budget.toNat →
      Host.Core.run Sys2Proof.core k s = .next { s with budget := BitVec.ofNat 32 (s.budget.toNat - k) }) ∧
    Host.Core.run Sys2Proof.core (s.budget.toNat + 1) s =
      .next { s with budget := 0, code := .timeout, result := 0xFFFFFFFF#32, busy := false, phase := .idle }

/-- R224: the mode bits and LBCK in CONFIGURING, nothing outside it, `Ok` always. -/
def Obligations.CfgModeWritesModeBits : Prop :=
  ∀ (inst : BitVec 2) (s : State), s.Known inst →
    let c := s.ctrl inst
    encode (.cfgMode inst) = 0x03#32 ||| (inst.setWidth 32 <<< 5) ∧
    ∃ t, exec (.cfgMode inst) s = .next t ∧
      t = { s with code := .ok, result := 0, busy := false, phase := .idle, ctrls := t.ctrls } ∧
      s.CtrlBecomes t inst
        (if c.initAck = true ∧ c.cce = true then
          { c with
            initReq := true
            fdoe := s.arg0.getLsbD 0
            brse := s.arg0.getLsbD 1
            dar := s.arg0.getLsbD 2
            mon := s.arg0.getLsbD 3
            test := s.arg0.getLsbD 4
            lbck := s.arg0.getLsbD 4 && s.arg0.getLsbD 5 }
        else c)

/-- R225: the four fields masked, packed and stored only while CONFIGURING; `Ok` always. -/
def Obligations.SetNominalTimingPacksFields : Prop :=
  ∀ (inst : BitVec 2) (s : State), s.Known inst →
    let c := s.ctrl inst
    encode (.setNominalTiming inst) = 0x04#32 ||| (inst.setWidth 32 <<< 5) ∧
    ∃ t, exec (.setNominalTiming inst) s = .next t ∧
      t = { s with code := .ok, result := 0, busy := false, phase := .idle, ctrls := t.ctrls } ∧
      s.CtrlBecomes t inst
        (if c.initAck = true ∧ c.cce = true then
          { c with nbtp :=
            { nsjw := s.arg0.setWidth 7, nbrp := s.arg3.setWidth 9, ntseg1 := s.arg1.setWidth 8, ntseg2 := s.arg2.setWidth 7 } }
        else c) ∧
      (c.initAck = true ∧ c.cce = true → t.regRead inst .nbtp =
        ((s.arg0 &&& 0x7F#32) <<< 25) ||| ((s.arg3 &&& 0x1FF#32) <<< 16) ||| ((s.arg1 &&& 0xFF#32) <<< 8) |||
          (s.arg2 &&& 0x7F#32))

/-- R226: the four fields masked, packed and stored only while CONFIGURING, TDC cleared; `Ok` always. -/
def Obligations.SetFdTimingPacksFields : Prop :=
  ∀ (inst : BitVec 2) (s : State), s.Known inst →
    let c := s.ctrl inst
    encode (.setFdTiming inst) = 0x05#32 ||| (inst.setWidth 32 <<< 5) ∧
    ∃ t, exec (.setFdTiming inst) s = .next t ∧
      t = { s with code := .ok, result := 0, busy := false, phase := .idle, ctrls := t.ctrls } ∧
      s.CtrlBecomes t inst
        (if c.initAck = true ∧ c.cce = true then
          { c with dbtp :=
            { tdc := false, dbrp := s.arg3.setWidth 5, dtseg1 := s.arg1.setWidth 5, dtseg2 := s.arg2.setWidth 4,
              dsjw := s.arg0.setWidth 4 } }
        else c) ∧
      (c.initAck = true ∧ c.cce = true → t.regRead inst .dbtp =
        ((s.arg3 &&& 0x1F#32) <<< 16) ||| ((s.arg1 &&& 0x1F#32) <<< 8) ||| ((s.arg2 &&& 0xF#32) <<< 4) |||
          (s.arg0 &&& 0xF#32))

/-! ## Filter-table loader -/

/-- R260: counts above the maxima are refused with no write; else, while CONFIGURING, all 44 filter words become 0 and the
counts are published with ANFS and ANFE kept; outside CONFIGURING nothing is written. -/
def Obligations.FilterInitZeroesTableAndPublishesCounts : Prop :=
  ∀ (inst : BitVec 2) (s : State), s.Known inst →
    let c := s.ctrl inst
    encode (.filterInit inst) = 0x06#32 ||| (inst.setWidth 32 <<< 5) ∧
    (28 < s.arg0.toNat ∨ 8 < s.arg1.toNat → exec (.filterInit inst) s =
      .next { s with code := .outOfRange, result := 0xFFFFFFFF#32, busy := false, phase := .idle }) ∧
    (s.arg0.toNat ≤ 28 → s.arg1.toNat ≤ 8 →
      ∃ t, exec (.filterInit inst) s = .next t ∧
        t = { s with code := .ok, result := 0, busy := false, phase := .idle, ctrls := t.ctrls, mem := t.mem } ∧
        (c.initAck = true ∧ c.cce = true →
          s.CtrlBecomes t inst
            { c with rxgfc := { c.rxgfc with lss := s.arg0.setWidth 5, lse := s.arg1.setWidth 4 } } ∧
          (∀ k < 28, t.memRead inst (sfl k) = 0) ∧
          (∀ k < 8, t.memRead inst (efl k) = 0 ∧ t.memRead inst (efl k + 4) = 0) ∧
          s.SameOutside t (s.params.msgram inst) 176) ∧
        (¬(c.initAck = true ∧ c.cce = true) → t.ctrls = s.ctrls ∧ t.mem = s.mem))

/-- R261: an index at or above effLSS is refused with no write; else the packed element is written, while CONFIGURING only. -/
def Obligations.SetStdFilterWritesElement : Prop :=
  ∀ (inst : BitVec 2) (s : State), s.Known inst →
    let c := s.ctrl inst
    encode (.setStdFilter inst) = 0x07#32 ||| (inst.setWidth 32 <<< 5) ∧
    (min c.rxgfc.lss.toNat 28 ≤ s.arg0.toNat → exec (.setStdFilter inst) s =
      .next { s with code := .outOfRange, result := 0xFFFFFFFF#32, busy := false, phase := .idle }) ∧
    (s.arg0.toNat < min c.rxgfc.lss.toNat 28 →
      ∃ t, exec (.setStdFilter inst) s = .next t ∧
        t = { s with code := .ok, result := 0, busy := false, phase := .idle, mem := t.mem } ∧
        (c.initAck = true ∧ c.cce = true →
          t.memRead inst (sfl s.arg0.toNat) =
            ((s.arg1 &&& 0x3#32) <<< 30) ||| ((s.arg4 &&& 0x7#32) <<< 27) ||| ((s.arg2 &&& 0x7FF#32) <<< 16) |||
              (s.arg3 &&& 0x7FF#32) ∧
          s.SameOutside t (s.params.msgram inst + sfl s.arg0.toNat) 4) ∧
        (¬(c.initAck = true ∧ c.cce = true) → t.mem = s.mem))

/-- R262: an index at or above effLSE is refused with no write; else both words are written, while CONFIGURING only. -/
def Obligations.SetExtFilterWritesElement : Prop :=
  ∀ (inst : BitVec 2) (s : State), s.Known inst →
    let c := s.ctrl inst
    encode (.setExtFilter inst) = 0x08#32 ||| (inst.setWidth 32 <<< 5) ∧
    (min c.rxgfc.lse.toNat 8 ≤ s.arg0.toNat → exec (.setExtFilter inst) s =
      .next { s with code := .outOfRange, result := 0xFFFFFFFF#32, busy := false, phase := .idle }) ∧
    (s.arg0.toNat < min c.rxgfc.lse.toNat 8 →
      ∃ t, exec (.setExtFilter inst) s = .next t ∧
        t = { s with code := .ok, result := 0, busy := false, phase := .idle, mem := t.mem } ∧
        (c.initAck = true ∧ c.cce = true →
          t.memRead inst (efl s.arg0.toNat) = ((s.arg4 &&& 0x7#32) <<< 29) ||| (s.arg2 &&& 0x1FFFFFFF#32) ∧
          t.memRead inst (efl s.arg0.toNat + 4) = ((s.arg1 &&& 0x3#32) <<< 30) ||| (s.arg3 &&& 0x1FFFFFFF#32) ∧
          s.SameOutside t (s.params.msgram inst + efl s.arg0.toNat) 8) ∧
        (¬(c.initAck = true ∧ c.cce = true) → t.mem = s.mem))

/-! ## Transmit -/

/-- R301. -/
def Obligations.AvailableTxReportsFreeMailbox : Prop :=
  ∀ (inst : BitVec 2) (s : State), s.Known inst →
    encode (.availableTx inst) = 0x09#32 ||| (inst.setWidth 32 <<< 5) ∧
    exec (.availableTx inst) s = .next { s with
      code := .ok, result := (if (s.ctrl inst).trp = 0b111#3 then 0#32 else 1#32), busy := false, phase := .idle }

/-- R302 with R300: `Busy` before `Invalid`, neither with an effect; else the lowest free mailbox gets T0, T1 and the data
words, its request bit, and is the result. -/
def Obligations.TransmitFillsLowestFreeMailbox : Prop :=
  ∀ (inst : BitVec 2) (s : State), s.Known inst →
    let c := s.ctrl inst
    encode (.transmit inst) = 0x0A#32 ||| (inst.setWidth 32 <<< 5) ∧
    (c.trp = 0b111#3 → exec (.transmit inst) s =
      .next { s with code := .busy, result := 0xFFFFFFFF#32, busy := false, phase := .idle }) ∧
    (c.trp ≠ 0b111#3 → l2d s.fr.len = none → exec (.transmit inst) s =
      .next { s with code := .invalid, result := 0xFFFFFFFF#32, busy := false, phase := .idle }) ∧
    (∀ (m : Fin 3) (d : BitVec 4), c.trp.getLsbD m.val = false → (∀ k < m.val, c.trp.getLsbD k = true) →
      l2d s.fr.len = some d →
      ∃ t, exec (.transmit inst) s = .next t ∧
        t = { s with
          code := .ok, result := BitVec.ofNat 32 m.val, busy := false, phase := .idle, ctrls := t.ctrls, mem := t.mem } ∧
        s.CtrlBecomes t inst { c with trp := c.trp ||| (1#3 <<< m.val) } ∧
        t.memRead inst (txslot s.params m.val) = encT0 s.fr ∧
        t.memRead inst (txslot s.params m.val + 4) = encT1 s.fr d ∧
        (∀ k : Fin 16, k.val < (s.fr.len.toNat + 3) / 4 →
          t.memRead inst (txslot s.params m.val + 8 + 4 * k.val) = s.fr.data.get k) ∧
        s.SameOutside t (s.params.msgram inst + txslot s.params m.val) (8 + 4 * ((s.fr.len.toNat + 3) / 4)))

/-- R303 and R304: the two header words as the rules' formulas. -/
def Obligations.TransmitHeaderWordFormulas : Prop :=
  ∀ (r : FrameRegs) (d : BitVec 4),
    let bit (b : Bool) : Word := if b then 1#32 else 0#32
    encT0 r = (bit r.xtd <<< 30) ||| (bit r.rtr <<< 29) |||
      (if r.xtd = true then r.id.setWidth 32 else (r.id.setWidth 32 &&& 0x7FF#32) <<< 18) ∧
    encT1 r d = (bit r.fdf <<< 21) ||| (bit r.brs <<< 20) ||| (d.setWidth 32 <<< 16)

/-- R306: from no pending request, three TRANSMITs of an encodable frame return 0, 1, 2 and leave every mailbox pending, a
fourth returns `Busy`, and once the engine has taken bit `m` away the next returns `m`. -/
def Obligations.ThreeTransmitsExhaustMailboxes : Prop :=
  ∀ (inst : BitVec 2) (s : State) (d : BitVec 4), s.Known inst → (s.ctrl inst).trp = 0#3 → l2d s.fr.len = some d →
    ∃ t1 t2 t3 t4 : State,
      exec (.transmit inst) s = .next t1 ∧ t1.code = .ok ∧ t1.result = 0#32 ∧
      exec (.transmit inst) t1 = .next t2 ∧ t2.code = .ok ∧ t2.result = 1#32 ∧
      exec (.transmit inst) t2 = .next t3 ∧ t3.code = .ok ∧ t3.result = 2#32 ∧
      exec (.transmit inst) t3 = .next t4 ∧ t4.code = .busy ∧ (t4.ctrl inst).trp = 0b111#3 ∧
      ∀ (m : Fin 3) (u : State), u = { t4 with ctrls := u.ctrls } →
        t4.CtrlBecomes u inst { t4.ctrl inst with
          trp := (t4.ctrl inst).trp &&& ~~~(1#3 <<< m.val), ir := { (t4.ctrl inst).ir with tc := true } } →
        ∃ t5, exec (.transmit inst) u = .next t5 ∧ t5.code = .ok ∧ t5.result = BitVec.ofNat 32 m.val

/-! ## Receive -/

/-- R340: `Invalid` on a FIFO number other than 0 and 1, else count and get index at their register positions; the numbers that
select the FIFOs. -/
def Obligations.AvailableRxReportsCountAndGetIndex : Prop :=
  ∀ (inst : BitVec 2) (s : State), s.Known inst →
    encode (.availableRx inst) = 0x0B#32 ||| (inst.setWidth 32 <<< 5) ∧
    FifoId.number .fifo0 = 0#32 ∧ FifoId.number .fifo1 = 1#32 ∧
    (1 < s.arg0.toNat → exec (.availableRx inst) s =
      .next { s with code := .invalid, result := 0xFFFFFFFF#32, busy := false, phase := .idle }) ∧
    (∀ f : FifoId, s.arg0 = f.number → exec (.availableRx inst) s = .next { s with
      code := .ok
      result := ((s.ctrl inst).fifo f).fl.setWidth 32 ||| (((s.ctrl inst).fifo f).gi.setWidth 32 <<< 8)
      busy := false
      phase := .idle })

/-- R342 with R58: `Invalid`, then `NotAvailable`, neither touching a frame register; else the frame registers take the slot at
the get index, data words at and past ceil4(n) kept, and with ARG1[0] the acknowledge frees exactly that slot. The premise is
the FIFO invariant of R60 (an invariant of its own). -/
def Obligations.ReceiveDecodesSlotAtGetIndex : Prop :=
  ∀ (inst : BitVec 2) (s : State), s.Known inst →
    encode (.receive inst) = 0x0C#32 ||| (inst.setWidth 32 <<< 5) ∧
    (1 < s.arg0.toNat → exec (.receive inst) s =
      .next { s with code := .invalid, result := 0xFFFFFFFF#32, busy := false, phase := .idle }) ∧
    (∀ f : FifoId, s.arg0 = f.number → ((s.ctrl inst).fifo f).fl = 0#4 → exec (.receive inst) s =
      .next { s with code := .notAvailable, result := 0xFFFFFFFF#32, busy := false, phase := .idle }) ∧
    (∀ f : FifoId, s.arg0 = f.number → s.params.Legal → ((s.ctrl inst).fifo f).Ok s.params.fifoDepth →
      ((s.ctrl inst).fifo f).fl ≠ 0#4 →
      let x := (s.ctrl inst).fifo f
      let a := rxslot s.params f x.gi.toNat
      let r0 := s.memRead inst a
      let r1 := s.memRead inst (a + 4)
      let n := d2l (r1.extractLsb' 16 4)
      ∃ t, exec (.receive inst) s = .next t ∧
        t = { s with
          code := .ok, result := x.gi.setWidth 32, busy := false, phase := .idle, fr := t.fr, ctrls := t.ctrls } ∧
        t.fr = decodeSlot r0 r1 t.fr.data ∧
        (∀ k : Fin 16, t.fr.data.get k =
          if k.val < (n + 3) / 4 then s.memRead inst (a + 8 + 4 * k.val) else s.fr.data.get k) ∧
        s.CtrlBecomes t inst
          (if s.arg1.getLsbD 0 = true then
            (s.ctrl inst).setFifo f
              { x with gi := BitVec.ofNat 2 ((x.gi.toNat + 1) % s.params.fifoDepth), fl := x.fl - 1#4, ai := x.gi.setWidth 3 }
          else s.ctrl inst))

/-- R341: the decoder as the rule's formulas, read through the frame registers as words (R45). -/
def Obligations.SlotDecoderFormulas : Prop :=
  ∀ (r0 r1 : Word) (data : Vector Word 16),
    let r := decodeSlot r0 r1 data
    let bit (b : Bool) : Word := if b then 1#32 else 0#32
    r.idWord = (if r0.getLsbD 30 = true then r0 &&& 0x1FFFFFFF#32 else (r0 >>> 18) &&& 0x7FF#32) ∧
    r.flagsWord = bit (r0.getLsbD 30) ||| (bit (r0.getLsbD 29) <<< 1) ||| (bit (r1.getLsbD 21) <<< 2) |||
      (bit (r1.getLsbD 20) <<< 3) ||| (bit (r1.getLsbD 31) <<< 8) ∧
    r.len.toNat = d2l (r1.extractLsb' 16 4) ∧
    r.metaWord = ((r1 >>> 24) &&& 0x7F#32) ||| (r1 <<< 16) ∧
    r.data = data

/-- R343: `Invalid`, then `NotAvailable` with no acknowledge; else the acknowledge of the get index frees exactly that slot. -/
def Obligations.FifoReleaseFreesOneSlot : Prop :=
  ∀ (inst : BitVec 2) (s : State), s.Known inst →
    encode (.fifoRelease inst) = 0x0D#32 ||| (inst.setWidth 32 <<< 5) ∧
    (1 < s.arg0.toNat → exec (.fifoRelease inst) s =
      .next { s with code := .invalid, result := 0xFFFFFFFF#32, busy := false, phase := .idle }) ∧
    (∀ f : FifoId, s.arg0 = f.number → ((s.ctrl inst).fifo f).fl = 0#4 → exec (.fifoRelease inst) s =
      .next { s with code := .notAvailable, result := 0xFFFFFFFF#32, busy := false, phase := .idle }) ∧
    (∀ f : FifoId, s.arg0 = f.number → s.params.Legal → ((s.ctrl inst).fifo f).Ok s.params.fifoDepth →
      ((s.ctrl inst).fifo f).fl ≠ 0#4 →
      let x := (s.ctrl inst).fifo f
      ∃ t, exec (.fifoRelease inst) s = .next t ∧
        t = { s with code := .ok, result := x.gi.setWidth 32, busy := false, phase := .idle, ctrls := t.ctrls } ∧
        s.CtrlBecomes t inst ((s.ctrl inst).setFifo f
          { x with gi := BitVec.ofNat 2 ((x.gi.toNat + 1) % s.params.fifoDepth), fl := x.fl - 1#4, ai := x.gi.setWidth 3 }))

/-- R58: an acknowledge inside the filled window, `j` slots past the get index, frees `j + 1` slots; one of an empty FIFO, of an
index not below FIFO_DEPTH or outside the window changes nothing. -/
def Obligations.AcknowledgeFreesUpToIndex : Prop :=
  ∀ (n : Nat) (x : RxFifo), 1 ≤ n → n ≤ 4 → x.Ok n →
    (∀ (j : Nat) (a : BitVec 3), j < x.fl.toNat → a.toNat = (x.gi.toNat + j) % n →
      (x.ack n a).gi.toNat = (a.toNat + 1) % n ∧ (x.ack n a).fl.toNat = x.fl.toNat - (j + 1) ∧
      (x.ack n a).pi = x.pi ∧ (x.ack n a).ai = x.ai ∧ (x.ack n a).Ok n) ∧
    (∀ a : BitVec 3, (∀ j < x.fl.toNat, a.toNat ≠ (x.gi.toNat + j) % n) → x.ack n a = x)

/-! ## Interrupt lines -/

/-- R380. -/
def Obligations.EnableIrqOrsMask : Prop :=
  ∀ (inst : BitVec 2) (s : State), s.Known inst →
    encode (.enableIrq inst) = 0x0E#32 ||| (inst.setWidth 32 <<< 5) ∧
    ∃ t, exec (.enableIrq inst) s = .next t ∧
      t = { s with
        code := .ok, result := ((s.ctrl inst).ile ||| s.arg0.setWidth 2).setWidth 32, busy := false, phase := .idle,
        ctrls := t.ctrls } ∧
      s.CtrlBecomes t inst { s.ctrl inst with ile := (s.ctrl inst).ile ||| s.arg0.setWidth 2 }

/-- R381. -/
def Obligations.DisableIrqClearsMask : Prop :=
  ∀ (inst : BitVec 2) (s : State), s.Known inst →
    encode (.disableIrq inst) = 0x0F#32 ||| (inst.setWidth 32 <<< 5) ∧
    ∃ t, exec (.disableIrq inst) s = .next t ∧
      t = { s with
        code := .ok, result := ((s.ctrl inst).ile &&& ~~~(s.arg0.setWidth 2)).setWidth 32, busy := false, phase := .idle,
        ctrls := t.ctrls } ∧
      s.CtrlBecomes t inst { s.ctrl inst with ile := (s.ctrl inst).ile &&& ~~~(s.arg0.setWidth 2) }

/-- R446: a line is high exactly when it is enabled and some flag, enabled in IE, is routed to it by its group's ILS bit. -/
def Obligations.IrqLineIsEnabledRoutedFlag : Prop :=
  ∀ (c : Ctrl) (k : Bool),
    irqLine c k = true ↔ c.ile.getLsbD k.toNat = true ∧
      ((c.ils.getLsbD 0 = k ∧ (c.ir.rf0n && c.ie.rf0n || c.ir.rf0f && c.ie.rf0f || c.ir.rf0l && c.ie.rf0l) = true) ∨
        (c.ils.getLsbD 1 = k ∧ (c.ir.rf1n && c.ie.rf1n || c.ir.rf1f && c.ie.rf1f || c.ir.rf1l && c.ie.rf1l) = true) ∨
        (c.ils.getLsbD 2 = k ∧ (c.ir.tc && c.ie.tc) = true))

/-! ## Registers as the host and the sequencer write them -/

/-- R41: a CMD write is dropped with OVR set while busy, else it starts the command; a read of CMD returns CUR. -/
def Obligations.CommandWriteStartsOrOverruns : Prop :=
  ∀ (s : State) (rest : List Turn) (addr c : Word), s.agenda = .hostWrite .w32 addr c :: rest →
    s.hostStuck = none → addr.toNat % 4 = 0 → regionOf s.params addr.toNat = .seq 0x00 →
    (s.busy = true → step s = .next { s with agenda := rest, ovr := true }) ∧
    (s.busy = false → step s = .next { s with agenda := rest, cur := c, busy := true, phase := .exec }) ∧
    s.seqRead .cmd = s.cur

/-- R42, R160: STAT as read, each status code by its number, and a write that clears OVR by a 1 in bit 16 and does nothing
else. -/
def Obligations.StatWriteClearsOverrunOnly : Prop :=
  ∀ (s : State) (rest : List Turn) (addr w : Word), s.agenda = .hostWrite .w32 addr w :: rest →
    s.hostStuck = none → addr.toNat % 4 = 0 → regionOf s.params addr.toNat = .seq 0x04 →
    step s = .next { s with agenda := rest, ovr := (if w.getLsbD 16 = true then false else s.ovr) } ∧
    let number : Word := match s.code with
      | .ok => 0
      | .timeout => 1
      | .busy => 2
      | .invalid => 3
      | .notAvailable => 4
      | .outOfRange => 5
    s.seqRead .stat = (if s.busy = true then 1#32 else 0#32) ||| (number <<< 8) ||| (if s.ovr = true then 0x10000#32 else 0#32)

/-- R44, R45, R43: what each sequencer register reads after a host write of `w`, and that the write leaves every other field:
arguments, FR_LEN and FR_DATA whole, the other frame registers without their hardwired bits, RESULT unchanged. And which field each
of them reads, at which bits. -/
def Obligations.SequencerRegisterReadsBackWrite : Prop :=
  ∀ (s : State) (w : Word),
    (∀ k : Fin 5, let t := s.seqWrite (.arg k) w;
      t.seqRead (.arg k) = w ∧ (∀ j, j ≠ k → t.arg j = s.arg j) ∧
      t = { s with arg0 := t.arg0, arg1 := t.arg1, arg2 := t.arg2, arg3 := t.arg3, arg4 := t.arg4 }) ∧
    (let t := s.seqWrite .frLen w;
      t.seqRead .frLen = w ∧ t = { s with fr := { s.fr with len := t.fr.len } }) ∧
    (∀ k : Fin 16, let t := s.seqWrite (.frData k) w;
      t.seqRead (.frData k) = w ∧ (∀ j, j ≠ k → t.fr.data.get j = s.fr.data.get j) ∧
      t = { s with fr := { s.fr with data := t.fr.data } }) ∧
    (let t := s.seqWrite .frId w;
      t.seqRead .frId = w &&& 0x1FFFFFFF#32 ∧ t = { s with fr := { s.fr with id := t.fr.id } }) ∧
    (let t := s.seqWrite .frFlags w;
      t.seqRead .frFlags = w &&& 0x10F#32 ∧
      t = { s with fr := { s.fr with xtd := t.fr.xtd, rtr := t.fr.rtr, fdf := t.fr.fdf, brs := t.fr.brs, anmf := t.fr.anmf } }) ∧
    (let t := s.seqWrite .frMeta w;
      t.seqRead .frMeta = w &&& 0xFFFF007F#32 ∧ t = { s with fr := { s.fr with fidx := t.fr.fidx, ts := t.fr.ts } }) ∧
    s.seqWrite .result w = s ∧
    (let bit (b : Bool) : Word := if b then 1#32 else 0#32;
      s.seqRead .result = s.result ∧ s.seqRead (.arg 0) = s.arg0 ∧ s.seqRead (.arg 1) = s.arg1 ∧ s.seqRead (.arg 2) = s.arg2 ∧
      s.seqRead (.arg 3) = s.arg3 ∧ s.seqRead (.arg 4) = s.arg4 ∧ s.seqRead .frId = s.fr.id.setWidth 32 ∧
      s.seqRead .frFlags = bit s.fr.xtd ||| (bit s.fr.rtr <<< 1) ||| (bit s.fr.fdf <<< 2) ||| (bit s.fr.brs <<< 3) |||
        (bit s.fr.anmf <<< 8) ∧
      s.seqRead .frLen = s.fr.len ∧ s.seqRead .frMeta = s.fr.fidx.setWidth 32 ||| (s.fr.ts.setWidth 32 <<< 16) ∧
      ∀ k : Fin 16, s.seqRead (.frData k) = s.fr.data.get k)

/-- R50: a CCCR write sets the request, latches CCE with it, and writes the mode bits only from CONFIGURING; INIT_ACK stays, and
after the write CCE implies the request. -/
def Obligations.CccrWriteLatchesRequestAndGatesModes : Prop :=
  ∀ (n : Nat) (c : Ctrl) (w : Word),
    c.write n .cccr w = { c with
      initReq := w.getLsbD 0
      cce := (if w.getLsbD 0 = true then w.getLsbD 1 else false)
      mon := (if c.initAck = true ∧ c.cce = true then w.getLsbD 5 else c.mon)
      dar := (if c.initAck = true ∧ c.cce = true then w.getLsbD 6 else c.dar)
      test := (if c.initAck = true ∧ c.cce = true then w.getLsbD 7 else c.test)
      fdoe := (if c.initAck = true ∧ c.cce = true then w.getLsbD 8 else c.fdoe)
      brse := (if c.initAck = true ∧ c.cce = true then w.getLsbD 9 else c.brse)
      lbck := (if c.initAck = true ∧ c.cce = true ∧ w.getLsbD 7 = false then false else c.lbck) } ∧
    ((c.write n .cccr w).cce = true → (c.write n .cccr w).initReq = true)

/-- R52 to R55, R51, R109: while CONFIGURING a protected register reads back what was written without its reserved bits; outside
CONFIGURING the write, and a write to the filter region, changes nothing at all, and a CCCR write keeps the mode bits. -/
def Obligations.ProtectedWritesTakeEffectOnlyInConfiguring : Prop :=
  ∀ (s : State) (i : BitVec 2) (w : Word),
    ((s.ctrl i).initAck = true ∧ (s.ctrl i).cce = true →
      (s.regWrite i .nbtp w).regRead i .nbtp = w &&& 0xFFFFFF7F#32 ∧
      (s.regWrite i .dbtp w).regRead i .dbtp = w &&& 0x009F1FFF#32 ∧
      (s.regWrite i .rxgfc w).regRead i .rxgfc = w &&& 0x0F1F003C#32 ∧
      ((s.ctrl i).test = true → (s.regWrite i .test w).regRead i .test = w &&& 0x10#32) ∧
      ((s.ctrl i).test = false → s.regWrite i .test w = s) ∧
      ((s.regWrite i .cccr w).regRead i .cccr &&& 0x3E0#32) = w &&& 0x3E0#32 ∧
      (∀ off < 176, (s.memWrites i off [w]).memRead i off = w)) ∧
    (¬((s.ctrl i).initAck = true ∧ (s.ctrl i).cce = true) →
      s.regWrite i .nbtp w = s ∧ s.regWrite i .dbtp w = s ∧ s.regWrite i .rxgfc w = s ∧ s.regWrite i .test w = s ∧
      ((s.regWrite i .cccr w).regRead i .cccr &&& 0x3E0#32) = (s.regRead i .cccr &&& 0x3E0#32) ∧
      ((s.regWrite i .cccr w).ctrl i).lbck = (s.ctrl i).lbck ∧
      (∀ off < 176, s.memWrites i off [w] = s))

/-- R49, R51, R53 to R57, R59, R61 to R64: what each register reads, field by field. TXBAR only sets requests, IR is cleared by
ones, IE, ILS and ILE store their bits, RXFfA stores FfAI and acknowledges it, the status views ignore writes; each leaves every
other field of the controller. A register access of an instance is that of its controller, and leaves everything else. -/
def Obligations.RegisterReadsAndUngatedWrites : Prop :=
  ∀ (n : Nat) (c : Ctrl) (w : Word) (f : FifoId),
    let bit (b : Bool) : Word := if b then 1#32 else 0#32
    let bits (b : IrqBits) : Word := bit b.rf0n ||| (bit b.rf0f <<< 1) ||| (bit b.rf0l <<< 2) ||| (bit b.rf1n <<< 3) |||
      (bit b.rf1f <<< 4) ||| (bit b.rf1l <<< 5) ||| (bit b.tc <<< 7)
    c.write n .txbar w = { c with trp := c.trp ||| w.setWidth 3 } ∧
    c.write n .ir w = { c with ir := (c.write n .ir w).ir } ∧
    (c.write n .ir w).read n .ir = c.read n .ir &&& ~~~w ∧ c.read n .ir = bits c.ir ∧
    c.write n .ie w = { c with ie := (c.write n .ie w).ie } ∧
    (c.write n .ie w).read n .ie = w &&& 0xBF#32 ∧ c.read n .ie = bits c.ie ∧
    c.write n .ils w = { c with ils := w.setWidth 3 } ∧ c.read n .ils = c.ils.setWidth 32 ∧
    c.write n .ile w = { c with ile := w.setWidth 2 } ∧ c.read n .ile = c.ile.setWidth 32 ∧
    c.fifo .fifo0 = c.fifo0 ∧ c.fifo .fifo1 = c.fifo1 ∧
    (∀ x : RxFifo, c.setFifo .fifo0 x = { c with fifo0 := x } ∧ c.setFifo .fifo1 x = { c with fifo1 := x }) ∧
    c.write n (.rxa f) w = c.setFifo f { (c.fifo f).ack n (w.setWidth 3) with ai := w.setWidth 3 } ∧
    c.read n (.rxa f) = (c.fifo f).ai.setWidth 32 ∧
    c.write n (.rxs f) w = c ∧ c.write n .txbrp w = c ∧ c.read n .txbar = 0 ∧ c.read n .txbrp = c.trp.setWidth 32 ∧
    c.read n .cccr = bit c.initAck ||| (bit c.cce <<< 1) ||| (bit c.mon <<< 5) ||| (bit c.dar <<< 6) ||| (bit c.test <<< 7) |||
      (bit c.fdoe <<< 8) ||| (bit c.brse <<< 9) ∧
    c.read n .test = bit c.lbck <<< 4 ∧
    c.read n .nbtp = (c.nbtp.nsjw.setWidth 32 <<< 25) ||| (c.nbtp.nbrp.setWidth 32 <<< 16) ||| (c.nbtp.ntseg1.setWidth 32 <<< 8) |||
      c.nbtp.ntseg2.setWidth 32 ∧
    c.read n .dbtp = (bit c.dbtp.tdc <<< 23) ||| (c.dbtp.dbrp.setWidth 32 <<< 16) ||| (c.dbtp.dtseg1.setWidth 32 <<< 8) |||
      (c.dbtp.dtseg2.setWidth 32 <<< 4) ||| c.dbtp.dsjw.setWidth 32 ∧
    c.read n .rxgfc = (c.rxgfc.lse.setWidth 32 <<< 24) ||| (c.rxgfc.lss.setWidth 32 <<< 16) ||| (c.rxgfc.anfs.setWidth 32 <<< 4) |||
      (c.rxgfc.anfe.setWidth 32 <<< 2) ∧
    (∀ (s : State) (i : BitVec 2) (r : CtrlReg), s.regRead i r = (s.ctrl i).read s.params.fifoDepth r ∧
      s.regWrite i r w = { s with ctrls := (s.regWrite i r w).ctrls } ∧
      s.CtrlBecomes (s.regWrite i r w) i ((s.ctrl i).write s.params.fifoDepth r w)) ∧
    c.read n (.rxs f) = (c.fifo f).fl.setWidth 32 ||| ((c.fifo f).gi.setWidth 32 <<< 8) |||
      ((c.fifo f).pi.setWidth 32 <<< 16) ||| (if (c.fifo f).fl.toNat = n then 0x1000000#32 else 0#32) |||
      (if (match f with | .fifo0 => c.ir.rf0l | .fifo1 => c.ir.rf1l) = true then 0x2000000#32 else 0#32)

/-- R100: an address in a region is the region's base and an offset in it, and one in none is unmapped; R40, R48: each
register's offset as a number; R65: at any other offset a host read returns 0 and a host write changes nothing. -/
def Obligations.ReservedOffsetsReadZeroIgnoreWrites : Prop :=
  let seqOffsets : List Nat := [0x00, 0x04, 0x08, 0x10, 0x14, 0x18, 0x1C, 0x20, 0x40, 0x44, 0x48, 0x4C, 0x80, 0x84, 0x88, 0x8C,
    0x90, 0x94, 0x98, 0x9C, 0xA0, 0xA4, 0xA8, 0xAC, 0xB0, 0xB4, 0xB8, 0xBC]
  let regOffsets : List Nat := [0x00C, 0x010, 0x018, 0x01C, 0x050, 0x054, 0x058, 0x05C, 0x080, 0x090, 0x094, 0x098, 0x09C, 0x0C8,
    0x0CC]
  (∀ (p : Params) (a : Nat),
    (∀ off, regionOf p a = .seq off → a = p.seqBase.toNat + off ∧ off < 256) ∧
    (∀ i off, regionOf p a = .reg i off → i.toNat < p.numInst ∧ a = (p.regBase.get i.toFin).toNat + off ∧ off < 1024) ∧
    (∀ i off, regionOf p a = .ram i off → i.toNat < p.numInst ∧ a = p.msgram i + off ∧ off < p.sliceBytes) ∧
    (regionOf p a = .unmapped ↔ ¬(p.seqBase.toNat ≤ a ∧ a < p.seqBase.toNat + 256) ∧ ∀ i : BitVec 2, i.toNat < p.numInst →
      ¬((p.regBase.get i.toFin).toNat ≤ a ∧ a < (p.regBase.get i.toFin).toNat + 1024) ∧
      ¬(p.msgram i ≤ a ∧ a < p.msgram i + p.sliceBytes))) ∧
  (SeqReg.offset .cmd = 0x00 ∧ SeqReg.offset .stat = 0x04 ∧ SeqReg.offset .result = 0x08 ∧
    (∀ k : Fin 5, SeqReg.offset (.arg k) = 0x10 + 4 * k.val) ∧ SeqReg.offset .frId = 0x40 ∧ SeqReg.offset .frFlags = 0x44 ∧
    SeqReg.offset .frLen = 0x48 ∧ SeqReg.offset .frMeta = 0x4C ∧ ∀ k : Fin 16, SeqReg.offset (.frData k) = 0x80 + 4 * k.val) ∧
  (CtrlReg.offset .dbtp = 0x00C ∧ CtrlReg.offset .test = 0x010 ∧ CtrlReg.offset .cccr = 0x018 ∧ CtrlReg.offset .nbtp = 0x01C ∧
    CtrlReg.offset .ir = 0x050 ∧ CtrlReg.offset .ie = 0x054 ∧ CtrlReg.offset .ils = 0x058 ∧ CtrlReg.offset .ile = 0x05C ∧
    CtrlReg.offset .rxgfc = 0x080 ∧ CtrlReg.offset (.rxs .fifo0) = 0x090 ∧ CtrlReg.offset (.rxa .fifo0) = 0x094 ∧
    CtrlReg.offset (.rxs .fifo1) = 0x098 ∧ CtrlReg.offset (.rxa .fifo1) = 0x09C ∧ CtrlReg.offset .txbrp = 0x0C8 ∧
    CtrlReg.offset .txbar = 0x0CC) ∧
  ∀ (s : State) (rest : List Turn) (addr w : Word), s.hostStuck = none → addr.toNat % 4 = 0 →
    ((∃ off, regionOf s.params addr.toNat = .seq off ∧ off ∉ seqOffsets) ∨
      (∃ i off, regionOf s.params addr.toNat = .reg i off ∧ off ∉ regOffsets)) →
    (s.agenda = .hostRead .w32 addr :: rest → step s = .next { s with agenda := rest, hostData := 0 }) ∧
    (s.agenda = .hostWrite .w32 addr w :: rest → step s = .next { s with agenda := rest })

/-- R103, R104, R110, R516: a host access of another width, at a misaligned address or to no region leaves the host stuck and
the block as it was, and a stuck host makes no access. Every other access is answered: a read returns the register or the word
at its address and changes nothing of the block (R106), a write is the register's or the word's write. That an entry of a stuck
host is passed over, and the reason kept with it, are the model's (log 3, log 4). -/
def Obligations.HostAccessIsRefusedExactlyWhenIllFormed : Prop :=
  ∀ (s : State) (rest : List Turn) (width : Width) (addr w : Word),
    let u : State := { s with agenda := rest }
    (s.agenda = .hostRead width addr :: rest ∨ s.agenda = .hostWrite width addr w :: rest →
      (s.hostStuck ≠ none → step s = .next u) ∧
      (s.hostStuck = none → Refused s.params width addr → ∃ e, step s = .next { u with hostStuck := some e })) ∧
    (s.agenda = .hostRead width addr :: rest → s.hostStuck = none → ¬Refused s.params width addr →
      ∃ v, step s = .next { u with hostData := v } ∧
        (∀ r : SeqReg, regionOf s.params addr.toNat = .seq r.offset → v = s.seqRead r) ∧
        (∀ (i : BitVec 2) (r : CtrlReg), regionOf s.params addr.toNat = .reg i r.offset → v = s.regRead i r) ∧
        (∀ (i : BitVec 2) (off : Nat), regionOf s.params addr.toNat = .ram i off → v = s.memRead i off)) ∧
    (s.agenda = .hostWrite width addr w :: rest → s.hostStuck = none → ¬Refused s.params width addr →
      (∃ t, step s = .next t ∧ t.agenda = rest ∧ t.hostStuck = none ∧ t.hostData = s.hostData) ∧
        (∀ r : SeqReg, regionOf s.params addr.toNat = .seq r.offset → step s = .next (u.seqWrite r w)) ∧
        (∀ (i : BitVec 2) (r : CtrlReg), regionOf s.params addr.toNat = .reg i r.offset → step s = .next (u.regWrite i r w)) ∧
        (∀ (i : BitVec 2) (off : Nat), regionOf s.params addr.toNat = .ram i off → step s = .next (u.memWrites i off [w])))

/-! ## Memory -/

/-- R107, R108: the places of the slices, filter elements and slots as formulas over the parameters. R101, R118, R109: a host
word write to message RAM that the gate lets through is read back, lies at the host's address with its low byte first, and
leaves every other byte. -/
def Obligations.HostRamWriteIsLittleEndianAndLocal : Prop :=
  (∀ (p : Params) (i : BitVec 2) (k : Nat),
    p.msgram i = p.msgramBase.toNat + i.toNat * (4 * 28 + 8 * 8 + 2 * (72 * p.fifoDepth) + 4 * p.txevtWords + 72 * 3) ∧
    sfl k = 4 * k ∧ efl k = 4 * 28 + 8 * k ∧ rxslot p .fifo0 k = 4 * 28 + 8 * 8 + 72 * k ∧
    rxslot p .fifo1 k = 4 * 28 + 8 * 8 + 72 * p.fifoDepth + 72 * k ∧
    txslot p k = 4 * 28 + 8 * 8 + 2 * (72 * p.fifoDepth) + 4 * p.txevtWords + 72 * k) ∧
  ∀ (s : State) (rest : List Turn) (addr w : Word) (i : BitVec 2) (off : Nat), s.agenda = .hostWrite .w32 addr w :: rest →
    s.hostStuck = none → addr.toNat % 4 = 0 → regionOf s.params addr.toNat = .ram i off →
    (176 ≤ off ∨ ((s.ctrl i).initAck = true ∧ (s.ctrl i).cce = true)) →
    addr.toNat = s.params.msgram i + off ∧
    ∃ t, step s = .next t ∧ t = { s with agenda := rest, mem := t.mem } ∧ t.memRead i off = w ∧
      (∀ k < 4, t.mem.readByte (addr.toNat + k) = w.extractLsb' (8 * k) 8) ∧ s.SameOutside t addr.toNat 4

/-! ## The protocol engine -/

/-- R390, R391: the synchronisation step copies the request into the acknowledgment when the clock runs. That the entry of a
stopped or unknown instance is passed over, changing nothing, is the model's choice (log 3): the spec has no such step. -/
def Obligations.SyncCopiesRequestToAcknowledge : Prop :=
  ∀ (s : State) (rest : List Turn) (i : BitVec 2), s.agenda = .sync i :: rest →
    ∃ t, step s = .next t ∧ t = { s with agenda := rest, ctrls := t.ctrls } ∧
      s.CtrlBecomes t i
        (if s.Known i ∧ s.params.clockRunning.get i.toFin = true then { s.ctrl i with initAck := (s.ctrl i).initReq }
        else s.ctrl i)

/-- R391, R398, R392, R395: no engine step is taken with the clock stopped; no transmit, receive or bus-off step with INIT
acknowledged; no completion of a mailbox that is not pending, nor, in bus monitoring outside loopback, of one that is, which
stays pending; no frame from the bus in internal loopback, and none that breaks R394's constraints or, standard, has an identifier
past 11 bits. That the entry of such a step, or of an unknown instance, is passed over is the model's choice (log 3). -/
def Obligations.NoTrafficWithoutClockOrInInitialisation : Prop :=
  ∀ (s : State) (rest : List Turn) (i : BitVec 2) (m : Fin 3) (ok : Bool) (f : Frame) (d : Draws),
    let c := s.ctrl i
    let onBus : Prop := (f.fdf = true → c.fdoe = true) ∧ (f.brs = true → f.fdf = true) ∧ (f.fdf = true → f.rtr = false) ∧
      (f.fdf = false → f.esi = false) ∧
      f.bytes.length = (if f.rtr = true then 0 else if f.fdf = true then d2l f.dlc else min (d2l f.dlc) 8) ∧
      (f.xtd = false → f.id.toNat < 2 ^ 11)
    ((¬s.Known i ∨ s.params.clockRunning.get i.toFin = false ∨ c.initAck = true) →
      (s.agenda = .txDone i m ok d :: rest ∨ s.agenda = .rxFrame i f d :: rest ∨ s.agenda = .busOff i :: rest ∨
        (s.agenda = .sync i :: rest ∧ (¬s.Known i ∨ s.params.clockRunning.get i.toFin = false))) →
      step s = .next { s with agenda := rest }) ∧
    ((c.trp.getLsbD m.val = false ∨ (c.mon = true ∧ ¬(c.test = true ∧ c.lbck = true))) → s.agenda = .txDone i m ok d :: rest →
      step s = .next { s with agenda := rest }) ∧
    ((c.mon = true ∧ c.test = true ∧ c.lbck = true) ∨ ¬onBus → s.agenda = .rxFrame i f d :: rest →
      step s = .next { s with agenda := rest }) ∧
    (busFrame c f = true ↔ onBus)

/-- R392 outside loopback: success clears the request and sets TC; failure clears it only with DAR. -/
def Obligations.TransmitCompletionOutsideLoopback : Prop :=
  ∀ (s : State) (rest : List Turn) (i : BitVec 2) (m : Fin 3) (ok : Bool) (d : Draws),
    s.agenda = .txDone i m ok d :: rest → s.Known i → s.params.clockRunning.get i.toFin = true →
    (s.ctrl i).initAck = false → (s.ctrl i).trp.getLsbD m.val = true → (s.ctrl i).mon = false →
    ¬((s.ctrl i).test = true ∧ (s.ctrl i).lbck = true) →
    ∃ t, step s = .next t ∧ t = { s with agenda := rest, ctrls := t.ctrls } ∧
      s.CtrlBecomes t i
        (if ok = true then { s.ctrl i with trp := t.trpOf i, ir := { (s.ctrl i).ir with tc := true } }
        else if (s.ctrl i).dar = true then { s.ctrl i with trp := t.trpOf i }
        else s.ctrl i) ∧
      (∀ k : Fin 3, (t.trpOf i).getLsbD k.val =
        (if k = m ∧ (ok = true ∨ (s.ctrl i).dar = true) then false else (s.ctrl i).trp.getLsbD k.val))

/-- R392, R395, R396: in loopback the completion always succeeds, and the frame of R393 is delivered to the instance itself in
the same step; a frame that the filter rejects is not stored, and TC is still set. That a drawn failure is ignored there is
deduced (log 19). -/
def Obligations.LoopbackCompletionDeliversOwnFrame : Prop :=
  ∀ (s : State) (rest : List Turn) (i : BitVec 2) (m : Fin 3) (ok : Bool) (d : Draws),
    s.agenda = .txDone i m ok d :: rest → s.Known i → s.params.clockRunning.get i.toFin = true →
    (s.ctrl i).initAck = false → (s.ctrl i).trp.getLsbD m.val = true → (s.ctrl i).test = true → (s.ctrl i).lbck = true →
    ∃ t u : State, step s = .next t ∧
      u = { s with agenda := rest, ctrls := u.ctrls } ∧
      s.CtrlBecomes u i { s.ctrl i with
        trp := (s.ctrl i).trp &&& ~~~(1#3 <<< m.val), ir := { (s.ctrl i).ir with tc := true } } ∧
      t = u.deliver i (s.txFrame i m) d ∧ ((s.accept i (s.txFrame i m) d).dest = .discard → t = u) ∧
      (t.trpOf i).getLsbD m.val = false ∧ (t.ctrl i).ir.tc = true ∧ (s.txFrame i m).esi = false

/-- R393: the frame sent from a slot, field by field. -/
def Obligations.SentFrameFollowsSlotAndModes : Prop :=
  ∀ (s : State) (i : BitVec 2) (m : Fin 3),
    let a := txslot s.params m.val
    let t0 := s.memRead i a
    let t1 := s.memRead i (a + 4)
    let f := s.txFrame i m
    f.esi = false ∧ f.xtd = t0.getLsbD 30 ∧
    f.id.toNat = (if t0.getLsbD 30 = true then t0.toNat % 2 ^ 29 else (t0.toNat / 2 ^ 18) % 2 ^ 11) ∧
    f.fdf = (t1.getLsbD 21 && (s.ctrl i).fdoe) ∧
    f.brs = (t1.getLsbD 20 && f.fdf && (s.ctrl i).brse) ∧
    f.rtr = (t0.getLsbD 29 && !f.fdf) ∧
    f.dlc = t1.extractLsb' 16 4 ∧
    f.bytes.length = (if f.rtr = true then 0 else if f.fdf = true then d2l f.dlc else min (d2l f.dlc) 8) ∧
    (∀ k < f.bytes.length, f.bytes[k]? = some (s.mem.readByte (s.params.msgram i + a + 8 + k)))

/-- R394: a frame that meets its constraints and is accepted for a FIFO that is not full is written to the slot at the put index,
PI and FL move on and that FIFO's RFfN (with RFfF when full) is set; nothing else changes. The step is `deliver`. -/
def Obligations.ReceiveStoresFrameAtPutIndex : Prop :=
  ∀ (s : State) (rest : List Turn) (i : BitVec 2) (f : Frame) (d : Draws) (q : FifoId), s.agenda = .rxFrame i f d :: rest →
    s.Known i → s.params.clockRunning.get i.toFin = true → (s.ctrl i).initAck = false →
    ¬((s.ctrl i).test = true ∧ (s.ctrl i).lbck = true ∧ (s.ctrl i).mon = true) →
    (f.fdf = true → (s.ctrl i).fdoe = true) → (f.brs = true → f.fdf = true) → (f.fdf = true → f.rtr = false) →
    (f.fdf = false → f.esi = false) →
    f.bytes.length = (if f.rtr = true then 0 else if f.fdf = true then d2l f.dlc else min (d2l f.dlc) 8) →
    (f.xtd = false → f.id.toNat < 2 ^ 11) →
    (s.accept i f d).dest = .store q → s.params.Legal → ((s.ctrl i).fifo q).Ok s.params.fifoDepth →
    ((s.ctrl i).fifo q).fl.toNat ≠ s.params.fifoDepth →
    let c := s.ctrl i
    let x := c.fifo q
    let n := s.params.fifoDepth
    let a := rxslot s.params q x.pi.toNat
    let r := s.accept i f d
    let bit (b : Bool) : Word := if b then 1#32 else 0#32
    let y : RxFifo := { x with pi := BitVec.ofNat 2 ((x.pi.toNat + 1) % n), fl := BitVec.ofNat 4 (x.fl.toNat + 1) }
    let full : Bool := decide (x.fl.toNat + 1 = n)
    ∃ t, step s = .next t ∧ t = ({ s with agenda := rest } : State).deliver i f d ∧
      t = { s with agenda := rest, ctrls := t.ctrls, mem := t.mem } ∧
      s.CtrlBecomes t i (match q with
        | .fifo0 => { c with fifo0 := y, ir := { c.ir with rf0n := true, rf0f := c.ir.rf0f || full } }
        | .fifo1 => { c with fifo1 := y, ir := { c.ir with rf1n := true, rf1f := c.ir.rf1f || full } }) ∧
      t.memRead i a = (bit f.esi <<< 31) ||| (bit f.xtd <<< 30) ||| (bit f.rtr <<< 29) |||
        (if f.xtd = true then f.id.setWidth 32 else f.id.setWidth 32 <<< 18) ∧
      t.memRead i (a + 4) = (bit r.anmf <<< 31) ||| (r.fidx.setWidth 32 <<< 24) ||| (bit f.fdf <<< 21) |||
        (bit f.brs <<< 20) ||| (f.dlc.setWidth 32 <<< 16) ||| d.ts.setWidth 32 ∧
      (∀ k < f.bytes.length, f.bytes[k]? = some (t.mem.readByte (s.params.msgram i + a + 8 + k))) ∧
      s.SameOutside t (s.params.msgram i + a) (8 + 4 * ((f.bytes.length + 3) / 4))

/-- R394: a frame that meets its constraints and is for a full FIFO is lost, setting only that FIFO's lost flag; a discarded frame
changes nothing. The step is `deliver`. -/
def Obligations.FullFifoLosesFrame : Prop :=
  ∀ (s : State) (rest : List Turn) (i : BitVec 2) (f : Frame) (d : Draws), s.agenda = .rxFrame i f d :: rest →
    s.Known i → s.params.clockRunning.get i.toFin = true → (s.ctrl i).initAck = false →
    ¬((s.ctrl i).test = true ∧ (s.ctrl i).lbck = true ∧ (s.ctrl i).mon = true) →
    (f.fdf = true → (s.ctrl i).fdoe = true) → (f.brs = true → f.fdf = true) → (f.fdf = true → f.rtr = false) →
    (f.fdf = false → f.esi = false) →
    f.bytes.length = (if f.rtr = true then 0 else if f.fdf = true then d2l f.dlc else min (d2l f.dlc) 8) →
    (f.xtd = false → f.id.toNat < 2 ^ 11) →
    (∀ q : FifoId, (s.accept i f d).dest = .store q → ((s.ctrl i).fifo q).fl.toNat = s.params.fifoDepth →
      ∃ t, step s = .next t ∧ t = ({ s with agenda := rest } : State).deliver i f d ∧
        t = { s with agenda := rest, ctrls := t.ctrls } ∧
        s.CtrlBecomes t i { s.ctrl i with ir := (match q with
          | .fifo0 => { (s.ctrl i).ir with rf0l := true }
          | .fifo1 => { (s.ctrl i).ir with rf1l := true }) }) ∧
    ((s.accept i f d).dest = .discard → step s = .next { s with agenda := rest } ∧
      ({ s with agenda := rest } : State).deliver i f d = { s with agenda := rest })

/-- R124, R394, R396: no engine step, the storing of a received frame and of a looped-back one among them, touches a slot of the
filled window, of either FIFO. -/
def Obligations.EngineNeverOverwritesFilledWindow : Prop :=
  ∀ (s t : State) (rest : List Turn) (i : BitVec 2) (m : Fin 3) (ok : Bool) (f : Frame) (d : Draws), s.Inv →
    (s.agenda = .sync i :: rest ∨ s.agenda = .txDone i m ok d :: rest ∨ s.agenda = .rxFrame i f d :: rest ∨
      s.agenda = .busOff i :: rest) →
    step s = .next t →
    ∀ (q : FifoId) (k : Nat), ((s.ctrl i).fifo q).InWindow s.params.fifoDepth k →
      ∀ b < 72, t.mem.readByte (s.params.msgram i + rxslot s.params q k + b) =
        s.mem.readByte (s.params.msgram i + rxslot s.params q k + b)

/-- R397: bus-off puts the instance back into initialisation with CCE, TRP, FIFOs and flags as they were: neither OPERATING nor,
since CCE implies the request (R50, an invariant of its own), CONFIGURING. That an entry that is not enabled is passed over is
the model's choice (log 3). -/
def Obligations.BusOffReturnsToInitialisation : Prop :=
  ∀ (s : State) (rest : List Turn) (i : BitVec 2), s.agenda = .busOff i :: rest →
    let enabled : Prop := s.params.busOffAllowed = true ∧ s.Known i ∧ s.params.clockRunning.get i.toFin = true ∧
      (s.ctrl i).initAck = false ∧ (s.ctrl i).initReq = false
    ∃ t, step s = .next t ∧ t = { s with agenda := rest, ctrls := t.ctrls } ∧
      (enabled → s.CtrlBecomes t i { s.ctrl i with initReq := true, initAck := true }) ∧
      (enabled → ((s.ctrl i).cce = true → (s.ctrl i).initReq = true) → (t.ctrl i).initAck = true ∧ (t.ctrl i).cce = false) ∧
      (¬enabled → s.CtrlBecomes t i (s.ctrl i))

/-- R405: the first element below the effective count that matches decides by its action code; with none, the non-matching rule.
-/
def Obligations.FirstMatchingFilterDecides : Prop :=
  ∀ (s : State) (i : BitVec 2) (f : Frame) (d : Draws),
    let c := s.ctrl i
    let rule (k : Nat) : Option (BitVec 3) :=
      if f.xtd = true then extRule (s.memRead i (efl k)) (s.memRead i (efl k + 4)) f.id else stdRule (s.memRead i (sfl k)) f.id
    let count : Nat := if f.xtd = true then min c.rxgfc.lse.toNat 8 else min c.rxgfc.lss.toNat 28
    (∀ (k : Nat) (a : BitVec 3), k < count → rule k = some a → (∀ j < k, rule j = none) →
      s.accept i f d = filterAction d a k) ∧
    ((∀ k < count, rule k = none) → s.accept i f d = nonmatch d (if f.xtd = true then c.rxgfc.anfe else c.rxgfc.anfs))

/-- R406, R407, R408: when a standard and when an extended element matches, for each match mode. -/
def Obligations.FilterElementMatchModes : Prop :=
  ∀ (w w1 : Word) (id : BitVec 29),
    (id.toNat < 2 ^ 11 →
      let t := w.toNat / 2 ^ 30
      let c := (w.toNat / 2 ^ 27) % 8
      let id1 := (w.toNat / 2 ^ 16) % 2 ^ 11
      let id2 := w.toNat % 2 ^ 11
      stdRule w id = if c = 0 ∨ t = 3 then none
        else if (t = 0 ∧ id1 ≤ id.toNat ∧ id.toNat ≤ id2) ∨ (t = 1 ∧ (id.toNat = id1 ∨ id.toNat = id2)) ∨
          (t = 2 ∧ id.toNat &&& id2 = id1 &&& id2) then some (BitVec.ofNat 3 c) else none) ∧
    (let c := w.toNat / 2 ^ 29
      let id1 := w.toNat % 2 ^ 29
      let t := w1.toNat / 2 ^ 30
      let id2 := w1.toNat % 2 ^ 29
      extRule w w1 id = if c = 0 then none
        else if ((t = 0 ∨ t = 3) ∧ id1 ≤ id.toNat ∧ id.toNat ≤ id2) ∨ (t = 1 ∧ (id.toNat = id1 ∨ id.toNat = id2)) ∨
          (t = 2 ∧ id.toNat &&& id2 = id1 &&& id2) then some (BitVec.ofNat 3 c) else none)

/-- R409, R410, R411: where each action code and each global routing value sends a frame, and the FIDX and ANMF of one that is
stored; a drawn destination and a drawn FIDX where the rules leave them open. -/
def Obligations.FilterActionsAndNonMatchingRouting : Prop :=
  ∀ (d : Draws) (k : Nat) (g : BitVec 2),
    (filterAction d 1#3 k).dest = .store .fifo0 ∧ (filterAction d 2#3 k).dest = .store .fifo1 ∧
    (filterAction d 3#3 k).dest = .discard ∧ (filterAction d 4#3 k).dest = d.dest ∧
    (filterAction d 5#3 k).dest = .store .fifo0 ∧ (filterAction d 6#3 k).dest = .store .fifo1 ∧
    (filterAction d 7#3 k).dest = d.dest ∧
    (∀ (a : BitVec 3) (f : FifoId), a ≠ 0#3 → (filterAction d a k).dest = .store f →
      (filterAction d a k).fidx = BitVec.ofNat 7 k ∧ (filterAction d a k).anmf = false) ∧
    (nonmatch d g).dest = (if g = 0#2 then .store .fifo0 else if g = 1#2 then .store .fifo1 else .discard) ∧
    (∀ f : FifoId, (nonmatch d g).dest = .store f → (nonmatch d g).anmf = true ∧ (nonmatch d g).fidx = d.fidx)

/-! ## Reset -/

/-- R480, R69: the reset step sets every piece of state to its reset value, keeps the parameters and the message RAM, and
abandons a running command; of a host that is not stuck it leaves the launch premise CLEAN (R515). -/
def Obligations.ResetStepRestoresResetValues : Prop :=
  ∀ (s : State) (rest : List Turn), s.agenda = .reset :: rest →
    ∃ t, step s = .next t ∧ t.AtReset ∧ (s.hostStuck = none → t.Clean) ∧
      t.params = s.params ∧ t.mem = s.mem ∧ t.agenda = rest ∧
      t.phase = .idle ∧ t.seqRead .stat = 0 ∧ (∀ r : SeqReg, t.seqRead r = 0) ∧ t.budget = 0 ∧ t.target = false ∧
      ∀ i : BitVec 2, (t.ctrl i).initReq = true ∧ t.regRead i .cccr = 0x00000001#32 ∧ t.regRead i .test = 0 ∧
        t.regRead i .nbtp = 0x06000A03#32 ∧ t.regRead i .dbtp = 0x00000A33#32 ∧ t.regRead i .rxgfc = 0 ∧
        t.regRead i .txbrp = 0 ∧ t.regRead i .ir = 0 ∧ t.regRead i .ie = 0 ∧ t.regRead i .ils = 0 ∧ t.regRead i .ile = 0 ∧
        (∀ f : FifoId, ((t.ctrl i).fifo f).gi = 0 ∧ ((t.ctrl i).fifo f).pi = 0 ∧ ((t.ctrl i).fifo f).fl = 0 ∧
          t.regRead i (.rxa f) = 0)

/-! ## Whole-machine rules -/

/-- The reset state meets the invariant and the launch premise CLEAN of R515, and what CLEAN says of a state: the values of R515,
and a host that is not stuck, since no step has been taken. -/
def Obligations.ResetStateMeetsInvariant : Prop :=
  State.reset.Inv ∧ State.reset.Clean ∧
  ∀ s : State, s.Clean → s.phase = .idle ∧ s.hostStuck = none ∧
    ∀ i : BitVec 2, (s.ctrl i).initReq = true ∧ (s.ctrl i).initAck = true ∧ (s.ctrl i).cce = false ∧ (s.ctrl i).trp = 0#3 ∧
      (∀ f : FifoId, ((s.ctrl i).fifo f).fl = 0#4) ∧ s.regRead i .ir = 0#32

/-- R46, R50, R60: every step of every agent keeps the machine's invariant, and no step changes a parameter (R480). -/
def Obligations.EveryStepKeepsInvariantAndParameters : Prop :=
  ∀ s t : State, step s = .next t → t.params = s.params ∧ (s.Inv → t.Inv)

/-- R100, R107, R420: no step ever writes outside the message RAM of the instances. -/
def Obligations.EveryStepKeepsMemoryMapped : Prop :=
  ∀ s t : State, s.Inv → Memory.Mapped s.params s.mem → step s = .next t → Memory.Mapped t.params t.mem

/-- R440, R516: nothing the host does can make the sequencer or an engine stuck, and only a refused host access leaves the host
stuck, changing nothing else. The model's choices in it: a refused access is itself a step (log 4); every state has a next state,
since an idle sequencer, the one of an empty agenda among them (log 2), an entry that is not enabled and an entry of a stuck host
(log 3) are passed over where the spec has no step; and a reset step keeps a stuck host stuck (log 13). -/
def Obligations.OnlyRefusedHostAccessesStickHost : Prop :=
  ∀ s : State, ∃ t, step s = .next t ∧
    (t.hostStuck ≠ s.hostStuck → s.hostStuck = none ∧
      ∃ (width : Width) (addr : Word) (rest : List Turn), Refused s.params width addr ∧
        (s.agenda = .hostRead width addr :: rest ∨ ∃ w : Word, s.agenda = .hostWrite width addr w :: rest) ∧
        t = { s with agenda := rest, hostStuck := t.hostStuck }) ∧
    ((∀ (x : Turn) (rest : List Turn), s.agenda = x :: rest → x.isHost = false) →
      ∀ h : Option Fault, step { s with hostStuck := h } = .next { t with hostStuck := h })

/-- R422, R66: no command writes an argument register, and only RECEIVE, finishing `Ok`, writes a frame register. -/
def Obligations.CommandsKeepArgumentsAndFrameRegisters : Prop :=
  ∀ (i : Instr) (s t : State), exec i s = .next t →
    (∀ k : Fin 5, t.arg k = s.arg k) ∧ (t.fr ≠ s.fr → t.code = .ok ∧ ∃ inst, i = .receive inst)

/-- R52, R109, R263: a step that changes a timing or filter register, a mode bit of CCCR or LBCK of an instance, or a byte of
its filter table, is the reset step or was taken while the instance was CONFIGURING. -/
def Obligations.ProtectedStateChangesOnlyInConfiguring : Prop :=
  ∀ (s t : State) (i : BitVec 2), s.Inv → s.Known i → step s = .next t →
    ¬((s.ctrl i).initAck = true ∧ (s.ctrl i).cce = true) → (∀ rest : List Turn, s.agenda ≠ .reset :: rest) →
    (t.ctrl i).nbtp = (s.ctrl i).nbtp ∧ (t.ctrl i).dbtp = (s.ctrl i).dbtp ∧ (t.ctrl i).rxgfc = (s.ctrl i).rxgfc ∧
    (t.ctrl i).mon = (s.ctrl i).mon ∧ (t.ctrl i).dar = (s.ctrl i).dar ∧ (t.ctrl i).test = (s.ctrl i).test ∧
    (t.ctrl i).fdoe = (s.ctrl i).fdoe ∧ (t.ctrl i).brse = (s.ctrl i).brse ∧ (t.ctrl i).lbck = (s.ctrl i).lbck ∧
    ∀ b < 176, t.mem.readByte (s.params.msgram i + b) = s.mem.readByte (s.params.msgram i + b)

/-- R59, R305, R47: a pending request is taken away by the protocol engine's completion step or by reset, and INIT_ACK changes
in the instance's synchronisation or bus-off step or by reset; by nothing else. -/
def Obligations.OnlyEngineOrResetChangesHardwareBits : Prop :=
  ∀ (s t : State) (i : BitVec 2), step s = .next t →
    (∀ m : Fin 3, (s.ctrl i).trp.getLsbD m.val = true → (t.ctrl i).trp.getLsbD m.val = false →
      ∃ rest : List Turn, s.agenda = .reset :: rest ∨ ∃ (ok : Bool) (d : Draws), s.agenda = .txDone i m ok d :: rest) ∧
    ((t.ctrl i).initAck ≠ (s.ctrl i).initAck →
      ∃ rest : List Turn, s.agenda = .reset :: rest ∨ s.agenda = .sync i :: rest ∨ s.agenda = .busOff i :: rest)

/-- R413, R454: an engine step of one instance changes no other instance's controller or slice and no sequencer register. -/
def Obligations.EngineStepTouchesOwnInstanceOnly : Prop :=
  ∀ (s t : State) (i : BitVec 2) (rest : List Turn) (m : Fin 3) (ok : Bool) (f : Frame) (d : Draws), s.Inv →
    (s.agenda = .sync i :: rest ∨ s.agenda = .txDone i m ok d :: rest ∨ s.agenda = .rxFrame i f d :: rest ∨
      s.agenda = .busOff i :: rest) →
    step s = .next t →
    t = { s with agenda := rest, ctrls := t.ctrls, mem := t.mem } ∧
    (∀ j : BitVec 2, j ≠ i → t.ctrl j = s.ctrl j) ∧
    s.SameOutside t (s.params.msgram i + 176) (2 * (72 * s.params.fifoDepth))
end

