-- ==== Sys2Proof/Laws/Bits.lean ====
section
/-!
SUPPORT. The bits of placed fields, and the bytes of a word made of bytes.
-/

namespace Sys2Proof.Machine

/-- A placed field bit by bit. -/
@[simp] theorem getLsbD_place {n : Nat} (x : BitVec n) (k i : Nat) :
    (place x k).getLsbD i = (decide (i < 32) && decide (k ≤ i) && x.getLsbD (i - k)) := by
  simp only [place, BitVec.getLsbD_shiftLeft, BitVec.getLsbD_setWidth]
  by_cases h1 : i < 32
  · by_cases h2 : i < k
    · simp [h1, h2]
    · simp [h1, h2, show i - k < 32 by omega, show k ≤ i by omega]
  · simp [h1]

/-- A placed bit. -/
@[simp] theorem getLsbD_flag (b : Bool) (k i : Nat) : (flag b k).getLsbD i = (decide (i < 32) && decide (i = k) && b) := by
  simp only [flag, getLsbD_place, BitVec.getLsbD_ofBool]
  by_cases h2 : i = k
  · simp [h2]
  · by_cases h3 : k ≤ i
    · simp [h2, show i - k ≠ 0 by omega]
    · simp [h2, h3]

@[simp] theorem getElem_place {n : Nat} (x : BitVec n) (k i : Nat) (h : i < 32) :
    (place x k)[i] = (decide (k ≤ i) && x.getLsbD (i - k)) := by
  rw [← BitVec.getLsbD_eq_getElem h, getLsbD_place]; simp [h]

@[simp] theorem getElem_flag (b : Bool) (k i : Nat) (h : i < 32) : (flag b k)[i] = (decide (i = k) && b) := by
  rw [← BitVec.getLsbD_eq_getElem h, getLsbD_flag]; simp [h]

/-- A word from its own four bytes. -/
theorem wordOfBytes_bytes (w : Word) :
    wordOfBytes (w.extractLsb' 0 8) (w.extractLsb' 8 8) (w.extractLsb' 16 8) (w.extractLsb' 24 8) = w := by
  apply BitVec.eq_of_getLsbD_eq
  intro i hi
  interval_cases i <;> simp [wordOfBytes]

/-- Byte `k` of a word of four bytes. -/
theorem extract_wordOfBytes (b0 b1 b2 b3 : Byte) :
    (wordOfBytes b0 b1 b2 b3).extractLsb' 0 8 = b0 ∧ (wordOfBytes b0 b1 b2 b3).extractLsb' 8 8 = b1 ∧
      (wordOfBytes b0 b1 b2 b3).extractLsb' 16 8 = b2 ∧ (wordOfBytes b0 b1 b2 b3).extractLsb' 24 8 = b3 := by
  refine ⟨?_, ?_, ?_, ?_⟩ <;>
    (apply BitVec.eq_of_getLsbD_eq; intro i hi; interval_cases i <;> simp [wordOfBytes])

end Sys2Proof.Machine
end

