-- ==== Sys2Proof/Laws/Memory.lean ====
section
/-!
SUPPORT. Message RAM: a byte written is the byte read, other bytes stay, the canonical form is kept, and what a run of word
writes leaves at every address.
-/

namespace Sys2Proof.Machine

theorem Memory.get?_writeByte (m : Memory) (a b : Nat) (v : Byte) :
    Memory.get? (m.writeByte a v) b = if a = b then some v else Memory.get? m b := by
  induction m with
  | nil => simp [writeByte, get?]
  | cons e m ih =>
    obtain ⟨k, w⟩ := e
    simp only [writeByte]
    split
    · simp only [get?]
    · split
      · subst_vars; simp only [get?]; split <;> simp_all
      · simp only [get?, ih]; split
        · rename_i h; subst h; simp [*]
        · rfl

/-- The byte just written. -/
@[simp] theorem Memory.readByte_writeByte_self (m : Memory) (a : Nat) (v : Byte) : (m.writeByte a v).readByte a = v := by
  simp [readByte, get?_writeByte]

/-- Every other byte. -/
theorem Memory.readByte_writeByte_ne (m : Memory) {a b : Nat} (v : Byte) (h : a ≠ b) :
    (m.writeByte a v).readByte b = m.readByte b := by
  simp [readByte, get?_writeByte, h]

theorem Memory.readByte_writeByte (m : Memory) (a b : Nat) (v : Byte) :
    (m.writeByte a v).readByte b = if a = b then v else m.readByte b := by
  split
  · subst_vars; simp
  · exact readByte_writeByte_ne m v ‹_›

/-- An address listed after a byte write was listed before or is the one written. -/
theorem Memory.mem_writeByte {m : Memory} {a : Nat} {v : Byte} {e : Host.Cell} (h : e ∈ m.writeByte a v) : e.1 = a ∨ e ∈ m := by
  induction m with
  | nil => simp [writeByte] at h; simp [h]
  | cons x m ih =>
    obtain ⟨k, w⟩ := x
    simp only [writeByte] at h
    split at h
    · rcases List.mem_cons.1 h with h | h
      · simp [h]
      · exact .inr h
    · split at h
      · rcases List.mem_cons.1 h with h | h
        · simp [h]
        · exact .inr (List.mem_cons_of_mem _ h)
      · rcases List.mem_cons.1 h with h | h
        · exact .inr (by simp [h])
        · exact (ih h).imp_right (List.mem_cons_of_mem _)

/-- A byte write keeps the canonical form. -/
theorem Memory.wf_writeByte {m : Memory} (h : m.wf) (a : Nat) (v : Byte) : (m.writeByte a v).wf := by
  induction m with
  | nil => simp [writeByte, wf]
  | cons x m ih =>
    obtain ⟨k, w⟩ := x
    obtain ⟨hk, hm⟩ := List.pairwise_cons.1 h
    simp only [writeByte]
    split
    · refine List.pairwise_cons.2 ⟨fun e he => ?_, h⟩
      rcases List.mem_cons.1 he with rfl | he
      · assumption
      · have := hk e he; simp only at this ⊢; omega
    · split
      · subst_vars; exact List.pairwise_cons.2 ⟨hk, hm⟩
      · refine List.pairwise_cons.2 ⟨fun e he => ?_, ih hm⟩
        rcases mem_writeByte he with rfl | he
        · simp only; omega
        · exact hk e he

/-- A byte of a word, low byte first (R101). -/
theorem Memory.readByte_writeWord (m : Memory) (a b : Nat) (w : Word) :
    (m.writeWord a w).readByte b = if a ≤ b ∧ b < a + 4 then w.extractLsb' (8 * (b - a)) 8 else m.readByte b := by
  simp only [writeWord, readByte_writeByte]
  split_ifs <;> first | omega | rfl | (subst_vars; simp)

theorem Memory.readByte_writeWord_outside (m : Memory) {a b : Nat} (w : Word) (h : ¬(a ≤ b ∧ b < a + 4)) :
    (m.writeWord a w).readByte b = m.readByte b := by
  rw [readByte_writeWord, if_neg h]

/-- The word just written. -/
@[simp] theorem Memory.readWord_writeWord_self (m : Memory) (a : Nat) (w : Word) : (m.writeWord a w).readWord a = w := by
  simp only [readWord, readByte_writeWord]
  simpa using wordOfBytes_bytes w

/-- Two memories that agree on four bytes agree on the word. -/
theorem Memory.readWord_congr {m m' : Memory} {a : Nat} (h : ∀ k < 4, m'.readByte (a + k) = m.readByte (a + k)) :
    m'.readWord a = m.readWord a := by
  have h0 := h 0 (by omega)
  simp only [Nat.add_zero] at h0
  simp [readWord, h0, h 1 (by omega), h 2 (by omega), h 3 (by omega)]

/-- Every word that shares no byte with the one written. -/
theorem Memory.readWord_writeWord_disjoint (m : Memory) {a b : Nat} (w : Word) (h : b + 4 ≤ a ∨ a + 4 ≤ b) :
    (m.writeWord a w).readWord b = m.readWord b :=
  readWord_congr fun k hk => readByte_writeWord_outside m w (by omega)

theorem Memory.wf_writeWord {m : Memory} (h : m.wf) (a : Nat) (w : Word) : (m.writeWord a w).wf :=
  wf_writeByte (wf_writeByte (wf_writeByte (wf_writeByte h _ _) _ _) _ _) _ _

theorem Memory.mem_writeWord {m : Memory} {a : Nat} {w : Word} {e : Host.Cell} (h : e ∈ m.writeWord a w) :
    (a ≤ e.1 ∧ e.1 < a + 4) ∨ e ∈ m := by
  rcases mem_writeByte h with h | h
  · exact .inl (by omega)
  rcases mem_writeByte h with h | h
  · exact .inl (by omega)
  rcases mem_writeByte h with h | h
  · exact .inl (by omega)
  rcases mem_writeByte h with h | h
  · exact .inl (by omega)
  exact .inr h

/-- A run of word writes leaves every byte outside it. -/
theorem Memory.readByte_writeSlice_outside (base : Nat) (cfg : Bool) (ws : List Word) :
    ∀ (m : Memory) (off : Nat) {b : Nat}, ¬(base + off ≤ b ∧ b < base + off + 4 * ws.length) →
      (writeSlice base cfg m off ws).readByte b = m.readByte b := by
  induction ws with
  | nil => intro m off b _; rfl
  | cons w ws ih =>
    intro m off b h
    simp only [List.length_cons] at h
    simp only [writeSlice]
    rw [ih _ _ (by omega)]
    split
    · exact readByte_writeWord_outside m w (by omega)
    · rfl

/-- With the gate open at the first word every word of the run is written: word `k` reads back. -/
theorem Memory.readWord_writeSlice (base : Nat) (cfg : Bool) (ws : List Word) :
    ∀ (m : Memory) (off : Nat), gateOpen cfg off = true → ∀ (k : Nat) (h : k < ws.length),
      (writeSlice base cfg m off ws).readWord (base + (off + 4 * k)) = ws[k] := by
  induction ws with
  | nil => intro m off _ k h; simp at h
  | cons w ws ih =>
    intro m off hg k h
    have hg' : gateOpen cfg (off + 4) = true := by
      simp only [gateOpen, Bool.or_eq_true, decide_eq_true_eq] at hg ⊢
      exact hg.imp_right (fun h => by omega)
    simp only [writeSlice, hg, if_true]
    cases k with
    | zero =>
      rw [readWord_congr (m := m.writeWord (base + off) w)
        (fun j hj => readByte_writeSlice_outside base cfg ws _ _ (by omega))]
      simp
    | succ k =>
      have := ih (m.writeWord (base + off) w) (off + 4) hg' k (by simpa using h)
      simpa [show base + (off + 4 * (k + 1)) = base + (off + 4 + 4 * k) by omega] using this

/-- With the gate closed at the last word none of the run is written. -/
theorem Memory.writeSlice_closed (base : Nat) (ws : List Word) :
    ∀ (m : Memory) (off : Nat), off + 4 * ws.length ≤ Config.f0Off → writeSlice base false m off ws = m := by
  induction ws with
  | nil => intro m off _; rfl
  | cons w ws ih =>
    intro m off h
    simp only [List.length_cons] at h
    have hg : gateOpen false off = false := by
      have : 0 < (w :: ws).length := by simp
      simp only [gateOpen, Bool.false_or, decide_eq_false_iff_not]; omega
    simp only [writeSlice, hg]
    exact ih _ _ (by omega)

/-- A run of word writes keeps the canonical form. -/
theorem Memory.wf_writeSlice (base : Nat) (cfg : Bool) (ws : List Word) :
    ∀ {m : Memory} (off : Nat), m.wf → (writeSlice base cfg m off ws).wf := by
  induction ws with
  | nil => intro m off h; exact h
  | cons w ws ih =>
    intro m off h
    simp only [writeSlice]
    apply ih
    split
    · exact wf_writeWord h _ _
    · exact h

/-- An address listed after a run of word writes lies in the run or was listed before. -/
theorem Memory.mem_writeSlice (base : Nat) (cfg : Bool) (ws : List Word) :
    ∀ {m : Memory} (off : Nat) {e : Host.Cell}, e ∈ writeSlice base cfg m off ws →
      (base + off ≤ e.1 ∧ e.1 < base + off + 4 * ws.length) ∨ e ∈ m := by
  induction ws with
  | nil => intro m off e h; exact .inr h
  | cons w ws ih =>
    intro m off e h
    simp only [writeSlice] at h
    simp only [List.length_cons]
    rcases ih _ h with h | h
    · exact .inl (by omega)
    · split at h
      · rcases mem_writeWord h with h | h
        · exact .inl (by omega)
        · exact .inr h
      · exact .inr h

end Sys2Proof.Machine
end

