-- ==== Sys2Proof/Laws/Registers.lean ====
section
/-!
SUPPORT. Controller registers and packed words: what each field of a word read or written is, and the frame of each write.
-/

namespace Sys2Proof.Machine

/-- CCCR bit by bit as read (R49). -/
theorem Ctrl.cccrWord_bits (c : Ctrl) :
    c.cccrWord.getLsbD 0 = c.initAck ∧ c.cccrWord.getLsbD 1 = c.cce ∧ c.cccrWord.getLsbD 5 = c.mon ∧
      c.cccrWord.getLsbD 6 = c.dar ∧ c.cccrWord.getLsbD 7 = c.test ∧ c.cccrWord.getLsbD 8 = c.fdoe ∧
      c.cccrWord.getLsbD 9 = c.brse := by
  simp [cccrWord]

/-- TXBRP[2:0] is TRP (R59). -/
@[simp] theorem Ctrl.read_txbrp_low (n : Nat) (c : Ctrl) : (c.read n .txbrp).extractLsb' 0 3 = c.trp := by
  apply BitVec.eq_of_getLsbD_eq
  intro i hi
  interval_cases i <;> simp [Ctrl.read]

/-- A status word's bits 3:0 are the fill level (R56). -/
@[simp] theorem RxFifo.statusWord_fill (n : Nat) (x : RxFifo) (b : Bool) : (x.statusWord n b).extractLsb' 0 4 = x.fl := by
  apply BitVec.eq_of_getLsbD_eq
  intro i hi
  interval_cases i <;> simp [RxFifo.statusWord]

/-- A status word's bits 9:8 are the get index (R56). -/
@[simp] theorem RxFifo.statusWord_get (n : Nat) (x : RxFifo) (b : Bool) : (x.statusWord n b).extractLsb' 8 2 = x.gi := by
  apply BitVec.eq_of_getLsbD_eq
  intro i hi
  interval_cases i <;> simp [RxFifo.statusWord]

@[simp] theorem Nbtp.ofWord_word (t : Nbtp) : Nbtp.ofWord t.word = t := by
  obtain ⟨a, b, c, d⟩ := t
  simp only [Nbtp.ofWord, Nbtp.word, Nbtp.mk.injEq]
  refine ⟨?_, ?_, ?_, ?_⟩ <;> (apply BitVec.eq_of_getLsbD_eq; intro i hi; interval_cases i <;> simp)

@[simp] theorem Dbtp.ofWord_word (t : Dbtp) : Dbtp.ofWord t.word = t := by
  obtain ⟨z, a, b, c, d⟩ := t
  simp only [Dbtp.ofWord, Dbtp.word, Dbtp.mk.injEq]
  refine ⟨by simp, ?_, ?_, ?_, ?_⟩ <;>
    (apply BitVec.eq_of_getLsbD_eq; intro i hi; interval_cases i <;> simp)

@[simp] theorem Rxgfc.ofWord_word (g : Rxgfc) : Rxgfc.ofWord g.word = g := by
  obtain ⟨a, b, c, d⟩ := g
  simp only [Rxgfc.ofWord, Rxgfc.word, Rxgfc.mk.injEq]
  refine ⟨?_, ?_, ?_, ?_⟩ <;> (apply BitVec.eq_of_getLsbD_eq; intro i hi; interval_cases i <;> simp)

@[simp] theorem IrqBits.ofWord_word (b : IrqBits) : IrqBits.ofWord b.word = b := by
  obtain ⟨a, b, c, d, e, f, g⟩ := b
  simp [IrqBits.ofWord, IrqBits.word]

@[simp] theorem Ctrl.fifo_setFifo (c : Ctrl) (f : FifoId) (x : RxFifo) : (c.setFifo f x).fifo f = x := by cases f <;> rfl

theorem Ctrl.fifo_setFifo_ne (c : Ctrl) {f g : FifoId} (x : RxFifo) (h : g ≠ f) : (c.setFifo f x).fifo g = c.fifo g := by
  cases f <;> cases g <;> first | rfl | exact absurd rfl h

@[simp] theorem Ctrl.setFifo_fifo (c : Ctrl) (f : FifoId) : c.setFifo f (c.fifo f) = c := by cases f <;> rfl

/-- What setting a FIFO leaves of a controller. -/
theorem Ctrl.setFifo_frame (c : Ctrl) (f : FifoId) (x : RxFifo) :
    c.setFifo f x = { c with fifo0 := (c.setFifo f x).fifo0, fifo1 := (c.setFifo f x).fifo1 } := by cases f <;> rfl

/-- A CCCR write as one record (R50). -/
theorem Ctrl.writeCccr_eq (c : Ctrl) (w : Word) : c.writeCccr w = { c with
    initReq := w.getLsbD 0
    cce := w.getLsbD 0 && w.getLsbD 1
    mon := if c.configuring then w.getLsbD 5 else c.mon
    dar := if c.configuring then w.getLsbD 6 else c.dar
    test := if c.configuring then w.getLsbD 7 else c.test
    fdoe := if c.configuring then w.getLsbD 8 else c.fdoe
    brse := if c.configuring then w.getLsbD 9 else c.brse
    lbck := if c.configuring then w.getLsbD 7 && c.lbck else c.lbck } := by
  unfold writeCccr
  split <;> simp_all

/-- No register write changes INIT_ACK, and only a CCCR write changes INIT_REQ and CCE. -/
theorem Ctrl.write_initAck (n : Nat) (c : Ctrl) (r : CtrlReg) (w : Word) : (c.write n r w).initAck = c.initAck := by
  cases r <;> simp only [write, writeTest, writeCccr_eq, setFifo] <;> (try split) <;> rfl

/-- No register write clears a pending request (R59). -/
theorem Ctrl.write_trp (n : Nat) (c : Ctrl) (r : CtrlReg) (w : Word) :
    (c.write n r w).trp = c.trp ∨ (c.write n r w).trp = c.trp ||| w.extractLsb' 0 3 := by
  cases r <;> simp only [write, writeTest, writeCccr_eq, setFifo] <;> (try split) <;> simp

/-- Outside CONFIGURING no register write changes a timing or filter register, a mode bit or LBCK (R52). -/
theorem Ctrl.write_protected (n : Nat) {c : Ctrl} (r : CtrlReg) (w : Word) (h : c.configuring = false) :
    (c.write n r w).nbtp = c.nbtp ∧ (c.write n r w).dbtp = c.dbtp ∧ (c.write n r w).rxgfc = c.rxgfc ∧
      (c.write n r w).mon = c.mon ∧ (c.write n r w).dar = c.dar ∧ (c.write n r w).test = c.test ∧
      (c.write n r w).fdoe = c.fdoe ∧ (c.write n r w).brse = c.brse ∧ (c.write n r w).lbck = c.lbck := by
  cases r <;> simp only [write, writeTest, writeCccr_eq, setFifo, h] <;> (try split) <;> simp_all

theorem l2d_some_of_table {n : Word} {d : BitVec 4} (h : l2d n = some d) : n.toNat ≤ 64 := by
  unfold l2d at h
  split_ifs at h <;> first | omega | (subst_vars; decide)

theorem d2l_le (d : BitVec 4) : d2l d ≤ 64 := by revert d; decide

theorem fifoArg_some {w : Word} {f : FifoId} (h : fifoArg w = some f) :
    (w = 0#32 ∧ f = .fifo0) ∨ (w = 1#32 ∧ f = .fifo1) := by
  unfold fifoArg at h
  split_ifs at h <;> simp_all

theorem fifoArg_none {w : Word} (h : 1 < w.toNat) : fifoArg w = none := by
  unfold fifoArg
  split_ifs <;> first | rfl | (subst_vars; simp at h)

/-- The first zero: the mailbox is free and those below it are pending (R300). -/
theorem firstZero_some {p : BitVec 3} {m : Fin 3} :
    firstZero p = some m ↔ p.getLsbD m.val = false ∧ ∀ k < m.val, p.getLsbD k = true := by
  revert p m; decide

theorem firstZero_none {p : BitVec 3} : firstZero p = none ↔ p = 0b111#3 := by revert p; decide

/-- As many words as hold the bytes (R22, R394). -/
theorem length_wordsOfBytes (pad : BitVec 24) : ∀ bs : List Byte, (wordsOfBytes pad bs).length = (bs.length + 3) / 4
  | [] => rfl
  | [_] => by simp [wordsOfBytes]
  | [_, _] => by simp [wordsOfBytes]
  | [_, _, _] => by simp [wordsOfBytes]
  | _ :: _ :: _ :: _ :: bs => by
    simp only [wordsOfBytes, List.length_cons, length_wordsOfBytes pad bs]
    omega

end Sys2Proof.Machine
end

