-- ==== Sys2Proof/Laws/State.lean ====
section
/-!
SUPPORT. One lemma per field per state update, true by unfolding, so that no proof unfolds a record update.
-/

namespace Sys2Proof.Machine

@[simp] theorem State.setCtrl_params (s : State) (i : BitVec 2) (c : Ctrl) : (s.setCtrl i c).params = s.params := rfl

@[simp] theorem State.setCtrl_cur (s : State) (i : BitVec 2) (c : Ctrl) : (s.setCtrl i c).cur = s.cur := rfl

@[simp] theorem State.setCtrl_busy (s : State) (i : BitVec 2) (c : Ctrl) : (s.setCtrl i c).busy = s.busy := rfl

@[simp] theorem State.setCtrl_code (s : State) (i : BitVec 2) (c : Ctrl) : (s.setCtrl i c).code = s.code := rfl

@[simp] theorem State.setCtrl_ovr (s : State) (i : BitVec 2) (c : Ctrl) : (s.setCtrl i c).ovr = s.ovr := rfl

@[simp] theorem State.setCtrl_result (s : State) (i : BitVec 2) (c : Ctrl) : (s.setCtrl i c).result = s.result := rfl

@[simp] theorem State.setCtrl_arg0 (s : State) (i : BitVec 2) (c : Ctrl) : (s.setCtrl i c).arg0 = s.arg0 := rfl

@[simp] theorem State.setCtrl_arg1 (s : State) (i : BitVec 2) (c : Ctrl) : (s.setCtrl i c).arg1 = s.arg1 := rfl

@[simp] theorem State.setCtrl_arg2 (s : State) (i : BitVec 2) (c : Ctrl) : (s.setCtrl i c).arg2 = s.arg2 := rfl

@[simp] theorem State.setCtrl_arg3 (s : State) (i : BitVec 2) (c : Ctrl) : (s.setCtrl i c).arg3 = s.arg3 := rfl

@[simp] theorem State.setCtrl_arg4 (s : State) (i : BitVec 2) (c : Ctrl) : (s.setCtrl i c).arg4 = s.arg4 := rfl

@[simp] theorem State.setCtrl_fr (s : State) (i : BitVec 2) (c : Ctrl) : (s.setCtrl i c).fr = s.fr := rfl

@[simp] theorem State.setCtrl_phase (s : State) (i : BitVec 2) (c : Ctrl) : (s.setCtrl i c).phase = s.phase := rfl

@[simp] theorem State.setCtrl_budget (s : State) (i : BitVec 2) (c : Ctrl) : (s.setCtrl i c).budget = s.budget := rfl

@[simp] theorem State.setCtrl_target (s : State) (i : BitVec 2) (c : Ctrl) : (s.setCtrl i c).target = s.target := rfl

@[simp] theorem State.setCtrl_ctrls (s : State) (i : BitVec 2) (c : Ctrl) : (s.setCtrl i c).ctrls = s.ctrls.set i.toNat c i.isLt := rfl

@[simp] theorem State.setCtrl_mem (s : State) (i : BitVec 2) (c : Ctrl) : (s.setCtrl i c).mem = s.mem := rfl

@[simp] theorem State.setCtrl_hostStuck (s : State) (i : BitVec 2) (c : Ctrl) : (s.setCtrl i c).hostStuck = s.hostStuck := rfl

@[simp] theorem State.setCtrl_agenda (s : State) (i : BitVec 2) (c : Ctrl) : (s.setCtrl i c).agenda = s.agenda := rfl

@[simp] theorem State.setCtrl_hostData (s : State) (i : BitVec 2) (c : Ctrl) : (s.setCtrl i c).hostData = s.hostData := rfl

@[simp] theorem State.memWrites_params (s : State) (i : BitVec 2) (off : Nat) (ws : List Word) : (s.memWrites i off ws).params = s.params := rfl

@[simp] theorem State.memWrites_cur (s : State) (i : BitVec 2) (off : Nat) (ws : List Word) : (s.memWrites i off ws).cur = s.cur := rfl

@[simp] theorem State.memWrites_busy (s : State) (i : BitVec 2) (off : Nat) (ws : List Word) : (s.memWrites i off ws).busy = s.busy := rfl

@[simp] theorem State.memWrites_code (s : State) (i : BitVec 2) (off : Nat) (ws : List Word) : (s.memWrites i off ws).code = s.code := rfl

@[simp] theorem State.memWrites_ovr (s : State) (i : BitVec 2) (off : Nat) (ws : List Word) : (s.memWrites i off ws).ovr = s.ovr := rfl

@[simp] theorem State.memWrites_result (s : State) (i : BitVec 2) (off : Nat) (ws : List Word) : (s.memWrites i off ws).result = s.result := rfl

@[simp] theorem State.memWrites_arg0 (s : State) (i : BitVec 2) (off : Nat) (ws : List Word) : (s.memWrites i off ws).arg0 = s.arg0 := rfl

@[simp] theorem State.memWrites_arg1 (s : State) (i : BitVec 2) (off : Nat) (ws : List Word) : (s.memWrites i off ws).arg1 = s.arg1 := rfl

@[simp] theorem State.memWrites_arg2 (s : State) (i : BitVec 2) (off : Nat) (ws : List Word) : (s.memWrites i off ws).arg2 = s.arg2 := rfl

@[simp] theorem State.memWrites_arg3 (s : State) (i : BitVec 2) (off : Nat) (ws : List Word) : (s.memWrites i off ws).arg3 = s.arg3 := rfl

@[simp] theorem State.memWrites_arg4 (s : State) (i : BitVec 2) (off : Nat) (ws : List Word) : (s.memWrites i off ws).arg4 = s.arg4 := rfl

@[simp] theorem State.memWrites_fr (s : State) (i : BitVec 2) (off : Nat) (ws : List Word) : (s.memWrites i off ws).fr = s.fr := rfl

@[simp] theorem State.memWrites_phase (s : State) (i : BitVec 2) (off : Nat) (ws : List Word) : (s.memWrites i off ws).phase = s.phase := rfl

@[simp] theorem State.memWrites_budget (s : State) (i : BitVec 2) (off : Nat) (ws : List Word) : (s.memWrites i off ws).budget = s.budget := rfl

@[simp] theorem State.memWrites_target (s : State) (i : BitVec 2) (off : Nat) (ws : List Word) : (s.memWrites i off ws).target = s.target := rfl

@[simp] theorem State.memWrites_ctrls (s : State) (i : BitVec 2) (off : Nat) (ws : List Word) : (s.memWrites i off ws).ctrls = s.ctrls := rfl

@[simp] theorem State.memWrites_mem (s : State) (i : BitVec 2) (off : Nat) (ws : List Word) : (s.memWrites i off ws).mem = Memory.writeSlice (s.params.msgram i) (s.ctrl i).configuring s.mem off ws := rfl

@[simp] theorem State.memWrites_hostStuck (s : State) (i : BitVec 2) (off : Nat) (ws : List Word) : (s.memWrites i off ws).hostStuck = s.hostStuck := rfl

@[simp] theorem State.memWrites_agenda (s : State) (i : BitVec 2) (off : Nat) (ws : List Word) : (s.memWrites i off ws).agenda = s.agenda := rfl

@[simp] theorem State.memWrites_hostData (s : State) (i : BitVec 2) (off : Nat) (ws : List Word) : (s.memWrites i off ws).hostData = s.hostData := rfl

@[simp] theorem State.finish_params (s : State) (st : Status) (r : Word) : (s.finish st r).params = s.params := rfl

@[simp] theorem State.finish_cur (s : State) (st : Status) (r : Word) : (s.finish st r).cur = s.cur := rfl

@[simp] theorem State.finish_busy (s : State) (st : Status) (r : Word) : (s.finish st r).busy = false := rfl

@[simp] theorem State.finish_code (s : State) (st : Status) (r : Word) : (s.finish st r).code = st := rfl

@[simp] theorem State.finish_ovr (s : State) (st : Status) (r : Word) : (s.finish st r).ovr = s.ovr := rfl

@[simp] theorem State.finish_result (s : State) (st : Status) (r : Word) : (s.finish st r).result = r := rfl

@[simp] theorem State.finish_arg0 (s : State) (st : Status) (r : Word) : (s.finish st r).arg0 = s.arg0 := rfl

@[simp] theorem State.finish_arg1 (s : State) (st : Status) (r : Word) : (s.finish st r).arg1 = s.arg1 := rfl

@[simp] theorem State.finish_arg2 (s : State) (st : Status) (r : Word) : (s.finish st r).arg2 = s.arg2 := rfl

@[simp] theorem State.finish_arg3 (s : State) (st : Status) (r : Word) : (s.finish st r).arg3 = s.arg3 := rfl

@[simp] theorem State.finish_arg4 (s : State) (st : Status) (r : Word) : (s.finish st r).arg4 = s.arg4 := rfl

@[simp] theorem State.finish_fr (s : State) (st : Status) (r : Word) : (s.finish st r).fr = s.fr := rfl

@[simp] theorem State.finish_phase (s : State) (st : Status) (r : Word) : (s.finish st r).phase = .idle := rfl

@[simp] theorem State.finish_budget (s : State) (st : Status) (r : Word) : (s.finish st r).budget = s.budget := rfl

@[simp] theorem State.finish_target (s : State) (st : Status) (r : Word) : (s.finish st r).target = s.target := rfl

@[simp] theorem State.finish_ctrls (s : State) (st : Status) (r : Word) : (s.finish st r).ctrls = s.ctrls := rfl

@[simp] theorem State.finish_mem (s : State) (st : Status) (r : Word) : (s.finish st r).mem = s.mem := rfl

@[simp] theorem State.finish_hostStuck (s : State) (st : Status) (r : Word) : (s.finish st r).hostStuck = s.hostStuck := rfl

@[simp] theorem State.finish_agenda (s : State) (st : Status) (r : Word) : (s.finish st r).agenda = s.agenda := rfl

@[simp] theorem State.finish_hostData (s : State) (st : Status) (r : Word) : (s.finish st r).hostData = s.hostData := rfl

@[simp] theorem State.startPoll_params (s : State) (b : Bool) : (s.startPoll b).params = s.params := rfl

@[simp] theorem State.startPoll_cur (s : State) (b : Bool) : (s.startPoll b).cur = s.cur := rfl

@[simp] theorem State.startPoll_busy (s : State) (b : Bool) : (s.startPoll b).busy = s.busy := rfl

@[simp] theorem State.startPoll_code (s : State) (b : Bool) : (s.startPoll b).code = s.code := rfl

@[simp] theorem State.startPoll_ovr (s : State) (b : Bool) : (s.startPoll b).ovr = s.ovr := rfl

@[simp] theorem State.startPoll_result (s : State) (b : Bool) : (s.startPoll b).result = s.result := rfl

@[simp] theorem State.startPoll_arg0 (s : State) (b : Bool) : (s.startPoll b).arg0 = s.arg0 := rfl

@[simp] theorem State.startPoll_arg1 (s : State) (b : Bool) : (s.startPoll b).arg1 = s.arg1 := rfl

@[simp] theorem State.startPoll_arg2 (s : State) (b : Bool) : (s.startPoll b).arg2 = s.arg2 := rfl

@[simp] theorem State.startPoll_arg3 (s : State) (b : Bool) : (s.startPoll b).arg3 = s.arg3 := rfl

@[simp] theorem State.startPoll_arg4 (s : State) (b : Bool) : (s.startPoll b).arg4 = s.arg4 := rfl

@[simp] theorem State.startPoll_fr (s : State) (b : Bool) : (s.startPoll b).fr = s.fr := rfl

@[simp] theorem State.startPoll_phase (s : State) (b : Bool) : (s.startPoll b).phase = .poll := rfl

@[simp] theorem State.startPoll_budget (s : State) (b : Bool) : (s.startPoll b).budget = s.arg0 := rfl

@[simp] theorem State.startPoll_target (s : State) (b : Bool) : (s.startPoll b).target = b := rfl

@[simp] theorem State.startPoll_ctrls (s : State) (b : Bool) : (s.startPoll b).ctrls = s.ctrls := rfl

@[simp] theorem State.startPoll_mem (s : State) (b : Bool) : (s.startPoll b).mem = s.mem := rfl

@[simp] theorem State.startPoll_hostStuck (s : State) (b : Bool) : (s.startPoll b).hostStuck = s.hostStuck := rfl

@[simp] theorem State.startPoll_agenda (s : State) (b : Bool) : (s.startPoll b).agenda = s.agenda := rfl

@[simp] theorem State.startPoll_hostData (s : State) (b : Bool) : (s.startPoll b).hostData = s.hostData := rfl

@[simp] theorem State.dropTurn_params (s : State) : (s.dropTurn).params = s.params := rfl

@[simp] theorem State.dropTurn_cur (s : State) : (s.dropTurn).cur = s.cur := rfl

@[simp] theorem State.dropTurn_busy (s : State) : (s.dropTurn).busy = s.busy := rfl

@[simp] theorem State.dropTurn_code (s : State) : (s.dropTurn).code = s.code := rfl

@[simp] theorem State.dropTurn_ovr (s : State) : (s.dropTurn).ovr = s.ovr := rfl

@[simp] theorem State.dropTurn_result (s : State) : (s.dropTurn).result = s.result := rfl

@[simp] theorem State.dropTurn_arg0 (s : State) : (s.dropTurn).arg0 = s.arg0 := rfl

@[simp] theorem State.dropTurn_arg1 (s : State) : (s.dropTurn).arg1 = s.arg1 := rfl

@[simp] theorem State.dropTurn_arg2 (s : State) : (s.dropTurn).arg2 = s.arg2 := rfl

@[simp] theorem State.dropTurn_arg3 (s : State) : (s.dropTurn).arg3 = s.arg3 := rfl

@[simp] theorem State.dropTurn_arg4 (s : State) : (s.dropTurn).arg4 = s.arg4 := rfl

@[simp] theorem State.dropTurn_fr (s : State) : (s.dropTurn).fr = s.fr := rfl

@[simp] theorem State.dropTurn_phase (s : State) : (s.dropTurn).phase = s.phase := rfl

@[simp] theorem State.dropTurn_budget (s : State) : (s.dropTurn).budget = s.budget := rfl

@[simp] theorem State.dropTurn_target (s : State) : (s.dropTurn).target = s.target := rfl

@[simp] theorem State.dropTurn_ctrls (s : State) : (s.dropTurn).ctrls = s.ctrls := rfl

@[simp] theorem State.dropTurn_mem (s : State) : (s.dropTurn).mem = s.mem := rfl

@[simp] theorem State.dropTurn_hostStuck (s : State) : (s.dropTurn).hostStuck = s.hostStuck := rfl

@[simp] theorem State.dropTurn_agenda (s : State) : (s.dropTurn).agenda = s.agenda.tail := rfl

@[simp] theorem State.dropTurn_hostData (s : State) : (s.dropTurn).hostData = s.hostData := rfl

end Sys2Proof.Machine
end

