-- ==== Sys2Proof/Laws/Ops.lean ====
section
/-!
SUPPORT. The named operations: what each changes of a controller and of memory, and the instance check's two cases.
-/

namespace Sys2Proof.Machine

/-- The controller just set. -/
@[simp] theorem State.ctrl_setCtrl_self (s : State) (i : BitVec 2) (c : Ctrl) : (s.setCtrl i c).ctrl i = c := by
  simp only [State.ctrl, State.setCtrl, Vector.get_eq_getElem]
  exact Vector.getElem_set_self _

/-- Every other controller. -/
theorem State.ctrl_setCtrl_ne (s : State) {i j : BitVec 2} (c : Ctrl) (h : j ≠ i) : (s.setCtrl i c).ctrl j = s.ctrl j := by
  have hne : i.toNat ≠ j.toNat := fun e => h (BitVec.eq_of_toNat_eq e.symm)
  simp only [State.ctrl, State.setCtrl, Vector.get_eq_getElem]
  exact Vector.getElem_set_ne _ _ (by simpa using hne)

/-- A state's controllers decide every controller. -/
theorem State.ctrl_congr {s t : State} (h : t.ctrls = s.ctrls) (i : BitVec 2) : t.ctrl i = s.ctrl i := by
  simp [State.ctrl, h]

/-- Setting a controller twice. -/
@[simp] theorem State.setCtrl_setCtrl (s : State) (i : BitVec 2) (c d : Ctrl) :
    (s.setCtrl i c).setCtrl i d = s.setCtrl i d := by
  simp [State.setCtrl]

/-- Setting a controller to what it is. -/
@[simp] theorem State.setCtrl_ctrl (s : State) (i : BitVec 2) : s.setCtrl i (s.ctrl i) = s := by
  simp [State.setCtrl, State.ctrl, Vector.get_eq_getElem]

@[simp] theorem State.ctrl_memWrites (s : State) (i j : BitVec 2) (off : Nat) (ws : List Word) :
    (s.memWrites i off ws).ctrl j = s.ctrl j := rfl

@[simp] theorem State.ctrl_finish (s : State) (st : Status) (r : Word) (j : BitVec 2) : (s.finish st r).ctrl j = s.ctrl j := rfl

@[simp] theorem State.ctrl_startPoll (s : State) (b : Bool) (j : BitVec 2) : (s.startPoll b).ctrl j = s.ctrl j := rfl

@[simp] theorem State.ctrl_dropTurn (s : State) (j : BitVec 2) : s.dropTurn.ctrl j = s.ctrl j := rfl

/-- RegWrite sets the controller the register write gives. -/
theorem State.regWrite_eq (s : State) (i : BitVec 2) (r : CtrlReg) (w : Word) :
    s.regWrite i r w = s.setCtrl i ((s.ctrl i).write s.params.fifoDepth r w) := rfl

@[simp] theorem State.ctrl_regWrite_self (s : State) (i : BitVec 2) (r : CtrlReg) (w : Word) :
    (s.regWrite i r w).ctrl i = (s.ctrl i).write s.params.fifoDepth r w := by simp [State.regWrite]

theorem State.ctrl_regWrite_ne (s : State) {i j : BitVec 2} (r : CtrlReg) (w : Word) (h : j ≠ i) :
    (s.regWrite i r w).ctrl j = s.ctrl j := s.ctrl_setCtrl_ne _ h

/-- An error's finish. -/
@[simp] theorem State.fail_eq (s : State) (st : Status) : s.fail st = s.finish st Word.none := rfl

/-- The pending vector the transmit commands read (R59). -/
@[simp] theorem State.pending_eq (s : State) (i : BitVec 2) : s.pending i = (s.ctrl i).trp := by
  simp [State.pending, State.regRead]

/-- The fill level the receive commands read (R56). -/
@[simp] theorem State.fillOf_status (s : State) (i : BitVec 2) (f : FifoId) :
    fillOf (s.regRead i (.rxs f)) = ((s.ctrl i).fifo f).fl := by
  simp [fillOf, State.regRead, Ctrl.read]

/-- The get index the receive commands read (R56). -/
@[simp] theorem State.getOf_status (s : State) (i : BitVec 2) (f : FifoId) :
    getOf (s.regRead i (.rxs f)) = ((s.ctrl i).fifo f).gi := by
  simp [getOf, State.regRead, Ctrl.read]

/-- Reading a word depends on memory and parameters alone. -/
theorem State.memRead_congr {s t : State} (hm : t.mem = s.mem) (hp : t.params = s.params) (i : BitVec 2) (off : Nat) :
    t.memRead i off = s.memRead i off := by simp [State.memRead, hm, hp]

/-- With the gate open, the words written read back in place (R109). -/
theorem State.memRead_memWrites (s : State) (i : BitVec 2) (off : Nat) (ws : List Word)
    (hg : gateOpen (s.ctrl i).configuring off = true) (k : Nat) (h : k < ws.length) :
    (s.memWrites i off ws).memRead i (off + 4 * k) = ws[k] :=
  Memory.readWord_writeSlice _ _ ws s.mem off hg k h

/-- Bytes outside the words written stay. -/
theorem State.readByte_memWrites_outside (s : State) (i : BitVec 2) (off : Nat) (ws : List Word) {a : Nat}
    (h : ¬(s.params.msgram i + off ≤ a ∧ a < s.params.msgram i + off + 4 * ws.length)) :
    (s.memWrites i off ws).mem.readByte a = s.mem.readByte a :=
  Memory.readByte_writeSlice_outside _ _ ws s.mem off h

/-- In the filter regions nothing is written outside CONFIGURING (R109). -/
theorem State.memWrites_closed (s : State) (i : BitVec 2) (off : Nat) (ws : List Word)
    (hc : (s.ctrl i).configuring = false) (h : off + 4 * ws.length ≤ Config.f0Off) : s.memWrites i off ws = s := by
  have : (s.memWrites i off ws).mem = s.mem := by
    simp only [State.memWrites_mem, hc]
    exact Memory.writeSlice_closed _ _ _ _ h
  show { s with mem := (s.memWrites i off ws).mem } = s
  rw [this]

/-- A known instance runs the body (R151). -/
theorem onInst_known {i : BitVec 2} {s : State} (h : i.toNat < s.params.numInst) (body : State → State) :
    onInst i s body = .next (body s) := if_pos h

/-- An unknown instance finishes `Invalid` (R151). -/
theorem onInst_unknown {i : BitVec 2} {s : State} (h : s.params.numInst ≤ i.toNat) (body : State → State) :
    onInst i s body = .next (s.fail .invalid) := if_neg (by omega)

/-- The instance check's answer is always a next state, of the body or of `Invalid`. -/
theorem onInst_cases {i : BitVec 2} {s t : State} {body : State → State} (h : onInst i s body = .next t) :
    (i.toNat < s.params.numInst ∧ t = body s) ∨ (s.params.numInst ≤ i.toNat ∧ t = s.fail .invalid) := by
  unfold onInst at h
  split at h <;> cases h
  · exact .inl ⟨‹_›, rfl⟩
  · exact .inr ⟨by omega, rfl⟩

/-- The instance check always answers a next state. -/
theorem onInst_next (i : BitVec 2) (s : State) (body : State → State) : ∃ t, onInst i s body = .next t := by
  unfold onInst
  split <;> exact ⟨_, rfl⟩

end Sys2Proof.Machine
end

