-- ==== Sys2Proof/Laws/Bus.lean ====
section
/-!
SUPPORT. The host's accesses: each register at its own offset, what an address in a region tells of it, and everything a host
write can do.
-/

namespace Sys2Proof.Machine

/-- A controller register is found at its offset (R48). -/
@[simp] theorem CtrlReg.ofOffset_offset (r : CtrlReg) : CtrlReg.ofOffset r.offset = some r := by
  cases r with
  | rxs f => cases f <;> rfl
  | rxa f => cases f <;> rfl
  | _ => rfl

/-- A sequencer register is found at its offset (R40). -/
@[simp] theorem SeqReg.ofOffset_offset (r : SeqReg) : SeqReg.ofOffset r.offset = some r := by
  cases r with
  | arg k => revert k; decide
  | frData k => revert k; decide
  | _ => rfl

theorem CtrlReg.ofOffset_some {off : Nat} {r : CtrlReg} (h : CtrlReg.ofOffset off = some r) : r.offset = off := by
  have := List.find?_some h; simpa using this

theorem SeqReg.ofOffset_some {off : Nat} {r : SeqReg} (h : SeqReg.ofOffset off = some r) : r.offset = off := by
  have := List.find?_some h; simpa using this

/-- No register lies at a reserved offset (R48). -/
theorem CtrlReg.ofOffset_none {off : Nat} : CtrlReg.ofOffset off = none ↔ ∀ r : CtrlReg, r.offset ≠ off := by
  constructor
  · rintro h r rfl; simp at h
  · intro h
    cases hr : CtrlReg.ofOffset off with
    | none => rfl
    | some r => exact absurd (ofOffset_some hr) (h r)

/-- No register lies at a reserved offset (R40). -/
theorem SeqReg.ofOffset_none {off : Nat} : SeqReg.ofOffset off = none ↔ ∀ r : SeqReg, r.offset ≠ off := by
  constructor
  · rintro h r rfl; simp at h
  · intro h
    cases hr : SeqReg.ofOffset off with
    | none => rfl
    | some r => exact absurd (ofOffset_some hr) (h r)

/-- An instance's slice holds the address (R108). -/
theorem ramOwner_some {p : Params} {a : Nat} {i : BitVec 2} (h : ramOwner p a = some i) :
    i.toNat < p.numInst ∧ p.msgram i ≤ a ∧ a < p.msgram i + p.sliceBytes := by
  have := List.find?_some h
  simpa [inBlock, and_assoc] using this

/-- An instance's register block holds the address (R48). -/
theorem regOwner_some {p : Params} {a : Nat} {i : BitVec 2} (h : regOwner p a = some i) :
    i.toNat < p.numInst ∧ (p.regBase.get i.toFin).toNat ≤ a ∧ a < (p.regBase.get i.toFin).toNat + Config.regBytes := by
  have := List.find?_some h
  simpa [inBlock, and_assoc] using this

/-- An address in message RAM is its slice's base and an offset in the slice (R100, R108). -/
theorem regionOf_ram {p : Params} {a : Nat} {i : BitVec 2} {off : Nat} (h : regionOf p a = .ram i off) :
    i.toNat < p.numInst ∧ a = p.msgram i + off ∧ off < p.sliceBytes := by
  unfold regionOf at h
  split at h
  · cases h
  · split at h
    · cases h
    · split at h
      · rename_i j hj
        injection h with h1 h2
        subst h1
        have := ramOwner_some hj
        omega
      · cases h

/-- An address in a register block is of a known instance (R48). -/
theorem regionOf_reg {p : Params} {a : Nat} {i : BitVec 2} {off : Nat} (h : regionOf p a = .reg i off) :
    i.toNat < p.numInst ∧ a = (p.regBase.get i.toFin).toNat + off ∧ off < Config.regBytes := by
  unfold regionOf at h
  split at h
  · cases h
  · split at h
    · rename_i j hj
      injection h with h1 h2
      subst h1
      have := regOwner_some hj
      omega
    · split at h <;> cases h

/-- Everything a host write can do: a sequencer register's write, a controller register's write, one word of message RAM, or
nothing (R100). -/
theorem State.busWrite_cases (s : State) (addr v : Word) :
    s.busWrite addr v = s ∨ (∃ r, s.busWrite addr v = s.seqWrite r v) ∨
    (∃ i r, s.Known i ∧ s.busWrite addr v = s.regWrite i r v) ∨
    (∃ i off, s.Known i ∧ addr.toNat = s.params.msgram i + off ∧ off < s.params.sliceBytes ∧
      s.busWrite addr v = s.memWrites i off [v]) := by
  unfold State.busWrite
  split
  · split
    · exact .inr (.inl ⟨_, rfl⟩)
    · exact .inl rfl
  · rename_i h
    split
    · exact .inr (.inr (.inl ⟨_, _, (regionOf_reg h).1, rfl⟩))
    · exact .inl rfl
  · rename_i h
    obtain ⟨h1, h2, h3⟩ := regionOf_ram h
    exact .inr (.inr (.inr ⟨_, _, h1, h2, h3, rfl⟩))
  · exact .inl rfl

/-- The access is refused on some ground exactly when it is ill formed (R103, R104, R110). -/
theorem refusedAccess_none {p : Params} {width : Width} {addr : Word} :
    refusedAccess p width addr = none ↔ ¬Refused p width addr := by
  unfold refusedAccess
  split_ifs <;> simp_all

/-- Everything a host access can do: nothing when the host is stuck, sticking the host, or its effect (R516). -/
theorem State.hostAccess_cases (s : State) (width : Width) (addr : Word) (effect : State) :
    (s.hostStuck ≠ none ∧ s.hostAccess width addr effect = s) ∨
    (s.hostStuck = none ∧ Refused s.params width addr ∧
      ∃ e, s.hostAccess width addr effect = { s with hostStuck := some e }) ∨
    (s.hostStuck = none ∧ ¬Refused s.params width addr ∧ s.hostAccess width addr effect = effect) := by
  cases hs : s.hostStuck with
  | some e => exact .inl ⟨by simp, by simp [State.hostAccess, hs]⟩
  | none =>
    right
    cases hr : refusedAccess s.params width addr with
    | none => exact .inr ⟨rfl, refusedAccess_none.1 hr, by simp [State.hostAccess, hs, hr]⟩
    | some e =>
      refine .inl ⟨rfl, ?_, e, by simp [State.hostAccess, hs, hr]⟩
      by_contra hn
      rw [refusedAccess_none.2 hn] at hr; cases hr

/-- A host access either changes at most whether the host is stuck, or is well formed and has its effect. -/
theorem State.hostAccess_stuck_or (s : State) (width : Width) (addr : Word) (effect : State) :
    (∃ h, s.hostAccess width addr effect = { s with hostStuck := h }) ∨
    (¬Refused s.params width addr ∧ s.hostAccess width addr effect = effect) := by
  rcases s.hostAccess_cases width addr effect with ⟨_, h⟩ | ⟨_, _, e, h⟩ | ⟨_, hr, h⟩
  · exact .inl ⟨s.hostStuck, h⟩
  · exact .inl ⟨some e, h⟩
  · exact .inr ⟨hr, h⟩

/-- A well-formed access of a host that is not stuck has its effect (R516). -/
theorem State.hostAccess_accepted {s : State} {width : Width} {addr : Word} (hs : s.hostStuck = none)
    (hr : ¬Refused s.params width addr) (effect : State) : s.hostAccess width addr effect = effect := by
  simp [State.hostAccess, hs, refusedAccess_none.2 hr]

end Sys2Proof.Machine
end

