-- ==== Sys2Proof/Laws/Engine.lean ====
section
/-!
SUPPORT. What acceptance filtering and each engine step can do, said once: the first match, the lengths of the payloads stored,
and for every step its two or three outcomes.
-/

namespace Sys2Proof.Machine

/-- The scan from `k` over `n` elements finds `c` at `j` exactly when `j` is the first that does not skip. -/
theorem firstMatch_some {rule : Nat → Option (BitVec 3)} : ∀ {n k : Nat} {c : BitVec 3} {j : Nat},
    firstMatch rule k n = some (c, j) ↔ k ≤ j ∧ j < k + n ∧ rule j = some c ∧ ∀ l, k ≤ l → l < j → rule l = none
  | 0, k, c, j => by
    simp only [firstMatch]
    constructor
    · intro h; cases h
    · rintro ⟨h1, h2, _⟩; omega
  | n + 1, k, c, j => by
    simp only [firstMatch]
    split
    · rename_i c' hc
      constructor
      · intro h
        cases h
        exact ⟨le_refl _, by omega, hc, fun l h1 h2 => by omega⟩
      · rintro ⟨h1, _, h3, h4⟩
        rcases Nat.eq_or_lt_of_le h1 with rfl | h1
        · rw [hc] at h3; cases h3; rfl
        · rw [h4 k (le_refl _) h1] at hc; cases hc
    · rename_i hn
      rw [firstMatch_some (n := n)]
      constructor
      · rintro ⟨h1, h2, h3, h4⟩
        refine ⟨by omega, by omega, h3, fun l h5 h6 => ?_⟩
        rcases Nat.eq_or_lt_of_le h5 with rfl | h5
        · exact hn
        · exact h4 l h5 h6
      · rintro ⟨h1, h2, h3, h4⟩
        rcases Nat.eq_or_lt_of_le h1 with rfl | h1
        · rw [hn] at h3; cases h3
        · exact ⟨h1, by omega, h3, fun l h5 h6 => h4 l (by omega) h6⟩

/-- The scan finds nothing exactly when every element skips. -/
theorem firstMatch_none {rule : Nat → Option (BitVec 3)} : ∀ {n k : Nat},
    firstMatch rule k n = none ↔ ∀ l, k ≤ l → l < k + n → rule l = none
  | 0, k => by simp only [firstMatch, true_iff]; intro l h1 h2; omega
  | n + 1, k => by
    simp only [firstMatch]
    split
    · rename_i c hc
      constructor
      · intro h; cases h
      · intro h; rw [h k (le_refl _) (by omega)] at hc; cases hc
    · rename_i hn
      rw [firstMatch_none (n := n)]
      constructor
      · intro h l h1 h2
        rcases Nat.eq_or_lt_of_le h1 with rfl | h1
        · exact hn
        · exact h l h1 (by omega)
      · intro h l h1 h2; exact h l (by omega) (by omega)

/-- A payload is at most 64 bytes (R399). -/
theorem lenEff_le (rtr fdf : Bool) (dlc : BitVec 4) : lenEff rtr fdf dlc ≤ 64 := by
  have := d2l_le dlc
  unfold lenEff
  split_ifs <;> omega

/-- The frame sent carries as many bytes as R399 says. -/
theorem State.length_txFrame (s : State) (i : BitVec 2) (m : Fin 3) :
    (s.txFrame i m).bytes.length = lenEff (s.txFrame i m).rtr (s.txFrame i m).fdf (s.txFrame i m).dlc := by
  simp [State.txFrame]

/-- Which frames the bus can bring: R394's constraints, and the range of a standard identifier. -/
theorem busFrame_iff {c : Ctrl} {f : Frame} : busFrame c f = true ↔
    (f.fdf = true → c.fdoe = true) ∧ (f.brs = true → f.fdf = true) ∧ (f.fdf = true → f.rtr = false) ∧
      (f.fdf = false → f.esi = false) ∧ f.bytes.length = lenEff f.rtr f.fdf f.dlc ∧
      (f.xtd = false → f.id.toNat < 2 ^ 11) := by
  simp only [busFrame, Bool.and_eq_true, Bool.or_eq_true, Bool.not_eq_true', decide_eq_true_eq, and_assoc]
  cases f.fdf <;> cases f.brs <;> cases f.xtd <;> simp

/-- The frame the bus brings carries as many bytes as R399 says. -/
theorem busFrame_length {c : Ctrl} {f : Frame} (h : busFrame c f = true) : f.bytes.length = lenEff f.rtr f.fdf f.dlc :=
  (busFrame_iff.1 h).2.2.2.2.1

/-- The words `deliver` writes to a slot (R394). -/
def storedWords (fr : Frame) (a : Accepted) (d : Draws) : List Word :=
  encRx0 fr :: encRx1 fr a.anmf a.fidx d.ts :: wordsOfBytes d.pad fr.bytes

/-- The two header words and the payload's words. -/
theorem length_storedWords (fr : Frame) (a : Accepted) (d : Draws) :
    (storedWords fr a d).length = 2 + (fr.bytes.length + 3) / 4 := by
  simp [storedWords, length_wordsOfBytes]; omega

/-- `deliver`: nothing on discard, the lost flag on a full FIFO, else the slot's words, the indices and the flags (R394). -/
theorem State.deliver_cases (s : State) (i : BitVec 2) (fr : Frame) (d : Draws) :
    ((s.accept i fr d).dest = .discard ∧ s.deliver i fr d = s) ∨
    ∃ f, (s.accept i fr d).dest = .store f ∧
      ((((s.ctrl i).fifo f).fl.toNat = s.params.fifoDepth ∧
          s.deliver i fr d = s.setCtrl i { s.ctrl i with ir := (s.ctrl i).ir.setLost f }) ∨
        (((s.ctrl i).fifo f).fl.toNat ≠ s.params.fifoDepth ∧
          s.deliver i fr d =
            (s.memWrites i (rxslot s.params f ((s.ctrl i).fifo f).pi.toNat) (storedWords fr (s.accept i fr d) d)).setCtrl i
              { (s.ctrl i).setFifo f (((s.ctrl i).fifo f).push s.params.fifoDepth) with
                ir := (s.ctrl i).ir.stored s.params.fifoDepth f (((s.ctrl i).fifo f).push s.params.fifoDepth) })) := by
  cases h : (s.accept i fr d).dest with
  | discard => left; exact ⟨rfl, by simp [State.deliver, h]⟩
  | store f =>
    right
    refine ⟨f, rfl, ?_⟩
    by_cases hf : ((s.ctrl i).fifo f).fl.toNat = s.params.fifoDepth
    · left; exact ⟨hf, by simp [State.deliver, h, State.store, hf]⟩
    · right; exact ⟨hf, by simp [State.deliver, h, State.store, hf, storedWords]⟩

/-- A transmit completion: not enabled; in loopback the frame is delivered; else it changes the controller or nothing (R392). -/
theorem State.txStep_cases (s : State) (i : BitVec 2) (m : Fin 3) (ok : Bool) (d : Draws) :
    (s.txEnabled i m = false ∧ s.txStep i m ok d = s) ∨
    (s.txEnabled i m = true ∧
      (((s.ctrl i).loopback = true ∧
          s.txStep i m ok d = (s.setCtrl i ((s.ctrl i).complete m true)).deliver i (s.txFrame i m) d) ∨
        ((s.ctrl i).loopback = false ∧
          s.txStep i m ok d = (if ok = true then s.setCtrl i ((s.ctrl i).complete m true)
            else if (s.ctrl i).dar = true then s.setCtrl i ((s.ctrl i).complete m false) else s)))) := by
  unfold State.txStep
  cases s.txEnabled i m <;> cases (s.ctrl i).loopback <;> simp

/-- A receive step: not enabled, or the frame is delivered (R394). -/
theorem State.rxStep_cases (s : State) (i : BitVec 2) (f : Frame) (d : Draws) :
    s.rxStep i f d = s ∨ (s.running i = true ∧ busFrame (s.ctrl i) f = true ∧ s.rxStep i f d = s.deliver i f d) := by
  unfold State.rxStep
  split
  · rename_i h
    simp only [Bool.and_eq_true] at h
    exact .inr ⟨h.1.1, h.2, rfl⟩
  · exact .inl rfl

/-- A synchronisation step sets INIT_ACK to INIT_REQ where it is enabled (R390). -/
theorem State.syncStep_eq (s : State) (i : BitVec 2) :
    s.syncStep i = if s.clocked i then s.setCtrl i { s.ctrl i with initAck := (s.ctrl i).initReq } else s := by
  unfold State.syncStep
  by_cases h : (s.ctrl i).initReq = (s.ctrl i).initAck
  · have : ({ s.ctrl i with initAck := (s.ctrl i).initReq } : Ctrl) = s.ctrl i := by rw [h]
    rw [this, s.setCtrl_ctrl]; simp [h]
  · simp [h]

/-- Instance `i` runs: it exists, its clock runs, and INIT is not acknowledged (R18, R25). -/
theorem State.running_iff (s : State) (i : BitVec 2) :
    s.running i = true ↔ s.Known i ∧ s.params.clockRunning.get i.toFin = true ∧ (s.ctrl i).initAck = false := by
  simp [State.running, State.clocked, Ctrl.operating, and_assoc]

end Sys2Proof.Machine
end

