-- ==== Sys2Proof/Laws/Exec.lean ====
section
/-!
SUPPORT. What a command can do, said once: which fields it may change, that its instance's controller changes only by register
writes, that memory changes only by one run of word writes in its instance's slice, and how it ends.
-/

namespace Sys2Proof.Machine

/-- The controller `c'` comes from `c` by register writes, FIFO_DEPTH `n`. -/
def Ctrl.Written (n : Nat) (c c' : Ctrl) : Prop :=
  ∃ l : List (CtrlReg × Word), c' = l.foldl (fun x e => x.write n e.1 e.2) c

theorem Ctrl.Written.refl (n : Nat) (c : Ctrl) : Ctrl.Written n c c := ⟨[], rfl⟩

theorem Ctrl.Written.one (n : Nat) (c : Ctrl) (r : CtrlReg) (w : Word) : Ctrl.Written n c (c.write n r w) := ⟨[(r, w)], rfl⟩

theorem Ctrl.Written.two (n : Nat) (c : Ctrl) (r r' : CtrlReg) (w w' : Word) :
    Ctrl.Written n c ((c.write n r w).write n r' w') := ⟨[(r, w), (r', w')], rfl⟩

/-- What every register write keeps, a run of them keeps. -/
theorem Ctrl.Written.keeps {n : Nat} {c c' : Ctrl} (h : Ctrl.Written n c c') (P : Ctrl → Prop)
    (hw : ∀ (x : Ctrl) (r : CtrlReg) (w : Word), P x → P (x.write n r w)) (hc : P c) : P c' := by
  obtain ⟨l, rfl⟩ := h
  induction l generalizing c with
  | nil => exact hc
  | cons e l ih => exact ih (hw c e.1 e.2 hc)

/-- Two runs of word writes, the second where the first ends, are one. -/
theorem Memory.writeSlice_append (base : Nat) (cfg : Bool) (ws vs : List Word) : ∀ (m : Memory) (off : Nat),
    writeSlice base cfg (writeSlice base cfg m off ws) (off + 4 * ws.length) vs = writeSlice base cfg m off (ws ++ vs) := by
  induction ws with
  | nil => intro m off; simp [writeSlice]
  | cons w ws ih =>
    intro m off
    simp only [writeSlice, List.cons_append, List.length_cons]
    rw [← ih, show off + 4 * (ws.length + 1) = off + 4 + 4 * ws.length by omega]

/-- A command of instance `i` takes `s` to `t`: what may change, and how. -/
structure CommandEffect (i : BitVec 2) (s t : State) : Prop where
  /-- The fields a command may change are these; every other field stays. -/
  frame : t = { s with
    code := t.code, result := t.result, busy := t.busy, phase := t.phase, budget := t.budget, target := t.target, fr := t.fr,
    ctrls := t.ctrls, mem := t.mem }
  /-- Other instances' controllers stay. -/
  others : ∀ j : BitVec 2, j ≠ i → t.ctrl j = s.ctrl j
  /-- The instance's controller changes by register writes. -/
  written : Ctrl.Written s.params.fifoDepth (s.ctrl i) (t.ctrl i)
  /-- Memory changes by one run of word writes within the instance's slice, behind the gate as it stood before. -/
  slice : t.mem = s.mem ∨ s.Known i ∧ ∃ (off : Nat) (ws : List Word), off + 4 * ws.length ≤ s.params.sliceBytes ∧
    t.mem = Memory.writeSlice (s.params.msgram i) (s.ctrl i).configuring s.mem off ws

/-- How a command ends: finished, or waiting on its target (R155). -/
def CommandEnd (i : Instr) (s t : State) : Prop :=
  (t.busy = false ∧ t.phase = .idle) ∨
    (t.busy = s.busy ∧ t.phase = .poll ∧ s.Known i.inst ∧
      ((i = .enterConfig i.inst ∧ t.target = true) ∨ (i = .leaveConfig i.inst ∧ t.target = false)))

theorem CommandEffect.finish {i : BitVec 2} {s t : State} (h : CommandEffect i s t) (st : Status) (r : Word) :
    CommandEffect i s (t.finish st r) where
  frame := by
    have := h.frame
    rw [this]; rfl
  others := h.others
  written := h.written
  slice := h.slice

theorem CommandEffect.startPoll {i : BitVec 2} {s t : State} (h : CommandEffect i s t) (b : Bool) :
    CommandEffect i s (t.startPoll b) where
  frame := by
    have := h.frame
    rw [this]; rfl
  others := h.others
  written := h.written
  slice := h.slice

theorem CommandEffect.refl (i : BitVec 2) (s : State) : CommandEffect i s s where
  frame := rfl
  others _ _ := rfl
  written := Ctrl.Written.refl _ _
  slice := .inl rfl

theorem CommandEffect.regWrite {i : BitVec 2} {s t : State} (h : CommandEffect i s t) (r : CtrlReg) (w : Word) :
    CommandEffect i s (t.regWrite i r w) where
  frame := by
    have := h.frame
    rw [this]; rfl
  others j hj := (t.ctrl_regWrite_ne r w hj).trans (h.others j hj)
  written := by
    obtain ⟨l, hl⟩ := h.written
    refine ⟨l ++ [(r, w)], ?_⟩
    have hp : t.params = s.params := by rw [h.frame]
    simp [hl, hp]
  slice := h.slice

theorem CommandEffect.memWrites {i : BitVec 2} {s : State} (hk : s.Known i) {off : Nat} {ws : List Word}
    (hr : off + 4 * ws.length ≤ s.params.sliceBytes) : CommandEffect i s (s.memWrites i off ws) where
  frame := rfl
  others _ _ := rfl
  written := Ctrl.Written.refl _ _
  slice := .inr ⟨hk, off, ws, hr, rfl⟩

theorem CommandEffect.setFr {i : BitVec 2} {s t : State} (h : CommandEffect i s t) (x : FrameRegs) :
    CommandEffect i s { t with fr := x } where
  frame := by
    have := h.frame
    rw [this]
  others := h.others
  written := h.written
  slice := h.slice

/-- Two runs of one word, the second where the first ends, are one run. -/
theorem Memory.writeSlice_replicate (base : Nat) (cfg : Bool) (m : Memory) (w : Word) (a b off off' : Nat)
    (h : off' = off + 4 * a) :
    writeSlice base cfg (writeSlice base cfg m off (List.replicate a w)) off' (List.replicate b w) =
      writeSlice base cfg m off (List.replicate (a + b) w) := by
  have := writeSlice_append base cfg (List.replicate a w) (List.replicate b w) m off
  rw [List.length_replicate, List.replicate_append_replicate] at this
  rw [h, this]

/-- FILTER_INIT's two runs of zeros are one run of 44 (R107, R260). -/
theorem State.filterZero_eq (s : State) (i : BitVec 2) :
    (s.memWrites i (sfl 0) (List.replicate Config.stdMax 0)).memWrites i (efl 0) (List.replicate (2 * Config.extMax) 0) =
      s.memWrites i 0 (List.replicate (Config.stdMax + 2 * Config.extMax) 0) := by
  have := Memory.writeSlice_replicate (s.params.msgram i) (s.ctrl i).configuring s.mem 0 Config.stdMax (2 * Config.extMax)
    (sfl 0) (efl 0) rfl
  simp only [State.memWrites] at this ⊢
  exact congrArg (fun m => { s with mem := m }) this

/-- The filter regions lie in the slice (R107). -/
theorem f0Off_le_sliceBytes (p : Params) : Config.f0Off ≤ p.sliceBytes := by
  simp only [Params.sliceBytes, Params.txbOff, Params.txeOff, Params.f1Off]; omega

/-- A transmit slot lies in the slice (R107). -/
theorem txslot_le (p : Params) (m : Fin 3) : txslot p m.val + 72 ≤ p.sliceBytes := by
  have := m.isLt
  simp only [txslot, Params.sliceBytes, Config.slotBytes, Config.numTxbuf]; omega

/-- The header and at most 16 data words (R302). -/
theorem length_txWords (r : FrameRegs) (d : BitVec 4) : (txWords r d).length = 2 + min (ceil4 r.len.toNat) 16 := by
  simp [txWords]; omega

/-- What a command can do, whatever the command (R423, R425). -/
theorem exec_effect {i : Instr} {s t : State} (h : exec i s = .next t) : CommandEffect i.inst s t := by
  have fin : ∀ (n : BitVec 2) (st : Status) (r : Word), CommandEffect n s (s.finish st r) :=
    fun n st r => (CommandEffect.refl n s).finish st r
  have fin' : ∀ (n : BitVec 2) (st : Status), CommandEffect n s (s.fail st) := fun n st => fin n st _
  cases i <;> simp only [exec, Instr.inst] at h ⊢
  case enterConfig n =>
    rcases onInst_cases h with ⟨_, rfl⟩ | ⟨_, rfl⟩
    · simp only [State.enterConfig]; split
      · exact fin _ _ _
      · exact ((CommandEffect.refl n s).regWrite _ _).startPoll _
    · exact fin' _ _
  case leaveConfig n =>
    rcases onInst_cases h with ⟨_, rfl⟩ | ⟨_, rfl⟩
    · simp only [State.leaveConfig]; split
      · exact fin _ _ _
      · exact ((CommandEffect.refl n s).regWrite _ _).startPoll _
    · exact fin' _ _
  case cfgMode n =>
    rcases onInst_cases h with ⟨_, rfl⟩ | ⟨_, rfl⟩
    · simp only [State.cfgMode]; split
      · exact (((CommandEffect.refl n s).regWrite _ _).regWrite _ _).finish _ _
      · exact fin _ _ _
    · exact fin' _ _
  case setNominalTiming n =>
    rcases onInst_cases h with ⟨_, rfl⟩ | ⟨_, rfl⟩
    · exact ((CommandEffect.refl n s).regWrite _ _).finish _ _
    · exact fin' _ _
  case setFdTiming n =>
    rcases onInst_cases h with ⟨_, rfl⟩ | ⟨_, rfl⟩
    · exact ((CommandEffect.refl n s).regWrite _ _).finish _ _
    · exact fin' _ _
  case filterInit n =>
    rcases onInst_cases h with ⟨hk, rfl⟩ | ⟨_, rfl⟩
    · simp only [State.filterInit, State.filterZero_eq]; split
      · exact fin' _ _
      · refine ((CommandEffect.memWrites hk ?_).regWrite _ _).finish _ _
        have := f0Off_le_sliceBytes s.params
        simp only [List.length_replicate]
        simp only [Config.f0Off, Config.eflOff, Config.stdMax, Config.extMax] at this ⊢
        omega
    · exact fin' _ _
  case setStdFilter n =>
    rcases onInst_cases h with ⟨hk, rfl⟩ | ⟨_, rfl⟩
    · simp only [State.setStdFilter]; split
      · exact fin' _ _
      · refine (CommandEffect.memWrites hk ?_).finish _ _
        rename_i hlt
        have := f0Off_le_sliceBytes s.params
        simp only [Config.f0Off, Config.eflOff, Config.stdMax, Config.extMax] at this
        simp only [Ctrl.effLSS, Config.stdMax, not_le, lt_min_iff] at hlt
        simp only [sfl, List.length_cons, List.length_nil]
        omega
    · exact fin' _ _
  case setExtFilter n =>
    rcases onInst_cases h with ⟨hk, rfl⟩ | ⟨_, rfl⟩
    · simp only [State.setExtFilter]; split
      · exact fin' _ _
      · refine (CommandEffect.memWrites hk ?_).finish _ _
        rename_i hlt
        have := f0Off_le_sliceBytes s.params
        simp only [Config.f0Off, Config.eflOff, Config.stdMax, Config.extMax] at this
        simp only [Ctrl.effLSE, Config.extMax, not_le, lt_min_iff] at hlt
        simp only [efl, Config.eflOff, Config.stdMax, List.length_cons, List.length_nil]
        omega
    · exact fin' _ _
  case availableTx n =>
    rcases onInst_cases h with ⟨_, rfl⟩ | ⟨_, rfl⟩
    · exact fin _ _ _
    · exact fin' _ _
  case transmit n =>
    rcases onInst_cases h with ⟨hk, rfl⟩ | ⟨_, rfl⟩
    · simp only [State.transmit]; split
      · exact fin' _ _
      · split
        · exact fin' _ _
        · refine ((CommandEffect.memWrites hk ?_).regWrite _ _).finish _ _
          rw [length_txWords]
          have := txslot_le s.params ‹Fin 3›
          omega
    · exact fin' _ _
  case availableRx n =>
    rcases onInst_cases h with ⟨_, rfl⟩ | ⟨_, rfl⟩
    · simp only [State.availableRx]; split
      · exact fin' _ _
      · exact fin _ _ _
    · exact fin' _ _
  case receive n =>
    rcases onInst_cases h with ⟨_, rfl⟩ | ⟨_, rfl⟩
    · simp only [State.receive]; split
      · exact fin' _ _
      · split
        · exact fin' _ _
        · split
          · exact ((((CommandEffect.refl n s).setFr _).regWrite _ _).finish _ _)
          · exact ((CommandEffect.refl n s).setFr _).finish _ _
    · exact fin' _ _
  case fifoRelease n =>
    rcases onInst_cases h with ⟨_, rfl⟩ | ⟨_, rfl⟩
    · simp only [State.fifoRelease]; split
      · exact fin' _ _
      · split
        · exact fin' _ _
        · exact ((CommandEffect.refl n s).regWrite _ _).finish _ _
    · exact fin' _ _
  case enableIrq n =>
    rcases onInst_cases h with ⟨_, rfl⟩ | ⟨_, rfl⟩
    · exact ((CommandEffect.refl n s).regWrite _ _).finish _ _
    · exact fin' _ _
  case disableIrq n =>
    rcases onInst_cases h with ⟨_, rfl⟩ | ⟨_, rfl⟩
    · exact ((CommandEffect.refl n s).regWrite _ _).finish _ _
    · exact fin' _ _
  case lengthToDlc n =>
    unfold execLengthToDlc at h
    split at h <;> cases h
    · exact fin' _ _
    · exact fin _ _ _
  case dlcToLength n =>
    unfold execDlcToLength at h
    split at h <;> cases h
    · exact fin' _ _
    · exact fin _ _ _

/-- How a command ends (R155): every one but a waiting ENTER_CONFIG or LEAVE_CONFIG is finished. -/
theorem exec_end {i : Instr} {s t : State} (h : exec i s = .next t) : CommandEnd i s t := by
  cases i <;> simp only [exec] at h
  case enterConfig n =>
    rcases onInst_cases h with ⟨hk, rfl⟩ | ⟨_, rfl⟩
    · simp only [State.enterConfig]; split
      · exact .inl ⟨rfl, rfl⟩
      · exact .inr ⟨rfl, rfl, hk, .inl ⟨rfl, rfl⟩⟩
    · exact .inl ⟨rfl, rfl⟩
  case leaveConfig n =>
    rcases onInst_cases h with ⟨hk, rfl⟩ | ⟨_, rfl⟩
    · simp only [State.leaveConfig]; split
      · exact .inl ⟨rfl, rfl⟩
      · exact .inr ⟨rfl, rfl, hk, .inr ⟨rfl, rfl⟩⟩
    · exact .inl ⟨rfl, rfl⟩
  case lengthToDlc n =>
    unfold execLengthToDlc at h
    split at h <;> cases h <;> exact .inl ⟨rfl, rfl⟩
  case dlcToLength n =>
    unfold execDlcToLength at h
    split at h <;> cases h <;> exact .inl ⟨rfl, rfl⟩
  all_goals
    rcases onInst_cases h with ⟨_, rfl⟩ | ⟨_, rfl⟩
    · refine .inl ?_
      simp only [State.cfgMode, State.setNominalTiming, State.setFdTiming, State.filterInit, State.setStdFilter,
        State.setExtFilter, State.availableTx, State.transmit, State.sendFrame, State.availableRx, State.receive,
        State.fifoRelease, State.enableIrq, State.disableIrq]
      (repeat' split) <;> exact ⟨rfl, rfl⟩
    · exact .inl ⟨rfl, rfl⟩

/-- Every command answers a next state in every state (R440: no traps). -/
theorem exec_next (i : Instr) (s : State) : ∃ t, exec i s = .next t := by
  cases i <;> simp only [exec]
  case lengthToDlc n => unfold execLengthToDlc; split <;> exact ⟨_, rfl⟩
  case dlcToLength n => unfold execDlcToLength; split <;> exact ⟨_, rfl⟩
  all_goals exact onInst_next _ _ _

end Sys2Proof.Machine
end

