-- ==== Sys2Proof/Laws/PerInstr.lean ====
section
/-!
SUPPORT. The family of statements made per instruction: the table row a command's word falls under (R153).
-/

namespace Sys2Proof.Laws.TableRow

/-- The `match` word of the command's row of the opcode table (R153). -/
def row : Instr → BitVec 32
  | .enterConfig _ => 0x00000001#32
  | .leaveConfig _ => 0x00000002#32
  | .cfgMode _ => 0x00000003#32
  | .setNominalTiming _ => 0x00000004#32
  | .setFdTiming _ => 0x00000005#32
  | .filterInit _ => 0x00000006#32
  | .setStdFilter _ => 0x00000007#32
  | .setExtFilter _ => 0x00000008#32
  | .availableTx _ => 0x00000009#32
  | .transmit _ => 0x0000000A#32
  | .availableRx _ => 0x0000000B#32
  | .receive _ => 0x0000000C#32
  | .fifoRelease _ => 0x0000000D#32
  | .enableIrq _ => 0x0000000E#32
  | .disableIrq _ => 0x0000000F#32
  | .lengthToDlc _ => 0x00000010#32
  | .dlcToLength _ => 0x00000011#32

/-- The command's word is its row's under the table's mask, its bits 6:5 are INST, and it decodes to the command. -/
def Statement (i : Instr) : Prop :=
  (encode i &&& 0xFFFFFF9F#32) = row i ∧ (encode i).extractLsb' 5 2 = i.inst ∧ decode (encode i) = .ok i

theorem enterConfig (inst : BitVec 2) : Statement (.enterConfig inst) := by unfold Statement; revert inst; decide

theorem leaveConfig (inst : BitVec 2) : Statement (.leaveConfig inst) := by unfold Statement; revert inst; decide

theorem cfgMode (inst : BitVec 2) : Statement (.cfgMode inst) := by unfold Statement; revert inst; decide

theorem setNominalTiming (inst : BitVec 2) : Statement (.setNominalTiming inst) := by unfold Statement; revert inst; decide

theorem setFdTiming (inst : BitVec 2) : Statement (.setFdTiming inst) := by unfold Statement; revert inst; decide

theorem filterInit (inst : BitVec 2) : Statement (.filterInit inst) := by unfold Statement; revert inst; decide

theorem setStdFilter (inst : BitVec 2) : Statement (.setStdFilter inst) := by unfold Statement; revert inst; decide

theorem setExtFilter (inst : BitVec 2) : Statement (.setExtFilter inst) := by unfold Statement; revert inst; decide

theorem availableTx (inst : BitVec 2) : Statement (.availableTx inst) := by unfold Statement; revert inst; decide

theorem transmit (inst : BitVec 2) : Statement (.transmit inst) := by unfold Statement; revert inst; decide

theorem availableRx (inst : BitVec 2) : Statement (.availableRx inst) := by unfold Statement; revert inst; decide

theorem receive (inst : BitVec 2) : Statement (.receive inst) := by unfold Statement; revert inst; decide

theorem fifoRelease (inst : BitVec 2) : Statement (.fifoRelease inst) := by unfold Statement; revert inst; decide

theorem enableIrq (inst : BitVec 2) : Statement (.enableIrq inst) := by unfold Statement; revert inst; decide

theorem disableIrq (inst : BitVec 2) : Statement (.disableIrq inst) := by unfold Statement; revert inst; decide

theorem lengthToDlc (inst : BitVec 2) : Statement (.lengthToDlc inst) := by unfold Statement; revert inst; decide

theorem dlcToLength (inst : BitVec 2) : Statement (.dlcToLength inst) := by unfold Statement; revert inst; decide

end Sys2Proof.Laws.TableRow
end

