-- ==== Sys2Proof/Laws/Step.lean ====
section
/-!
SUPPORT. One step by the shape of the agenda and by the sequencer's phase, and what decoding a word tells of it.
-/

namespace Sys2Proof.Machine

/-- With an entry on the agenda, its agent steps in the state without it. -/
theorem step_cons {s : State} {t : Turn} {rest : List Turn} (h : s.agenda = t :: rest) :
    step s = ({ s with agenda := rest } : State).turnStep t := by
  simp [step, State.nextTurn, State.dropTurn, h]

/-- With an empty agenda the sequencer steps (log 2). -/
theorem step_nil {s : State} (h : s.agenda = []) : step s = s.sequencerStep := by
  have : s.dropTurn = s := by
    unfold State.dropTurn
    rw [h, List.tail_nil, ← h]
  simp [step, State.nextTurn, h, this, State.turnStep]

/-- The state the agent steps in differs from the state before only in the agenda. -/
theorem State.dropTurn_eq (s : State) : s.dropTurn = { s with agenda := s.dropTurn.agenda } := rfl

/-- The sequencer's step by its phase (R155). -/
theorem State.sequencerStep_idle {s : State} (h : s.phase = .idle) : s.sequencerStep = .next s := by
  simp [State.sequencerStep, h]

theorem State.sequencerStep_poll {s : State} (h : s.phase = .poll) : s.sequencerStep = .next s.pollStep := by
  simp [State.sequencerStep, h]

theorem State.sequencerStep_exec {s : State} {i : Instr} (h : s.phase = .exec) (hd : decode s.cur = .ok i) :
    s.sequencerStep = exec i s := by
  simp [State.sequencerStep, h, State.execStep, hd]

theorem State.sequencerStep_reject {s : State} {e : Reject} (h : s.phase = .exec) (hd : decode s.cur = .error e) :
    s.sequencerStep = .next (s.fail .invalid) := by
  simp [State.sequencerStep, h, State.execStep, hd]

/-- The sequencer's step always answers a next state (R440). -/
theorem State.sequencerStep_next (s : State) : ∃ t, s.sequencerStep = .next t := by
  unfold State.sequencerStep State.execStep
  split
  · exact ⟨_, rfl⟩
  · split
    · exact exec_next _ _
    · exact ⟨_, rfl⟩
  · exact ⟨_, rfl⟩

/-- A decoded word names its own INST field (R150). -/
theorem decode_inst {w : BitVec 32} {i : Instr} (h : decode w = .ok i) : i.inst = instField w := by
  unfold decode at h
  split at h
  · cases h
  · unfold decodeOp at h
    split at h <;> cases h <;> rfl

/-- The POLL step's three outcomes (R223). -/
theorem State.pollStep_cases (s : State) :
    ((s.ctrl (instField s.cur)).initAck = s.target ∧ s.pollStep = s.finish .ok 0) ∨
    ((s.ctrl (instField s.cur)).initAck ≠ s.target ∧ s.budget = 0#32 ∧ s.pollStep = s.finish .timeout Word.none) ∨
    ((s.ctrl (instField s.cur)).initAck ≠ s.target ∧ s.budget ≠ 0#32 ∧
      s.pollStep = { s with budget := s.budget - 1#32 }) := by
  have hb : (s.regRead (instField s.cur) .cccr).getLsbD 0 = (s.ctrl (instField s.cur)).initAck :=
    (Ctrl.cccrWord_bits _).1
  unfold State.pollStep
  rw [hb]
  by_cases h1 : (s.ctrl (instField s.cur)).initAck = s.target
  · exact .inl ⟨h1, by simp [h1]⟩
  · by_cases h2 : s.budget = 0#32
    · exact .inr (.inl ⟨h1, h2, by simp [h1, h2]⟩)
    · exact .inr (.inr ⟨h1, h2, by simp [h1, h2]⟩)

end Sys2Proof.Machine
end

