-- ==== Sys2Proof/Tests/Slice0.lean ====
section
/-!
SUPPORT. Tests: well-formedness, words written out from the encoding tables, one-step vectors of 95_test_vectors.md, and a
witness for every statement that has hypotheses. Expected values are the spec's, with the section in each comment.
-/

namespace Sys2Proof.Tests

open Sys2Proof.Machine

/-- The default parameters with the two OPEN ones fixed: SEQ_BASE 0x50000000, every clock running. -/
def testParams : Params := { Params.default with seqBase := 0x50000000#32, clockRunning := Vector.replicate 4 true }

/-- The reset state with those parameters. -/
def start : State := { State.reset with params := testParams }

/-- Instance 0 after ENTER_CONFIG. -/
def configuring : Ctrl := { Ctrl.reset with cce := true }

/-- Instance 0 after LEAVE_CONFIG. -/
def operating : Ctrl := { Ctrl.reset with initReq := false, initAck := false }

/-- `start` with instance 0's controller `c` and the next turn `t`. -/
def turned (c : Ctrl) (t : Turn) : State := { start.setCtrl 0 c with agenda := [t] }

/-- A command word accepted, instance 0's controller `c`, arguments `a0` to `a4`. -/
def running (c : Ctrl) (w a0 a1 a2 a3 a4 : Word) : State :=
  { turned c .sequencer with
    cur := w, busy := true, phase := .exec, arg0 := a0, arg1 := a1, arg2 := a2, arg3 := a3, arg4 := a4 }

/-- A check of the next state; false where the step stops. -/
def after (o : Host.Outcome State Fault Refusal) (p : State → Bool) : Bool :=
  match o with
  | .next t => p t
  | .fault _ => false
  | .refused _ => false

/-- No draw in use. -/
def noDraws : Draws := { ts := 0, fidx := 0, dest := .discard, pad := 0 }

/-- A standard data frame with identifier `id` and payload `bytes` of DLC `dlc`. -/
def stdFrame (id : BitVec 29) (dlc : BitVec 4) (bytes : List Byte) : Frame :=
  { xtd := false, rtr := false, id := id, fdf := false, brs := false, esi := false, dlc := dlc, bytes := bytes }

/-! ## Well-formedness -/

/-- An unknown instance is ill formed (R151); NUM_INST is 3 by default (R9). -/
theorem test_unknown_instance_ill_formed : Instr.wf Params.default (.enterConfig 3) = false := by decide

theorem test_known_instance_well_formed : Instr.wf Params.default (.transmit 2) = true := by decide

/-- The codec ignores INST (R151). -/
theorem test_codec_ignores_instance : Instr.wf Params.default (.lengthToDlc 3) = true := by decide

/-! ## Decoding: words written out from R150 and R153 as RSV, INST, OP -/

theorem test_decode_config_words :
    decode 0b0000000000000000000000000_00_00001#32 = .ok (.enterConfig 0) ∧
    decode 0b0000000000000000000000000_01_00010#32 = .ok (.leaveConfig 1) ∧
    decode 0b0000000000000000000000000_10_00011#32 = .ok (.cfgMode 2) ∧
    decode 0b0000000000000000000000000_11_00100#32 = .ok (.setNominalTiming 3) ∧
    decode 0b0000000000000000000000000_00_00101#32 = .ok (.setFdTiming 0) := by decide

theorem test_decode_filter_words :
    decode 0b0000000000000000000000000_01_00110#32 = .ok (.filterInit 1) ∧
    decode 0b0000000000000000000000000_10_00111#32 = .ok (.setStdFilter 2) ∧
    decode 0b0000000000000000000000000_11_01000#32 = .ok (.setExtFilter 3) := by decide

theorem test_decode_transmit_receive_words :
    decode 0b0000000000000000000000000_00_01001#32 = .ok (.availableTx 0) ∧
    decode 0b0000000000000000000000000_01_01010#32 = .ok (.transmit 1) ∧
    decode 0b0000000000000000000000000_10_01011#32 = .ok (.availableRx 2) ∧
    decode 0b0000000000000000000000000_10_01100#32 = .ok (.receive 2) ∧
    decode 0b0000000000000000000000000_00_01101#32 = .ok (.fifoRelease 0) := by decide

theorem test_decode_irq_codec_words :
    decode 0b0000000000000000000000000_01_01110#32 = .ok (.enableIrq 1) ∧
    decode 0b0000000000000000000000000_10_01111#32 = .ok (.disableIrq 2) ∧
    decode 0b0000000000000000000000000_11_10000#32 = .ok (.lengthToDlc 3) ∧
    decode 0b0000000000000000000000000_00_10001#32 = .ok (.dlcToLength 0) := by decide

/-- L2.8: the reserved words, the reserved bits looked at before OP (R155). -/
theorem test_decode_rejects :
    decode 0x00000000#32 = .error (.reservedOp 0) ∧ decode 0x00000012#32 = .error (.reservedOp 0x12) ∧
    decode 0x0000001F#32 = .error (.reservedOp 0x1F) ∧ decode 0x00000080#32 = .error .reservedBits ∧
    decode 0x8000000A#32 = .error .reservedBits := by decide

/-- A word above the table row's bits is not read. -/
theorem test_decode_table_word : decodeTableWord 32 0x4C = some (.receive 2) ∧ decodeTableWord 32 0x12 = none := by decide

/-! ## One step per command -/

/-- L1.2, L2.1: 48 gives 14, 9 and 40 are `Invalid` with RESULT NONE. -/
theorem test_length_to_dlc :
    after (step (running operating 0x10#32 48 0 0 0 0)) (fun t => t.result == 14#32 && t.code == .ok && t.phase == .idle) ∧
    after (step (running operating 0x10#32 9 0 0 0 0)) (fun t => t.seqRead .stat == 0x300#32 && t.result == 0xFFFFFFFF#32) ∧
    after (step (running operating 0x70#32 40 0 0 0 0)) (fun t => t.code == .invalid) := by decide

/-- L2.1: 13 gives 32; 0x80000009 is not masked. -/
theorem test_dlc_to_length :
    after (step (running operating 0x11#32 13 0 0 0 0)) (fun t => t.result == 32#32 && t.code == .ok) ∧
    after (step (running operating 0x11#32 0x80000009#32 0 0 0 0)) (fun t => t.code == .invalid) := by decide

/-- L1.5: from reset ENTER_CONFIG writes CCCR 3 and waits; a second one finishes `Ok` at EXEC. -/
theorem test_enter_config :
    after (step (running Ctrl.reset 0x01#32 10 0 0 0 0))
      (fun t => t.regRead 0 .cccr == 3#32 && t.phase == .poll && t.budget == 10#32 && t.target && t.busy) ∧
    after (step (running configuring 0x01#32 5 0 0 0 0)) (fun t => t.seqRead .stat == 0#32 && t.phase == .idle) := by decide

/-- L2.2: LEAVE_CONFIG from CONFIGURING clears the request and CCE; INIT_ACK waits for the engine. -/
theorem test_leave_config :
    after (step (running configuring 0x02#32 2 0 0 0 0))
      (fun t => t.regRead 0 .cccr == 1#32 && !(t.ctrl 0).initReq && t.phase == .poll && !t.target) ∧
    after (step (running operating 0x02#32 2 0 0 0 0)) (fun t => t.code == .ok && t.phase == .idle) := by decide

/-- R223: the target read finishes `Ok`; budget 0 without it is `Timeout`, STAT 0x100. -/
theorem test_poll :
    after (step { running configuring 0x01#32 0 0 0 0 0 with phase := .poll, target := true })
      (fun t => t.seqRead .stat == 0#32 && t.phase == .idle) ∧
    after (step { running operating 0x01#32 0 0 0 0 0 with phase := .poll, target := true })
      (fun t => t.seqRead .stat == 0x100#32 && t.result == 0xFFFFFFFF#32) := by decide

/-- L2.2: flags 0x3F give CCCR 0x3E3 and TEST 0x10; 0x20 alone sets no LBCK; outside CONFIGURING nothing. -/
theorem test_cfg_mode :
    after (step (running configuring 0x03#32 0x3F 0 0 0 0))
      (fun t => t.regRead 0 .cccr == 0x3E3#32 && t.regRead 0 .test == 0x10#32) ∧
    after (step (running configuring 0x03#32 0x20 0 0 0 0))
      (fun t => t.regRead 0 .cccr == 3#32 && t.regRead 0 .test == 0#32) ∧
    after (step (running Ctrl.reset 0x03#32 0x3F 0 0 0 0)) (fun t => t.regRead 0 .cccr == 1#32 && t.code == .ok) := by decide

/-- L2.2: packed, and each field masked. -/
theorem test_set_nominal_timing :
    after (step (running configuring 0x04#32 1 13 2 9 0)) (fun t => t.regRead 0 .nbtp == 0x02090D02#32) ∧
    after (step (running configuring 0x04#32 0x80 0x1FF 0xFF 0x3FF 0)) (fun t => t.regRead 0 .nbtp == 0x01FFFF7F#32) ∧
    after (step (running operating 0x04#32 1 13 2 9 0)) (fun t => t.regRead 0 .nbtp == 0x06000A03#32) := by decide

/-- L2.2: packed, and TDC cleared. -/
theorem test_set_fd_timing :
    after (step (running configuring 0x05#32 3 10 3 1 0)) (fun t => t.regRead 0 .dbtp == 0x00010A33#32) ∧
    after (step (running { configuring with dbtp := Dbtp.ofWord 0x00800000#32 } 0x05#32 0 0 0 0 0))
      (fun t => t.regRead 0 .dbtp == 0#32) := by decide

/-- L2.3: counts published with ANFS kept; 29 is `OutOfRange` with nothing written. -/
theorem test_filter_init :
    after (step (running { configuring with rxgfc := Rxgfc.ofWord 0x30#32 } 0x06#32 1 1 0 0 0))
      (fun t => t.regRead 0 .rxgfc == 0x01010030#32) ∧
    after (step (running configuring 0x06#32 29 0 0 0 0)) (fun t => t.code == .outOfRange && t.mem == []) := by decide

/-- L2.3: the element of the end-to-end scenario; index 2 of 2 is `OutOfRange`. -/
theorem test_set_std_filter :
    after (step (running { configuring with rxgfc := Rxgfc.ofWord 0x20000#32 } 0x07#32 0 1 0x100 0x101 1))
      (fun t => t.memRead 0 0 == 0x49000101#32 && t.code == .ok) ∧
    after (step (running { configuring with rxgfc := Rxgfc.ofWord 0x20000#32 } 0x07#32 2 1 0 0 1))
      (fun t => t.code == .outOfRange && t.mem == []) := by decide

/-- L2.3: both words of an extended element. -/
theorem test_set_ext_filter :
    after (step (running { configuring with rxgfc := Rxgfc.ofWord 0x01000000#32 } 0x08#32 0 2 0x1FFFF000#32 0x1FFFF000#32 2))
      (fun t => t.memRead 0 0x70 == 0x5FFFF000#32 && t.memRead 0 0x74 == 0x9FFFF000#32) ∧
    after (step (running configuring 0x08#32 0 1 1 2 1)) (fun t => t.code == .outOfRange) := by decide

/-- L2.4: RESULT 1 with a free mailbox, 0 with none. -/
theorem test_available_tx :
    after (step (running { operating with trp := 0b110#3 } 0x09#32 0 0 0 0 0)) (fun t => t.result == 1#32) ∧
    after (step (running { operating with trp := 0b111#3 } 0x09#32 0 0 0 0 0)) (fun t => t.result == 0#32) := by decide

/-- A frame of the test vectors in the frame registers. -/
def framed (s : State) (id flags len : Word) : State :=
  { s with fr := { (s.fr.writeId id).writeFlags flags with len := len } }

/-- L2.4, second and sixth row: mailbox 1 of TRP 0b101, and an FD frame of length 12. -/
theorem test_transmit :
    after (step (framed (running { operating with trp := 0b101#3 } 0x0A#32 0 0 0 0 0) 0x123#32 0#32 8#32))
      (fun t => t.memRead 0 0x2C0 == 0x048C0000#32 && t.memRead 0 0x2C4 == 0x00080000#32 && t.result == 1#32 &&
        (t.ctrl 0).trp == 0b111#3) ∧
    after (step (framed (running operating 0x0A#32 0 0 0 0 0) 0x321#32 0xC#32 12#32))
      (fun t => t.memRead 0 0x278 == 0x0C840000#32 && t.memRead 0 0x27C == 0x00390000#32 && t.result == 0#32) := by decide

/-- L2.4, last rows: `Busy` is looked at before the length. -/
theorem test_transmit_busy :
    after (step (framed (running { operating with trp := 0b111#3 } 0x0A#32 0 0 0 0 0) 0x10#32 0#32 9#32))
      (fun t => t.code == .busy && t.mem == []) ∧
    after (step (framed (running operating 0x0A#32 0 0 0 0 0) 0x10#32 0#32 9#32))
      (fun t => t.code == .invalid && t.mem == [] && (t.ctrl 0).trp == 0#3) := by decide

/-- A FIFO with get index `g` and fill level `l` of depth 3. -/
def fifoAt (g : BitVec 2) (l : BitVec 4) : RxFifo :=
  { gi := g, pi := BitVec.ofNat 2 ((g.toNat + l.toNat) % 3), fl := l, ai := 0 }

/-- L2.5: FL 2, GI 1 reads 0x102; FIFO 2 is `Invalid`. -/
theorem test_available_rx :
    after (step (running { operating with fifo0 := fifoAt 1 2 } 0x0B#32 0 0 0 0 0)) (fun t => t.result == 0x102#32) ∧
    after (step (running operating 0x0B#32 2 0 0 0 0)) (fun t => t.code == .invalid) := by decide

/-- L2.5: the slot at get index 2, released: GI wraps to 0, RXF0A reads 2. -/
theorem test_receive :
    after (step { running { operating with fifo0 := fifoAt 2 1 } 0x0C#32 0 1 0 0 0 with
        mem := Memory.writeSlice 0x4000A400 false [] 0x140 [0x0C840000#32, 0x853F1234#32] })
      (fun t => t.seqRead .frId == 0x321#32 && t.seqRead .frFlags == 0x10C#32 && t.seqRead .frLen == 64#32 &&
        t.seqRead .frMeta == 0x12340005#32 && t.result == 2#32 && (t.ctrl 0).fifo0 == { fifoAt 0 0 with ai := 2 }) ∧
    after (step (running operating 0x0C#32 1 1 0 0 0)) (fun t => t.code == .notAvailable && t.fr == FrameRegs.reset) := by decide

/-- L2.5: FIFO 1 with FL 2, GI 2 gives 2 and leaves FL 1, GI 0. -/
theorem test_fifo_release :
    after (step (running { operating with fifo1 := fifoAt 2 2 } 0x0D#32 1 0 0 0 0))
      (fun t => t.result == 2#32 && (t.ctrl 0).fifo1.gi == 0#2 && (t.ctrl 0).fifo1.fl == 1#4) ∧
    after (step (running operating 0x0D#32 1 0 0 0 0)) (fun t => t.code == .notAvailable) := by decide

/-- L2.6. -/
theorem test_enable_irq :
    after (step (running operating 0x0E#32 2 0 0 0 0)) (fun t => t.result == 2#32 && (t.ctrl 0).ile == 0b10#2) ∧
    after (step (running { operating with ile := 0b10#2 } 0x0E#32 0xFFFFFFFC#32 0 0 0 0)) (fun t => t.result == 2#32) := by decide

/-- L2.6. -/
theorem test_disable_irq :
    after (step (running { operating with ile := 0b11#2 } 0x0F#32 1 0 0 0 0)) (fun t => t.result == 2#32) ∧
    after (step (running { operating with ile := 0b11#2 } 0x0F#32 3 0 0 0 0)) (fun t => (t.ctrl 0).ile == 0#2) := by decide

/-- The host's probe: the very next step runs the word, from reset with nothing else placed. -/
theorem test_fetch_word :
    after (step (State.reset.withFetchWord 32 0x10)) (fun t => t.cur == 0x10#32 && t.result == 0#32 && t.phase == .idle) := by
  decide

/-! ## The sequencer's and the controllers' registers -/

/-- L2.8: a CMD write while a command runs gives STAT 0x00010001, and the written word is dropped. -/
theorem test_overrun :
    after (step { running operating 0x02#32 0 0 0 0 0 with agenda := [wrSeq testParams .cmd 9#32] })
      (fun t => t.seqRead .stat == 0x00010001#32 && t.cur == 2#32) := by decide

/-- R103, R104, R110: a refused host access leaves the host stuck, named by its ground. -/
theorem test_refused_access :
    after (step (turned operating (.hostRead .w16 0x50000000#32))) (fun t => t.hostStuck == some .hostWidth) ∧
    after (step (turned operating (.hostRead .w32 0x50000002#32))) (fun t => t.hostStuck == some (.hostMisaligned 0x50000002#32)) ∧
    after (step (turned operating (.hostWrite .w32 0x60000000#32 0#32)))
      (fun t => t.hostStuck == some (.hostUnmapped 0x60000000#32)) := by decide

/-- R516: a stuck host makes no access, and the sequencer goes on. -/
theorem test_stuck_host :
    after (step { turned operating (wrSeq testParams .cmd 9#32) with hostStuck := some .hostWidth }) (fun t => !t.busy) ∧
    after (step { running operating 9#32 0 0 0 0 0 with hostStuck := some .hostWidth }) (fun t => t.phase == .idle && t.result == 1#32) :=
  by decide

/-- R515: a state whose host a refused access has left stuck is no launch state, though the block is as at reset. -/
theorem test_stuck_host_not_clean :
    ({ start with hostStuck := some .hostWidth } : State).AtReset ∧ ¬({ start with hostStuck := some .hostWidth } : State).Clean := by
  decide

/-- For the statement about CLEAN states: State.reset is one, and so is one with other memory and parameters. -/
theorem witness_ResetStateMeetsInvariant :
    State.reset.Clean ∧ ({ start with mem := start.mem.writeWord 0x4000A400 7 } : State).Clean := ⟨⟨rfl, rfl⟩, by decide⟩

/-- R108: instance 2's slice starts at 0x4000AAA0; R48: NBTP of instance 1 is at 0x4000681C. -/
theorem test_regions :
    regionOf testParams 0x4000AAA0 = .ram 2 0 ∧ regionOf testParams 0x4000681C = .reg 1 0x01C ∧
    regionOf testParams 0x50000004 = .seq 4 ∧ regionOf testParams 0x4000ADF0 = .unmapped := by decide

/-- L2.5: the acknowledge operation with depth 3. -/
theorem test_acknowledge :
    (fifoAt 1 2).ack 3 2 = { fifoAt 0 0 with pi := 0 } ∧ (fifoAt 1 2).ack 3 0 = fifoAt 1 2 ∧
    (fifoAt 0 0).ack 3 0 = fifoAt 0 0 ∧ (fifoAt 0 3).ack 3 5 = fifoAt 0 3 := by decide

/-- L2.6: the lines. -/
theorem test_irq_lines :
    irqLine { operating with ir := IrqBits.ofWord 1#32, ie := IrqBits.ofWord 1#32, ile := 0b01#2 } false = true ∧
    irqLine { operating with ir := IrqBits.ofWord 1#32, ie := IrqBits.ofWord 1#32, ils := 1#3, ile := 0b10#2 } true = true ∧
    irqLine { operating with ir := IrqBits.ofWord 0x80#32, ie := IrqBits.ofWord 0x80#32, ils := 4#3, ile := 0b11#2 } false = false ∧
    irqLine { operating with ir := IrqBits.ofWord 0x81#32, ile := 0b11#2 } false = false := by decide

/-- L2.9. -/
theorem test_reset_registers :
    State.reset.regRead 0 .cccr = 1#32 ∧ State.reset.regRead 0 .nbtp = 0x06000A03#32 ∧
    State.reset.regRead 0 .dbtp = 0x00000A33#32 ∧ State.reset.regRead 0 .rxgfc = 0#32 ∧ State.reset.seqRead .stat = 0#32 := by
  decide

/-! ## The protocol engine -/

/-- L2.7: success sets TC; a failure keeps the request, or drops it with DAR. -/
theorem test_transmit_completion :
    after (step (turned { operating with trp := 1#3 } (.txDone 0 0 true noDraws)))
      (fun t => (t.ctrl 0).trp == 0#3 && (t.ctrl 0).ir.tc) ∧
    after (step (turned { operating with trp := 1#3 } (.txDone 0 0 false noDraws))) (fun t => (t.ctrl 0).trp == 1#3) ∧
    after (step (turned { operating with trp := 1#3, dar := true } (.txDone 0 0 false noDraws)))
      (fun t => (t.ctrl 0).trp == 0#3 && !(t.ctrl 0).ir.tc) := by decide

/-- L2.7: FL 2, PI 2 stores in slot 2: PI 0, FL 3, RF0N and RF0F; a full FIFO loses the frame. -/
theorem test_receive_step :
    after (step (turned { operating with fifo0 := fifoAt 0 2 } (.rxFrame 0 (stdFrame 0x100 1 [0x5A]) noDraws)))
      (fun t => (t.ctrl 0).fifo0 == fifoAt 0 3 && (t.ctrl 0).ir.rf0n && (t.ctrl 0).ir.rf0f &&
        t.memRead 0 0x140 == 0x04000000#32 && t.memRead 0 0x148 == 0x5A#32) ∧
    after (step (turned { operating with fifo0 := fifoAt 0 3 } (.rxFrame 0 (stdFrame 0x100 1 [0x5A]) noDraws)))
      (fun t => (t.ctrl 0).fifo0 == fifoAt 0 3 && (t.ctrl 0).ir.rf0l && t.mem == []) := by decide

/-- L2.3: the table 0x49000101, 0x120002FF: 0x101 to FIFO 0, 0x250 to FIFO 1 with FIDX 1, 0x102 by the global rule. -/
theorem test_acceptance :
    let s : State := { start.setCtrl 0 { operating with rxgfc := Rxgfc.ofWord 0x20000#32 } with
      mem := Memory.writeSlice 0x4000A400 true [] 0 [0x49000101#32, 0x120002FF#32] }
    s.accept 0 (stdFrame 0x101 0 []) noDraws = ⟨.store .fifo0, 0, false⟩ ∧
    s.accept 0 (stdFrame 0x250 0 []) noDraws = ⟨.store .fifo1, 1, false⟩ ∧
    s.accept 0 (stdFrame 0x102 0 []) noDraws = ⟨.store .fifo0, 0, true⟩ := by decide

/-- L2.3, the further cases: classic mask, an inverted range, a disabled element, an extended mask. -/
theorem test_filter_rules :
    stdRule 0x9FFF0700#32 0x7AB = some 3 ∧ stdRule 0x0B000200#32 0x250 = none ∧ stdRule 0#32 0 = none ∧
    extRule 0x5FFFF000#32 0x9FFFF000#32 0x1FFFF123 = some 2 ∧ extRule 0x5FFFF000#32 0x9FFFF000#32 0x0FFFF123 = none := by
  decide

/-- L2.7: bus-off. -/
theorem test_bus_off :
    after (step (turned { operating with trp := 1#3 } (.busOff 0)))
      (fun t => (t.ctrl 0).initReq && (t.ctrl 0).initAck && !(t.ctrl 0).cce && (t.ctrl 0).trp == 1#3) := by decide

/-- P3: loopback delivers the mailbox's own frame in the completion step. -/
theorem test_loopback :
    after (step { turned { operating with trp := 1#3, test := true, lbck := true, fdoe := true, brse := true }
          (.txDone 0 0 false noDraws) with
        mem := Memory.writeSlice 0x4000A400 false [] 0x278 [0x0C840000#32, 0x00390000#32, 0x03020100#32, 0x07060504#32, 0x0B0A0908#32] })
      (fun t => t.memRead 0 0xB0 == 0x0C840000#32 && t.memRead 0 0xB4 == 0x80390000#32 && t.memRead 0 0xC0 == 0x0B0A0908#32 &&
        (t.ctrl 0).ir.tc && (t.ctrl 0).ir.rf0n) := by decide

/-! ## Witnesses: for each statement with hypotheses, concrete states and operands that meet them, clause by clause -/

/-- The words of the four clauses: RSV bit 7, OP 0, OP 0x12, OP 0x1F. -/
theorem witness_ReservedCommandWordsFinishInvalid :
    (running operating 0x80#32 0 0 0 0 0).agenda = [.sequencer] ∧ (running operating 0x80#32 0 0 0 0 0).phase = .exec ∧
    (0x80#32 >>> 7 ≠ 0#32) ∧ (0x20#32 &&& 0x1F#32) = 0#32 ∧ 0x12#32 ≤ (0x12#32 &&& 0x1F#32) ∧
    0x12#32 ≤ (0x1F#32 &&& 0x1F#32) := by decide

theorem witness_UnknownInstanceFinishesInvalid :
    (Instr.enterConfig 3).takesInst = true ∧ start.params.numInst ≤ (Instr.enterConfig 3).inst.toNat ∧
    decode 0x61#32 = .ok (.enterConfig 3) := by decide

theorem witness_StepRunsDecodedCommand :
    (running operating 0x2A#32 0 0 0 0 0).phase = .exec ∧ decode (running operating 0x2A#32 0 0 0 0 0).cur = .ok (.transmit 1) ∧
    (running operating 0x2A#32 0 0 0 0 0).agenda = .sequencer :: [] ∧
    ({ running operating 0x2A#32 0 0 0 0 0 with agenda := [] } : State).agenda = [] := by decide

/-- Both ends of the table and the values beside them. -/
theorem witness_LengthToDlcAnswers :
    let table : List (Nat × Nat) := [(0, 0), (1, 1), (2, 2), (3, 3), (4, 4), (5, 5), (6, 6), (7, 7), (8, 8), (12, 9), (16, 10),
      (20, 11), (24, 12), (32, 13), (48, 14), (64, 15)]
    ((0#32).toNat, 0) ∈ table ∧ ((64#32).toNat, 15) ∈ table ∧ (∀ d : Nat, ((9#32).toNat, d) ∉ table) ∧
      (∀ d : Nat, ((0xFFFFFFFF#32).toNat, d) ∉ table) := by
  refine ⟨by decide, by decide, fun d h => ?_, fun d h => ?_⟩ <;> simp at h

theorem witness_DlcToLengthAnswers :
    let lengths : List Nat := [0, 1, 2, 3, 4, 5, 6, 7, 8, 12, 16, 20, 24, 32, 48, 64]
    lengths[(0#32).toNat]? = some 0 ∧ lengths[(15#32).toNat]? = some 64 ∧ 15 < (16#32).toNat := by decide

theorem witness_CodecFunctionsAreInverse : l2d 64#32 = some 15#4 ∧ l2d 0#32 = some 0#4 := by decide

theorem witness_EnterConfigRequestsOnce :
    start.Known 2 ∧ (configuring.cce = true → configuring.initReq = true) ∧
    (configuring.initReq = true ∧ configuring.initAck = true ∧ configuring.cce = true) ∧
    (Ctrl.reset.cce = true → Ctrl.reset.initReq = true) ∧
    ¬(Ctrl.reset.initReq = true ∧ Ctrl.reset.initAck = true ∧ Ctrl.reset.cce = true) := by decide

theorem witness_LeaveConfigRequestsOnce :
    start.Known 2 ∧ (operating.lbck = true → operating.test = true) ∧
    (operating.initReq = false ∧ operating.initAck = false) ∧
    ¬(configuring.initReq = false ∧ configuring.initAck = false) := by decide

/-- INIT reads the target; it does not with budget 0; it does not with budget 1. -/
theorem witness_PollStepCountsDown :
    let s : State := { running configuring 1#32 0 0 0 0 0 with phase := .poll, target := true }
    let u : State := { running operating 1#32 0 0 0 0 0 with phase := .poll, target := true }
    s.agenda = .sequencer :: [] ∧ s.phase = .poll ∧ (s.ctrl (s.cur.extractLsb' 5 2)).initAck = s.target ∧
    (u.ctrl (u.cur.extractLsb' 5 2)).initAck ≠ u.target ∧ u.budget = 0#32 ∧ ({ u with budget := 1#32 } : State).budget ≠ 0#32 := by
  decide

theorem witness_UnacknowledgedWaitTimesOutAfterBudgetPlusOnePolls :
    let u : State := { running operating 1#32 0 0 0 0 0 with phase := .poll, target := true, budget := 2#32, agenda := [] }
    u.phase = .poll ∧ u.agenda = [] ∧ (u.ctrl (u.cur.extractLsb' 5 2)).initAck ≠ u.target ∧ 2 ≤ u.budget.toNat := by decide

/-- For every statement whose one hypothesis is that the instance exists, and its two branches on CONFIGURING. -/
theorem witness_known_instance :
    start.Known 0 ∧ start.Known 2 ∧ (configuring.initAck = true ∧ configuring.cce = true) ∧
    ¬(operating.initAck = true ∧ operating.cce = true) ∧ ¬(Ctrl.reset.initAck = true ∧ Ctrl.reset.cce = true) := by decide

theorem witness_FilterInitZeroesTableAndPublishesCounts :
    start.Known 0 ∧ 28 < (29#32).toNat ∧ 8 < (9#32).toNat ∧ (28#32).toNat ≤ 28 ∧ (8#32).toNat ≤ 8 ∧
    (configuring.initAck = true ∧ configuring.cce = true) ∧ ¬(operating.initAck = true ∧ operating.cce = true) := by decide

/-- With the counts 2 and 1, and with counts above the maxima. -/
theorem witness_SetFilterWritesElement :
    let g : Rxgfc := Rxgfc.ofWord 0x01020000#32
    let full : Rxgfc := Rxgfc.ofWord 0x0F1F0000#32
    min g.lss.toNat 28 ≤ (2#32).toNat ∧ (1#32).toNat < min g.lss.toNat 28 ∧ min g.lse.toNat 8 ≤ (1#32).toNat ∧
    (0#32).toNat < min g.lse.toNat 8 ∧ (27#32).toNat < min full.lss.toNat 28 ∧ min full.lss.toNat 28 ≤ (28#32).toNat ∧
    (7#32).toNat < min full.lse.toNat 8 ∧ min full.lse.toNat 8 ≤ (8#32).toNat := by decide

/-- All pending; a free mailbox with no code for the length; mailbox 2 free alone with length 64; mailbox 0 free. -/
theorem witness_TransmitFillsLowestFreeMailbox :
    start.Known 0 ∧ ({ operating with trp := 0b111#3 } : Ctrl).trp = 0b111#3 ∧ operating.trp ≠ 0b111#3 ∧ l2d 9#32 = none ∧
    (0b011#3).getLsbD 2 = false ∧ (∀ k < 2, (0b011#3).getLsbD k = true) ∧ l2d 64#32 = some 15#4 ∧
    operating.trp.getLsbD 0 = false ∧ (∀ k < 0, operating.trp.getLsbD k = true) ∧ l2d 0#32 = some 0#4 := by decide

theorem witness_ThreeTransmitsExhaustMailboxes :
    start.Known 0 ∧ (start.ctrl 0).trp = 0#3 ∧ l2d start.fr.len = some 0#4 ∧
    (let t4 := start.setCtrl 0 { operating with trp := 7#3 }
      let c : Ctrl := { t4.ctrl 0 with
        trp := (t4.ctrl 0).trp &&& ~~~(1#3 <<< 2), ir := { (t4.ctrl 0).ir with tc := true } }
      let u := t4.setCtrl 0 c
      u = { t4 with ctrls := u.ctrls } ∧ t4.CtrlBecomes u 0 c) := by decide

theorem witness_AvailableRxReportsCountAndGetIndex :
    start.Known 0 ∧ 1 < (2#32).toNat ∧ (0#32 : Word) = FifoId.fifo0.number ∧ (1#32 : Word) = FifoId.fifo1.number := by decide

/-- For RECEIVE and FIFO_RELEASE: an empty FIFO, and one full at the last index, with and without release. -/
theorem witness_ReceiveDecodesSlotAtGetIndex :
    start.Known 0 ∧ 1 < (2#32).toNat ∧ (0#32 : Word) = FifoId.fifo0.number ∧ (fifoAt 0 0).fl = 0#4 ∧ start.params.Legal ∧
    (fifoAt 2 3).Ok start.params.fifoDepth ∧ (fifoAt 2 3).fl ≠ 0#4 ∧ (fifoAt 2 1).Ok 3 ∧
    (1#32 : Word).getLsbD 0 = true ∧ (0#32 : Word).getLsbD 0 = false := by decide

/-- The last slot of the window, the one past it, an index of no slot, and the empty window. -/
theorem witness_AcknowledgeFreesUpToIndex :
    (fifoAt 1 2).Ok 3 ∧ (1 < (fifoAt 1 2).fl.toNat ∧ (2#3).toNat = ((fifoAt 1 2).gi.toNat + 1) % 3) ∧
    (∀ j < (fifoAt 1 2).fl.toNat, (0#3).toNat ≠ ((fifoAt 1 2).gi.toNat + j) % 3) ∧
    (∀ j < (fifoAt 1 2).fl.toNat, (3#3).toNat ≠ ((fifoAt 1 2).gi.toNat + j) % 3) ∧ (fifoAt 0 0).Ok 3 ∧
    (∀ j < (fifoAt 0 0).fl.toNat, (0#3).toNat ≠ ((fifoAt 0 0).gi.toNat + j) % 3) := by decide

theorem witness_CommandWriteStartsOrOverruns :
    (turned operating (.hostWrite .w32 0x50000000#32 9#32)).agenda = .hostWrite .w32 0x50000000#32 9#32 :: [] ∧
    start.hostStuck = none ∧ (0x50000000#32).toNat % 4 = 0 ∧ regionOf testParams (0x50000000#32).toNat = .seq 0x00 ∧
    start.busy = false ∧
    (running operating 2#32 0 0 0 0 0).busy = true := by decide

theorem witness_StatWriteClearsOverrunOnly :
    (turned operating (.hostWrite .w32 0x50000004#32 0x10000#32)).agenda = .hostWrite .w32 0x50000004#32 0x10000#32 :: [] ∧
    start.hostStuck = none ∧ (0x50000004#32).toNat % 4 = 0 ∧ regionOf testParams (0x50000004#32).toNat = .seq 0x04 := by decide

/-- CCCR.TEST set and clear; the last filter offset. -/
theorem witness_ProtectedWritesTakeEffectOnlyInConfiguring :
    (configuring.initAck = true ∧ configuring.cce = true) ∧ ({ configuring with test := true } : Ctrl).test = true ∧
    configuring.test = false ∧ 175 < 176 ∧ ¬(operating.initAck = true ∧ operating.cce = true) := by decide

/-- 0x0C lies between RESULT and ARG0; 0x3FC is the last word of a register block; the four kinds of region. -/
theorem witness_ReservedOffsetsReadZeroIgnoreWrites :
    start.hostStuck = none ∧ (0x5000000C#32).toNat % 4 = 0 ∧ regionOf testParams (0x5000000C#32).toNat = .seq 0x0C ∧
    (0x400067FC#32).toNat % 4 = 0 ∧ regionOf testParams (0x400067FC#32).toNat = .reg 0 0x3FC ∧
    regionOf testParams 0x4000A400 = .ram 0 0 ∧ regionOf testParams 0x50000100 = .unmapped ∧
    (turned operating (.hostRead .w32 0x5000000C#32)).agenda = .hostRead .w32 0x5000000C#32 :: [] ∧
    (turned operating (.hostWrite .w32 0x5000000C#32 1#32)).agenda = .hostWrite .w32 0x5000000C#32 1#32 :: [] := by decide

/-- Each ground of refusal alone, and accepted accesses at a sequencer register, a controller register, message RAM and the last,
reserved, word of the sequencer block; a stuck host. -/
theorem witness_HostAccessIsRefusedExactlyWhenIllFormed :
    Refused testParams .w64 0x50000000#32 ∧ Refused testParams .w32 0x50000001#32 ∧ Refused testParams .w32 0x50000100#32 ∧
    ¬Refused testParams .w32 0x500000FC#32 ∧ ¬Refused testParams .w32 0x500000BC#32 ∧
    regionOf testParams (0x500000BC#32).toNat = .seq (SeqReg.offset (.frData 15)) ∧ ¬Refused testParams .w32 0x4000641C#32 ∧
    regionOf testParams (0x4000641C#32).toNat = .reg 0 (CtrlReg.offset .nbtp) ∧ ¬Refused testParams .w32 0x4000ADEC#32 ∧
    regionOf testParams (0x4000ADEC#32).toNat = .ram 2 0x34C ∧ start.hostStuck = none ∧
    ({ start with hostStuck := some .hostWidth } : State).hostStuck ≠ none ∧
    (turned operating (.hostRead .w64 0x50000000#32)).agenda = .hostRead .w64 0x50000000#32 :: [] ∧
    (turned operating (.hostWrite .w32 0x500000BC#32 1#32)).agenda = .hostWrite .w32 0x500000BC#32 1#32 :: [] := by decide

/-- The first word past the filter region, and the first filter word while CONFIGURING. -/
theorem witness_HostRamWriteIsLittleEndianAndLocal :
    (turned operating (.hostWrite .w32 0x4000A4B0#32 1#32)).agenda = .hostWrite .w32 0x4000A4B0#32 1#32 :: [] ∧
    start.hostStuck = none ∧ (0x4000A4B0#32).toNat % 4 = 0 ∧ regionOf testParams (0x4000A4B0#32).toNat = .ram 0 176 ∧ 176 ≤ 176 ∧
    regionOf testParams (0x4000A400#32).toNat = .ram 0 0 ∧ (configuring.initAck = true ∧ configuring.cce = true) := by decide

/-- For the statements about a synchronisation, bus-off or reset step: the agenda, and the branches. -/
theorem witness_agenda_entries :
    (turned operating (.sync 0)).agenda = .sync 0 :: [] ∧ (turned operating (.busOff 0)).agenda = .busOff 0 :: [] ∧
    (turned operating .reset).agenda = .reset :: [] ∧ (turned operating .reset).hostStuck = none ∧ start.Known 0 ∧ start.params.clockRunning.get 0 = true ∧
    start.params.busOffAllowed = true ∧ operating.initAck = false ∧ operating.initReq = false := by decide

/-- INIT acknowledged, and a stopped clock, with each entry; a mailbox not pending; one pending in bus monitoring; internal loopback. -/
theorem witness_NoTrafficWithoutClockOrInInitialisation :
    let stopped : State := { turned operating (.sync 0) with params := { testParams with clockRunning := Vector.replicate 4 false } }
    let silent : Ctrl := { operating with mon := true, trp := 4#3 }
    let internal : Ctrl := { operating with mon := true, test := true, lbck := true }
    ¬start.Known 3 ∧ ¬((stdFrame 0x800 0 []).id.toNat < 2 ^ 11) ∧ (stdFrame 0x800 0 []).xtd = false ∧
    configuring.initAck = true ∧ stopped.params.clockRunning.get 0 = false ∧ stopped.agenda = .sync 0 :: [] ∧
    operating.trp.getLsbD 2 = false ∧ (silent.mon = true ∧ ¬(silent.test = true ∧ silent.lbck = true)) ∧
    silent.trp.getLsbD 2 = true ∧ (internal.mon = true ∧ internal.test = true ∧ internal.lbck = true) ∧
    (turned configuring (.txDone 0 2 true noDraws)).agenda = .txDone 0 2 true noDraws :: [] ∧
    (turned configuring (.rxFrame 0 (stdFrame 0 0 []) noDraws)).agenda = .rxFrame 0 (stdFrame 0 0 []) noDraws :: [] := by decide

/-- Mailbox 2 pending; success, failure with DAR and without. -/
theorem witness_TransmitCompletionOutsideLoopback :
    (turned { operating with trp := 4#3 } (.txDone 0 2 true noDraws)).agenda = .txDone 0 2 true noDraws :: [] ∧
    start.Known 0 ∧ start.params.clockRunning.get 0 = true ∧ operating.initAck = false ∧ (4#3).getLsbD 2 = true ∧
    operating.mon = false ∧ ¬(operating.test = true ∧ operating.lbck = true) ∧ operating.dar = false ∧
    ({ operating with dar := true } : Ctrl).dar = true := by decide

theorem witness_LoopbackCompletionDeliversOwnFrame :
    let c : Ctrl := { operating with trp := 4#3, test := true, lbck := true }
    (turned c (.txDone 0 2 false noDraws)).agenda = .txDone 0 2 false noDraws :: [] ∧ start.Known 0 ∧
    start.params.clockRunning.get 0 = true ∧ c.initAck = false ∧ c.trp.getLsbD 2 = true ∧ c.test = true ∧ c.lbck = true ∧
    ((turned { c with rxgfc := Rxgfc.ofWord 0x3C#32 } (.txDone 0 2 false noDraws)).accept 0 (stdFrame 0 0 []) noDraws).dest = .discard :=
  by decide

/-- A frame for FIFO 0 with one slot free at the last index: the FIFO becomes full. -/
theorem witness_ReceiveStoresFrameAtPutIndex :
    let c : Ctrl := { operating with fifo0 := fifoAt 0 2 }
    let f := stdFrame 0x7FF 1 [0x5A]
    let s := turned c (.rxFrame 0 f noDraws)
    s.agenda = .rxFrame 0 f noDraws :: [] ∧ s.Known 0 ∧ s.params.clockRunning.get 0 = true ∧ c.initAck = false ∧
    ¬(c.test = true ∧ c.lbck = true ∧ c.mon = true) ∧ (f.fdf = true → c.fdoe = true) ∧ (f.brs = true → f.fdf = true) ∧ (f.fdf = true → f.rtr = false) ∧
    (f.fdf = false → f.esi = false) ∧
    f.bytes.length = (if f.rtr = true then 0 else if f.fdf = true then d2l f.dlc else min (d2l f.dlc) 8) ∧
    (f.xtd = false → f.id.toNat < 2 ^ 11) ∧
    (s.accept 0 f noDraws).dest = .store .fifo0 ∧
    s.params.Legal ∧ (c.fifo .fifo0).Ok s.params.fifoDepth ∧ (c.fifo .fifo0).fl.toNat ≠ s.params.fifoDepth := by decide

/-- A full FIFO 0, and a frame that the global rule rejects. -/
theorem witness_FullFifoLosesFrame :
    let f := stdFrame 0x7FF 1 [0x5A]
    let s := turned { operating with fifo0 := fifoAt 0 3 } (.rxFrame 0 f noDraws)
    let u := turned { operating with rxgfc := Rxgfc.ofWord 0x20#32 } (.rxFrame 0 f noDraws)
    (f.fdf = true → (s.ctrl 0).fdoe = true) ∧ (f.brs = true → f.fdf = true) ∧ (f.fdf = true → f.rtr = false) ∧
    (f.fdf = false → f.esi = false) ∧
    f.bytes.length = (if f.rtr = true then 0 else if f.fdf = true then d2l f.dlc else min (d2l f.dlc) 8) ∧
    (f.xtd = false → f.id.toNat < 2 ^ 11) ∧
    (s.accept 0 f noDraws).dest = .store .fifo0 ∧
    ((s.ctrl 0).fifo .fifo0).fl.toNat = s.params.fifoDepth ∧ (u.accept 0 f noDraws).dest = .discard := by decide

/-- For the statements over a step of a state that meets the invariant. -/
theorem witness_invariant :
    let f := stdFrame 0x7FF 1 [0x5A]
    let s := turned { operating with fifo0 := fifoAt 1 2 } (.rxFrame 0 f noDraws)
    s.Inv ∧ Memory.Mapped s.params s.mem ∧ s.Known 0 ∧ ((s.ctrl 0).fifo .fifo0).InWindow s.params.fifoDepth 2 ∧
    ¬((s.ctrl 0).initAck = true ∧ (s.ctrl 0).cce = true) ∧ (∀ rest : List Turn, s.agenda ≠ .reset :: rest) ∧
    ∃ t, step s = .next t := by
  refine ⟨by decide, by decide, by decide, ⟨1, by decide, by decide⟩, by decide, fun rest h => ?_, ⟨_, rfl⟩⟩
  simp [turned] at h

/-- A loopback completion with a slot in the filled window. -/
theorem witness_EngineNeverOverwritesFilledWindow :
    let c : Ctrl := { operating with trp := 4#3, test := true, lbck := true, fifo0 := fifoAt 1 2 }
    let s := turned c (.txDone 0 2 true noDraws)
    s.Inv ∧ s.agenda = .txDone 0 2 true noDraws :: [] ∧ ((s.ctrl 0).fifo .fifo0).InWindow s.params.fifoDepth 2 ∧
    ∃ t, step s = .next t :=
  ⟨by decide, by decide, ⟨1, by decide, by decide⟩, ⟨_, rfl⟩⟩

/-- An enabled bus-off step, and one that is not enabled. -/
theorem witness_BusOffReturnsToInitialisation :
    (turned operating (.busOff 0)).agenda = .busOff 0 :: [] ∧ start.params.busOffAllowed = true ∧ start.Known 0 ∧
    start.params.clockRunning.get 0 = true ∧ operating.initAck = false ∧ operating.initReq = false ∧
    (operating.cce = true → operating.initReq = true) ∧ configuring.initAck = true := by decide

/-- Stored by a filter element and by the global rule. -/
theorem witness_FilterActionsAndNonMatchingRouting :
    (1#3 ≠ 0#3 ∧ (filterAction noDraws 1#3 27).dest = .store .fifo0) ∧ (nonmatch noDraws 1#2).dest = .store .fifo1 := by decide

/-- A refused access sticks the host, and an entry of another agent. -/
theorem witness_OnlyRefusedHostAccessesStickHost :
    after (step (turned operating (.hostRead .w16 0x50000000#32))) (fun t => t.hostStuck != none) ∧
    Turn.isHost .sequencer = false ∧ Turn.isHost (.sync 0) = false := by decide

theorem witness_EngineStepTouchesOwnInstanceOnly :
    (turned operating (.sync 0)).Inv ∧ (turned { operating with trp := 1#3 } (.txDone 0 0 true noDraws)).Inv ∧
    (turned operating (.busOff 0)).Inv ∧ (∃ t, step (turned operating (.sync 0)) = .next t) ∧
    (∃ t, step (turned { operating with trp := 1#3 } (.txDone 0 0 true noDraws)) = .next t) ∧
    ∃ t, step (turned operating (.busOff 0)) = .next t :=
  ⟨by decide, by decide, by decide, ⟨_, rfl⟩, ⟨_, rfl⟩, ⟨_, rfl⟩⟩

/-- The last standard element of a table of two decides; and no element matches. -/
theorem witness_FirstMatchingFilterDecides :
    let s : State := { start.setCtrl 0 { operating with rxgfc := Rxgfc.ofWord 0x20000#32 } with
      mem := Memory.writeSlice 0x4000A400 true [] 0 [0x49000101#32, 0x120002FF#32] }
    1 < min (s.ctrl 0).rxgfc.lss.toNat 28 ∧ stdRule (s.memRead 0 (sfl 1)) 0x2FF = some 2#3 ∧
    (∀ j < 1, stdRule (s.memRead 0 (sfl j)) 0x2FF = none) ∧
    (∀ k < min (s.ctrl 0).rxgfc.lss.toNat 28, stdRule (s.memRead 0 (sfl k)) 0x300 = none) := by decide

theorem witness_FilterElementMatchModes : (0x7FF#29).toNat < 2 ^ 11 := by decide

/-- RECEIVE writes a frame register. -/
theorem witness_CommandsKeepArgumentsAndFrameRegisters :
    after (exec (.receive 0) { running { operating with fifo0 := fifoAt 0 1 } 0x0C#32 0 0 0 0 0 with
      mem := Memory.writeSlice 0x4000A400 false [] 0xB0 [0x04000000#32, 0x00080000#32] }) (fun t => t.fr != start.fr) := by
  decide

/-- A request taken away, and INIT_ACK changed. -/
theorem witness_OnlyEngineOrResetChangesHardwareBits :
    (turned { operating with trp := 4#3 } (.txDone 0 2 true noDraws)).trpOf 0 = 4#3 ∧
    after (step (turned { operating with trp := 4#3 } (.txDone 0 2 true noDraws))) (fun t => !(t.trpOf 0).getLsbD 2) ∧
    after (step (turned { operating with initReq := true } (.sync 0))) (fun t => (t.ctrl 0).initAck) := by decide

end Sys2Proof.Tests
end

/-!
Receive FIFOs and their slots: an acknowledge and a push in terms of the filled window (R58, R60, R394), and where the slots of
R107 lie.
-/

namespace Sys2Proof.Machine

/-- The distance from the get index to a slot, the subtraction of R58 carried out. -/
theorem RxFifo.ahead_eq {n : Nat} {x : RxFifo} {a : BitVec 3} (hg : x.gi.toNat < n) (ha : a.toNat < n) :
    x.ahead n a = if x.gi.toNat ≤ a.toNat then a.toNat - x.gi.toNat else n + a.toNat - x.gi.toNat := by
  unfold RxFifo.ahead
  split
  · rw [Int.emod_eq_of_lt (by omega) (by omega)]; omega
  · rw [← Int.add_emod_right, Int.emod_eq_of_lt (by omega) (by omega)]; omega

/-- Index `a` is the slot `ahead` past the get index. -/
theorem RxFifo.slot_ahead {n : Nat} {x : RxFifo} {a : BitVec 3} (hg : x.gi.toNat < n) (ha : a.toNat < n) :
    (x.gi.toNat + x.ahead n a) % n = a.toNat := by
  rw [RxFifo.ahead_eq hg ha]
  split
  · rw [Nat.mod_eq_of_lt] <;> omega
  · rw [show x.gi.toNat + (n + a.toNat - x.gi.toNat) = a.toNat + n by omega, Nat.add_mod_right, Nat.mod_eq_of_lt ha]

/-- Slots at different distances from one index differ. -/
theorem slot_inj {n g j k : Nat} (hj : j < n) (hk : k < n) (h : (g + j) % n = (g + k) % n) : j = k :=
  (Nat.ModEq.add_left_cancel' g h).eq_of_lt_of_lt hj hk

/-- The slot `j` past the get index lies at distance `j`. -/
theorem RxFifo.ahead_slot {n : Nat} {x : RxFifo} {a : BitVec 3} {j : Nat} (hg : x.gi.toNat < n) (hj : j < n)
    (ha : a.toNat = (x.gi.toNat + j) % n) : x.ahead n a = j := by
  have han : a.toNat < n := ha ▸ Nat.mod_lt _ (by omega)
  have hlt : x.ahead n a < n := by rw [RxFifo.ahead_eq hg han]; split <;> omega
  exact slot_inj hlt hj ((RxFifo.slot_ahead hg han).trans ha)

/-- An index of the legal FIFO depths fits the two bits of a get or put index. -/
theorem toNat_ofNat_mod {n : Nat} (h1 : 1 ≤ n) (h4 : n ≤ 4) (k : Nat) : (BitVec.ofNat 2 (k % n)).toNat = k % n := by
  have := Nat.mod_lt k h1
  simp only [BitVec.toNat_ofNat]
  omega

/-- An acknowledge inside the filled window frees the slots up to its index (R58). -/
theorem RxFifo.ack_inside {n : Nat} {x : RxFifo} (hx : x.Ok n) {a : BitVec 3} {j : Nat}
    (hj : j < x.fl.toNat) (ha : a.toNat = (x.gi.toNat + j) % n) :
    x.ack n a = { x with gi := BitVec.ofNat 2 ((a.toNat + 1) % n), fl := BitVec.ofNat 4 (x.fl.toNat - (j + 1)) } := by
  obtain ⟨hfl, hg, _, _⟩ := hx
  have hahead := RxFifo.ahead_slot hg (by omega) ha
  have han : a.toNat < n := ha ▸ Nat.mod_lt _ (by omega)
  rw [RxFifo.ack, if_pos ⟨by omega, han, by omega⟩, hahead]

/-- An acknowledge outside the filled window is ignored (R58). -/
theorem RxFifo.ack_outside {n : Nat} {x : RxFifo} (hx : x.Ok n) {a : BitVec 3}
    (ha : ∀ j < x.fl.toNat, a.toNat ≠ (x.gi.toNat + j) % n) : x.ack n a = x := by
  rw [RxFifo.ack, if_neg]
  rintro ⟨_, han, hlt⟩
  exact ha _ hlt (RxFifo.slot_ahead hx.2.1 han).symm

/-- The FIFO after an acknowledge that frees `j + 1` slots is in order (R60). -/
theorem RxFifo.ok_freed {n : Nat} (h1 : 1 ≤ n) (h4 : n ≤ 4) {x : RxFifo} (hx : x.Ok n) {a : BitVec 3} {j : Nat}
    (hj : j < x.fl.toNat) (ha : a.toNat = (x.gi.toNat + j) % n) :
    RxFifo.Ok n { x with gi := BitVec.ofNat 2 ((a.toNat + 1) % n), fl := BitVec.ofNat 4 (x.fl.toNat - (j + 1)) } := by
  obtain ⟨hfl, hg, hp, hpi⟩ := hx
  have hfl' : (BitVec.ofNat 4 (x.fl.toNat - (j + 1))).toNat = x.fl.toNat - (j + 1) := by
    simp only [BitVec.toNat_ofNat]; omega
  refine ⟨by rw [hfl']; omega, by rw [toNat_ofNat_mod h1 h4]; exact Nat.mod_lt _ h1, hp, ?_⟩
  rw [toNat_ofNat_mod h1 h4, hfl', hpi, ha, Nat.mod_add_mod, Nat.add_assoc, Nat.mod_add_mod]
  congr 1
  omega

/-- Every acknowledge keeps the FIFO in order (R60). -/
theorem RxFifo.ok_ack {n : Nat} (h1 : 1 ≤ n) (h4 : n ≤ 4) {x : RxFifo} (hx : x.Ok n) (a : BitVec 3) : (x.ack n a).Ok n := by
  by_cases ha : ∀ j < x.fl.toNat, a.toNat ≠ (x.gi.toNat + j) % n
  · rwa [RxFifo.ack_outside hx ha]
  · push Not at ha
    obtain ⟨j, hj, ha⟩ := ha
    rw [RxFifo.ack_inside hx hj ha]
    exact RxFifo.ok_freed h1 h4 hx hj ha

/-- A frame pushed into a FIFO that is not full keeps it in order (R60, R394). -/
theorem RxFifo.ok_push {n : Nat} (h1 : 1 ≤ n) (h4 : n ≤ 4) {x : RxFifo} (hx : x.Ok n) (hfull : x.fl.toNat ≠ n) :
    (x.push n).Ok n := by
  obtain ⟨hfl, hg, hp, hpi⟩ := hx
  have hfl' : (x.fl + 1#4).toNat = x.fl.toNat + 1 := by simp only [BitVec.toNat_add, BitVec.toNat_ofNat]; omega
  refine ⟨by simp only [RxFifo.push, hfl']; omega, hg, ?_, ?_⟩
  · simp only [RxFifo.push, toNat_ofNat_mod h1 h4]; exact Nat.mod_lt _ h1
  · simp only [RxFifo.push, toNat_ofNat_mod h1 h4, hfl', hpi, Nat.mod_add_mod, Nat.add_assoc]

/-- The put index of a FIFO that is not full is no slot of the filled window (R60, R124). -/
theorem RxFifo.pi_not_inWindow {n : Nat} {x : RxFifo} (hx : x.Ok n) (hfull : x.fl.toNat ≠ n) :
    ¬x.InWindow n x.pi.toNat := by
  obtain ⟨hfl, _, _, hpi⟩ := hx
  rintro ⟨j, hj, h⟩
  have := slot_inj (by omega) (by omega) (hpi.symm.trans h)
  omega

/-- A slot of the filled window is one of the FIFO's slots. -/
theorem RxFifo.InWindow.lt {n k : Nat} {x : RxFifo} (hx : x.Ok n) (h : x.InWindow n k) : k < n := by
  obtain ⟨hfl, _, _, _⟩ := hx
  obtain ⟨j, hj, rfl⟩ := h
  exact Nat.mod_lt _ (by omega)

/-- A receive slot lies behind the filter regions and in front of the transmit slots (R107). -/
theorem rxslot_bounds (p : Params) (f : FifoId) {k : Nat} (hk : k < p.fifoDepth) :
    Config.f0Off ≤ rxslot p f k ∧ rxslot p f k + 72 ≤ p.sliceBytes := by
  simp only [rxslot, Params.sliceBytes, Params.txbOff, Params.txeOff, Params.f1Off, Config.slotBytes]
  cases f <;> dsimp only <;> omega

/-- Two receive slots, of different FIFOs or different numbers, share no byte (R107). -/
theorem rxslot_disjoint (p : Params) {f q : FifoId} {k l : Nat} (hk : k < p.fifoDepth) (hl : l < p.fifoDepth)
    (hne : f = q → k ≠ l) : rxslot p f k + 72 ≤ rxslot p q l ∨ rxslot p q l + 72 ≤ rxslot p f k := by
  simp only [rxslot, Params.f1Off, Config.slotBytes]
  cases f <;> cases q <;> dsimp only <;> simp only [true_implies, reduceCtorEq, false_implies] at hne <;> omega

/-- The slices of two instances share no byte (R108). -/
theorem msgram_disjoint (p : Params) {i j : BitVec 2} (h : i ≠ j) :
    p.msgram i + p.sliceBytes ≤ p.msgram j ∨ p.msgram j + p.sliceBytes ≤ p.msgram i := by
  have hne : i.toNat ≠ j.toNat := fun e => h (BitVec.eq_of_toNat_eq e)
  simp only [Params.msgram]
  rcases Nat.lt_or_gt_of_ne hne with h | h
  · have := Nat.mul_le_mul_right p.sliceBytes (Nat.succ_le_of_lt h)
    rw [Nat.succ_mul] at this
    omega
  · have := Nat.mul_le_mul_right p.sliceBytes (Nat.succ_le_of_lt h)
    rw [Nat.succ_mul] at this
    omega

/-- Settles O27: inside the window by `RxFifo.ack_inside`, outside by `RxFifo.ack_outside`. -/
theorem acknowledgeFreesUpToIndex : Obligations.AcknowledgeFreesUpToIndex := by
  unfold Obligations.AcknowledgeFreesUpToIndex
  intro n x h1 h4 hx
  refine ⟨fun j a hj ha => ?_, fun a ha => RxFifo.ack_outside hx ha⟩
  rw [RxFifo.ack_inside hx hj ha]
  refine ⟨toNat_ofNat_mod h1 h4 _, ?_, rfl, rfl, RxFifo.ok_freed h1 h4 hx hj ha⟩
  simp only [BitVec.toNat_ofNat]
  omega

end Sys2Proof.Machine

/-!
One step, said once: `TurnEffect` lists everything the agent of an agenda entry can do to the state, and `step_effect` says that
a step does one of these. The statements about every step are proved by a case for each.
-/

namespace Sys2Proof.Machine

/-- Everything one agenda entry's step can do (R118, R414): from `s`, entry `u` leads to the last argument. -/
inductive TurnEffect (s : State) : Turn → State → Prop
  /-- An entry that is not enabled, a stuck host's, a reserved offset's or an idle sequencer's changes nothing (log 3). -/
  | stay (u : Turn) : TurnEffect s u s
  /-- The sequencer rejects the word (R152, R154). -/
  | reject (e : Reject) (hp : s.phase = .exec) (hd : decode s.cur = .error e) : TurnEffect s .sequencer (s.fail .invalid)
  /-- The sequencer runs a command (R155). -/
  | command (c : Instr) (t : State) (hp : s.phase = .exec) (hd : decode s.cur = .ok c) (h : exec c s = .next t) :
      TurnEffect s .sequencer t
  /-- The sequencer waits (R223). -/
  | poll (hp : s.phase = .poll) : TurnEffect s .sequencer s.pollStep
  /-- A host access is refused (R516). -/
  | stick (u : Turn) (h : Option Fault) : TurnEffect s u { s with hostStuck := h }
  /-- The host reads a word (R106). -/
  | hostRead (width : Width) (addr w : Word) : TurnEffect s (.hostRead width addr) { s with hostData := w }
  /-- The host writes a sequencer register (R40). -/
  | seqWrite (width : Width) (addr v : Word) (r : SeqReg) : TurnEffect s (.hostWrite width addr v) (s.seqWrite r v)
  /-- The host writes a controller register (R48). -/
  | regWrite (width : Width) (addr v : Word) (i : BitVec 2) (r : CtrlReg) (hk : s.Known i) :
      TurnEffect s (.hostWrite width addr v) (s.regWrite i r v)
  /-- The host writes a word of message RAM, at an aligned address (R104, R108). -/
  | ramWrite (width : Width) (addr v : Word) (i : BitVec 2) (off : Nat) (hk : s.Known i)
      (haddr : (s.params.msgram i + off) % 4 = 0) (hoff : off < s.params.sliceBytes) :
      TurnEffect s (.hostWrite width addr v) (s.memWrites i off [v])
  /-- INIT_ACK takes INIT_REQ (R390). -/
  | sync (i : BitVec 2) : TurnEffect s (.sync i) (s.setCtrl i { s.ctrl i with initAck := (s.ctrl i).initReq })
  /-- A transmission ends without delivery (R392). -/
  | complete (i : BitVec 2) (m : Fin 3) (ok : Bool) (d : Draws) (tc : Bool) :
      TurnEffect s (.txDone i m ok d) (s.setCtrl i ((s.ctrl i).complete m tc))
  /-- A transmission in loopback ends and its frame is delivered (R396). -/
  | loopback (i : BitVec 2) (m : Fin 3) (ok : Bool) (d : Draws) (f : Frame) (hlen : f.bytes.length ≤ 64) :
      TurnEffect s (.txDone i m ok d) ((s.setCtrl i ((s.ctrl i).complete m true)).deliver i f d)
  /-- A frame is received (R394). -/
  | receive (i : BitVec 2) (f : Frame) (d : Draws) (hlen : f.bytes.length ≤ 64) :
      TurnEffect s (.rxFrame i f d) (s.deliver i f d)
  /-- Bus-off (R397). -/
  | busOff (i : BitVec 2) : TurnEffect s (.busOff i) (s.setCtrl i { s.ctrl i with initReq := true, initAck := true })
  /-- Reset (R480). -/
  | reset : TurnEffect s .reset s.resetStep

/-- The sequencer's step (R155). -/
theorem State.sequencerStep_effect {s t : State} (h : s.sequencerStep = .next t) : TurnEffect s .sequencer t := by
  cases hp : s.phase with
  | idle => rw [s.sequencerStep_idle hp] at h; cases h; exact .stay _
  | poll => rw [s.sequencerStep_poll hp] at h; cases h; exact .poll hp
  | exec =>
    cases hd : decode s.cur with
    | ok c => exact .command c t hp hd (s.sequencerStep_exec hp hd ▸ h)
    | error e => rw [s.sequencerStep_reject hp hd] at h; cases h; exact .reject e hp hd

/-- A host write step: refused or the write of `State.busWrite_cases` (R516). -/
theorem State.hostWrite_effect (s : State) (width : Width) (addr v : Word) :
    TurnEffect s (.hostWrite width addr v) (s.hostWrite width addr v) := by
  unfold State.hostWrite
  rcases s.hostAccess_stuck_or width addr (s.busWrite addr v) with ⟨e, h⟩ | ⟨hr, h⟩
  · rw [h]; exact .stick _ e
  · rw [h]
    rcases s.busWrite_cases addr v with h | ⟨r, h⟩ | ⟨i, r, hk, h⟩ | ⟨i, off, hk, ha, hoff, h⟩
    · rw [h]; exact .stay _
    · rw [h]; exact .seqWrite width addr v r
    · rw [h]; exact .regWrite width addr v i r hk
    · rw [h]
      have haligned : addr.toNat % 4 = 0 := not_not.1 fun hn => hr (.inr (.inl hn))
      exact .ramWrite width addr v i off hk (ha ▸ haligned) hoff

/-- A host read step (R106, R516). -/
theorem State.hostRead_effect (s : State) (width : Width) (addr : Word) :
    TurnEffect s (.hostRead width addr) (s.hostRead width addr) := by
  unfold State.hostRead
  rcases s.hostAccess_stuck_or width addr { s with hostData := s.busRead addr } with ⟨e, h⟩ | ⟨_, h⟩
  · rw [h]; exact .stick _ e
  · rw [h]; exact .hostRead width addr _

/-- A synchronisation step (R390). -/
theorem State.syncStep_effect (s : State) (i : BitVec 2) : TurnEffect s (.sync i) (s.syncStep i) := by
  rw [State.syncStep_eq]
  split
  · exact .sync i
  · exact .stay _

/-- A transmit completion step (R392, R396). -/
theorem State.txStep_effect (s : State) (i : BitVec 2) (m : Fin 3) (ok : Bool) (d : Draws) :
    TurnEffect s (.txDone i m ok d) (s.txStep i m ok d) := by
  rcases s.txStep_cases i m ok d with ⟨_, h⟩ | ⟨_, ⟨_, h⟩ | ⟨_, h⟩⟩
  · rw [h]; exact .stay _
  · rw [h]; exact .loopback i m ok d _ (s.length_txFrame i m ▸ lenEff_le _ _ _)
  · rw [h]
    split
    · exact .complete i m ok d true
    · split
      · exact .complete i m ok d false
      · exact .stay _

/-- A receive step (R394). -/
theorem State.rxStep_effect (s : State) (i : BitVec 2) (f : Frame) (d : Draws) :
    TurnEffect s (.rxFrame i f d) (s.rxStep i f d) := by
  rcases s.rxStep_cases i f d with h | ⟨_, hf, h⟩
  · rw [h]; exact .stay _
  · rw [h]; exact .receive i f d (busFrame_length hf ▸ lenEff_le _ _ _)

/-- A bus-off step (R397). -/
theorem State.busOffStep_effect (s : State) (i : BitVec 2) : TurnEffect s (.busOff i) (s.busOffStep i) := by
  unfold State.busOffStep
  split
  · exact .busOff i
  · exact .stay _

/-- Each agent's step is one of the effects listed. -/
theorem State.turnStep_effect {s t : State} {u : Turn} (h : s.turnStep u = .next t) : TurnEffect s u t := by
  cases u <;> simp only [State.turnStep, Host.Outcome.next.injEq] at h
  case sequencer => exact State.sequencerStep_effect h
  case hostWrite => exact h ▸ s.hostWrite_effect _ _ _
  case hostRead => exact h ▸ s.hostRead_effect _ _
  case sync => exact h ▸ s.syncStep_effect _
  case txDone => exact h ▸ s.txStep_effect _ _ _ _
  case rxFrame => exact h ▸ s.rxStep_effect _ _ _
  case busOff => exact h ▸ s.busOffStep_effect _
  case reset => exact h ▸ .reset

/-- A step is one of the effects listed, of the next entry, in the state without it. -/
theorem step_effect {s t : State} (h : step s = .next t) : TurnEffect s.dropTurn s.nextTurn t := State.turnStep_effect h

/-- An entry other than the sequencer's that does not stand first on the agenda is not the next turn. -/
theorem State.nextTurn_ne {s : State} {u : Turn} (hu : u ≠ .sequencer) (h : ∀ rest, s.agenda ≠ u :: rest) :
    s.nextTurn ≠ u := by
  unfold State.nextTurn
  cases ha : s.agenda with
  | nil => exact hu.symm
  | cons v rest => exact fun hv => h rest (ha.trans (congrArg (· :: rest) hv))

/-- A sequencer register write starts a command, or changes at most OVR, the arguments and the frame registers (R41 to R45). -/
theorem State.seqWrite_cases (s : State) (r : SeqReg) (w : Word) :
    (s.busy = false ∧ r = .cmd ∧ s.seqWrite r w = { s with cur := w, busy := true, phase := .exec }) ∨
    ∃ ovr arg0 arg1 arg2 arg3 arg4 fr, s.seqWrite r w = { s with
      ovr := ovr, arg0 := arg0, arg1 := arg1, arg2 := arg2, arg3 := arg3, arg4 := arg4, fr := fr } := by
  cases r with
  | cmd =>
    by_cases hb : s.busy = true
    · exact .inr ⟨true, s.arg0, s.arg1, s.arg2, s.arg3, s.arg4, s.fr, if_pos hb⟩
    · exact .inl ⟨Bool.not_eq_true _ ▸ hb, rfl, if_neg hb⟩
  | arg k => match k with | 0 | 1 | 2 | 3 | 4 => exact .inr ⟨_, _, _, _, _, _, _, rfl⟩
  | _ => exact .inr ⟨_, _, _, _, _, _, _, rfl⟩

@[simp] theorem State.seqWrite_params (s : State) (r : SeqReg) (w : Word) : (s.seqWrite r w).params = s.params := by
  rcases s.seqWrite_cases r w with ⟨_, _, h⟩ | ⟨_, _, _, _, _, _, _, h⟩ <;> rw [h]

@[simp] theorem State.seqWrite_ctrls (s : State) (r : SeqReg) (w : Word) : (s.seqWrite r w).ctrls = s.ctrls := by
  rcases s.seqWrite_cases r w with ⟨_, _, h⟩ | ⟨_, _, _, _, _, _, _, h⟩ <;> rw [h]

@[simp] theorem State.seqWrite_mem (s : State) (r : SeqReg) (w : Word) : (s.seqWrite r w).mem = s.mem := by
  rcases s.seqWrite_cases r w with ⟨_, _, h⟩ | ⟨_, _, _, _, _, _, _, h⟩ <;> rw [h]

@[simp] theorem State.pollStep_params (s : State) : s.pollStep.params = s.params := by
  rcases s.pollStep_cases with ⟨_, h⟩ | ⟨_, _, h⟩ | ⟨_, _, h⟩ <;> rw [h] <;> rfl

@[simp] theorem State.deliver_params (s : State) (i : BitVec 2) (f : Frame) (d : Draws) :
    (s.deliver i f d).params = s.params := by
  rcases s.deliver_cases i f d with ⟨_, h⟩ | ⟨_, _, ⟨_, h⟩ | ⟨_, h⟩⟩ <;> rw [h] <;> rfl

/-- Waiting changes no controller. -/
@[simp] theorem State.pollStep_ctrls (s : State) : s.pollStep.ctrls = s.ctrls := by
  rcases s.pollStep_cases with ⟨_, h⟩ | ⟨_, _, h⟩ | ⟨_, _, h⟩ <;> rw [h] <;> rfl

@[simp] theorem State.pollStep_mem (s : State) : s.pollStep.mem = s.mem := by
  rcases s.pollStep_cases with ⟨_, h⟩ | ⟨_, _, h⟩ | ⟨_, _, h⟩ <;> rw [h] <;> rfl

/-- No command changes a parameter. -/
theorem CommandEffect.params {i : BitVec 2} {s t : State} (h : CommandEffect i s t) : t.params = s.params := by
  rw [h.frame]

/-- No command changes CUR. -/
theorem CommandEffect.cur {i : BitVec 2} {s t : State} (h : CommandEffect i s t) : t.cur = s.cur := by
  rw [h.frame]

/-- No step changes a parameter (R480). -/
theorem TurnEffect.params {s t : State} {u : Turn} (h : TurnEffect s u t) : t.params = s.params := by
  cases h with
  | command c _ _ _ h => exact (exec_effect h).params
  | poll => exact s.pollStep_params
  | seqWrite _ _ v r => exact s.seqWrite_params r v
  | loopback i m _ d f => exact (s.setCtrl i _).deliver_params i f d
  | receive i f d => exact s.deliver_params i f d
  | _ => rfl

end Sys2Proof.Machine

/-!
The machine's invariant: every register write, command, delivery and agent keeps it (R46, R50, R60).
-/

namespace Sys2Proof.Machine

/-- Both FIFOs of a controller in order. -/
theorem Ctrl.Ok.fifo {n : Nat} {c : Ctrl} (h : c.Ok n) (f : FifoId) : (c.fifo f).Ok n := by
  obtain ⟨_, _, h0, h1⟩ := h
  cases f
  · exact h0
  · exact h1

/-- A FIFO in order put into a controller in order. -/
theorem Ctrl.Ok.setFifo {n : Nat} {c : Ctrl} (h : c.Ok n) {x : RxFifo} (hx : x.Ok n) (f : FifoId) : (c.setFifo f x).Ok n := by
  obtain ⟨hcce, hlbck, h0, h1⟩ := h
  cases f
  · exact ⟨hcce, hlbck, hx, h1⟩
  · exact ⟨hcce, hlbck, h0, hx⟩

/-- A write to RXFfA keeps the FIFO in order, whatever index it stores (R57). -/
theorem RxFifo.ok_writeAck {n : Nat} (h1 : 1 ≤ n) (h4 : n ≤ 4) {x : RxFifo} (hx : x.Ok n) (a : BitVec 3) :
    (x.writeAck n a).Ok n := RxFifo.ok_ack h1 h4 hx a

/-- A completed transmission leaves what the invariant speaks of. -/
theorem Ctrl.Ok.complete {n : Nat} {c : Ctrl} (h : c.Ok n) (m : Fin 3) (tc : Bool) : (c.complete m tc).Ok n := by
  simpa only [Ctrl.complete] using h

/-- Every register write keeps a controller in order: CCE latches with the request, LBCK goes with TEST, and an acknowledge keeps
the FIFO's indices in order (R50, R51, R58). -/
theorem Ctrl.ok_write {n : Nat} (h1 : 1 ≤ n) (h4 : n ≤ 4) {c : Ctrl} (hc : c.Ok n) (r : CtrlReg) (w : Word) :
    (c.write n r w).Ok n := by
  obtain ⟨hcce, hlbck, h0, h1'⟩ := id hc
  cases r with
  | cccr =>
    refine ⟨?_, ?_, ?_⟩ <;> simp only [Ctrl.write, Ctrl.writeCccr_eq]
    · simp +contextual
    · split <;> simp_all
    · exact ⟨h0, h1'⟩
  | test =>
    simp only [Ctrl.write, Ctrl.writeTest]
    split
    · rename_i h
      exact ⟨hcce, fun _ => (Bool.and_eq_true _ _ ▸ h).2, h0, h1'⟩
    · exact hc
  | rxa f => exact hc.setFifo (RxFifo.ok_writeAck h1 h4 (hc.fifo f) _) f
  | dbtp => simp only [Ctrl.write]; split <;> exact hc
  | nbtp => simp only [Ctrl.write]; split <;> exact hc
  | rxgfc => simp only [Ctrl.write]; split <;> exact hc
  | _ => exact hc

/-- A controller after reset is in order. -/
theorem Ctrl.ok_reset {n : Nat} (h1 : 1 ≤ n) : Ctrl.reset.Ok n := by
  have hf : RxFifo.reset.Ok n := ⟨Nat.zero_le n, h1, h1, (Nat.zero_mod n).symm⟩
  exact ⟨nofun, nofun, hf, hf⟩

/-! The invariant taken apart. -/

theorem State.Inv.depth {s : State} (h : s.Inv) : 1 ≤ s.params.fifoDepth ∧ s.params.fifoDepth ≤ 4 := by
  obtain ⟨⟨_, _, h1, h4, _⟩, _⟩ := h
  exact ⟨h1, h4⟩

theorem State.Inv.wf {s : State} (h : s.Inv) : Memory.wf s.mem := h.2.1

theorem State.Inv.ctrl_ok {s : State} (h : s.Inv) (i : BitVec 2) : (s.ctrl i).Ok s.params.fifoDepth := h.2.2.1 i

theorem State.Inv.fifo_ok {s : State} (h : s.Inv) (i : BitVec 2) (q : FifoId) : ((s.ctrl i).fifo q).Ok s.params.fifoDepth :=
  (h.ctrl_ok i).fifo q

/-- The invariant moves to a state with the same parameters and sequencer position, its memory and controllers in order. -/
theorem State.Inv.congr {s t : State} (h : s.Inv) (hparams : t.params = s.params) (hbusy : t.busy = s.busy)
    (hphase : t.phase = s.phase) (hcur : t.cur = s.cur) (htarget : t.target = s.target) (hmem : Memory.wf t.mem)
    (hctrl : ∀ i, (t.ctrl i).Ok s.params.fifoDepth) : t.Inv := by
  obtain ⟨hlegal, _, _, hidle, hpoll⟩ := h
  refine ⟨hparams ▸ hlegal, hmem, fun i => hparams ▸ hctrl i, by rw [hbusy, hphase]; exact hidle, ?_⟩
  unfold State.PollOk State.Known
  rw [hphase, hparams, hcur, htarget]
  exact hpoll

/-- An idle sequencer makes the sequencer's part of the invariant hold. -/
theorem State.Inv.of_idle {s t : State} (h : s.Inv) (hparams : t.params = s.params) (hbusy : t.busy = false)
    (hphase : t.phase = .idle) (hmem : Memory.wf t.mem) (hctrl : ∀ i, (t.ctrl i).Ok s.params.fifoDepth) : t.Inv := by
  refine ⟨hparams ▸ h.1, hmem, fun i => hparams ▸ hctrl i, by simp [hbusy, hphase], ?_⟩
  intro hpoll
  rw [hphase] at hpoll
  cases hpoll

theorem State.Inv.finish {s : State} (h : s.Inv) (st : Status) (r : Word) : (s.finish st r).Inv :=
  h.of_idle rfl rfl rfl h.wf h.ctrl_ok

/-- A controller in order put into the state. -/
theorem State.Inv.setCtrl {s : State} (h : s.Inv) {i : BitVec 2} {c : Ctrl} (hc : c.Ok s.params.fifoDepth) :
    (s.setCtrl i c).Inv := by
  refine h.congr rfl rfl rfl rfl rfl h.wf fun j => ?_
  by_cases hj : j = i
  · subst hj; rwa [s.ctrl_setCtrl_self]
  · rw [s.ctrl_setCtrl_ne c hj]; exact h.ctrl_ok j

theorem State.Inv.regWrite {s : State} (h : s.Inv) (i : BitVec 2) (r : CtrlReg) (w : Word) : (s.regWrite i r w).Inv := by
  obtain ⟨h1, h4⟩ := h.depth
  exact h.setCtrl (Ctrl.ok_write h1 h4 (h.ctrl_ok i) r w)

theorem State.Inv.memWrites {s : State} (h : s.Inv) (i : BitVec 2) (off : Nat) (ws : List Word) : (s.memWrites i off ws).Inv :=
  h.congr rfl rfl rfl rfl rfl (Memory.wf_writeSlice _ _ _ _ h.wf) h.ctrl_ok

/-- A host write to a sequencer register: only an accepted CMD write moves the sequencer (R41). -/
theorem State.Inv.seqWrite {s : State} (h : s.Inv) (r : SeqReg) (w : Word) : (s.seqWrite r w).Inv := by
  rcases s.seqWrite_cases r w with ⟨_, _, hw⟩ | ⟨_, _, _, _, _, _, _, hw⟩
  · rw [hw]
    exact ⟨h.1, h.wf, h.ctrl_ok, by simp, nofun⟩
  · rw [hw]
    exact h

/-- Waiting: finished, or one less on the budget (R223). -/
theorem State.Inv.pollStep {s : State} (h : s.Inv) : s.pollStep.Inv := by
  rcases s.pollStep_cases with ⟨_, hs⟩ | ⟨_, _, hs⟩ | ⟨_, _, hs⟩ <;> rw [hs]
  · exact h.finish _ _
  · exact h.finish _ _
  · exact h

/-- A delivery: the lost flag, or one frame pushed into a FIFO that is not full (R394). -/
theorem State.Inv.deliver {s : State} (h : s.Inv) (i : BitVec 2) (f : Frame) (d : Draws) : (s.deliver i f d).Inv := by
  obtain ⟨h1, h4⟩ := h.depth
  rcases s.deliver_cases i f d with ⟨_, hs⟩ | ⟨q, _, ⟨_, hs⟩ | ⟨hfull, hs⟩⟩ <;> rw [hs]
  · exact h
  · exact h.setCtrl (h.ctrl_ok i)
  · exact (h.memWrites _ _ _).setCtrl ((h.ctrl_ok i).setFifo (RxFifo.ok_push h1 h4 (h.fifo_ok i q) hfull) q)

/-- What a command does to memory keeps its canonical form. -/
theorem CommandEffect.wf {i : BitVec 2} {s t : State} (h : CommandEffect i s t) (hm : Memory.wf s.mem) : Memory.wf t.mem := by
  rcases h.slice with hs | ⟨_, off, ws, _, hs⟩ <;> rw [hs]
  · exact hm
  · exact Memory.wf_writeSlice _ _ _ _ hm

/-- What every register write keeps of a controller, a command keeps of every instance's. -/
theorem CommandEffect.ctrl_keeps {i : BitVec 2} {s t : State} (h : CommandEffect i s t) (P : Ctrl → Prop)
    (hw : ∀ c r w, P c → P (c.write s.params.fifoDepth r w)) {j : BitVec 2} (hj : P (s.ctrl j)) : P (t.ctrl j) := by
  by_cases hi : j = i
  · subst hi; exact h.written.keeps P hw hj
  · rwa [h.others j hi]

/-- What a command does to the controllers keeps them in order. -/
theorem CommandEffect.ctrl_ok {i : BitVec 2} {s t : State} (h : CommandEffect i s t) (hs : s.Inv) (j : BitVec 2) :
    (t.ctrl j).Ok s.params.fifoDepth := by
  obtain ⟨h1, h4⟩ := hs.depth
  exact h.ctrl_keeps (·.Ok s.params.fifoDepth) (fun _ r w hc => Ctrl.ok_write h1 h4 hc r w) (hs.ctrl_ok j)

/-- A command the sequencer runs ends idle, or waits as the invariant asks (R155). -/
theorem State.Inv.command {s t : State} {c : Instr} (h : s.Inv) (hp : s.phase = .exec) (hd : decode s.cur = .ok c)
    (he : exec c s = .next t) : t.Inv := by
  have heff := exec_effect he
  have hmem := heff.wf h.wf
  have hctrl := heff.ctrl_ok h
  rcases exec_end he with ⟨hbusy, hphase⟩ | ⟨hbusy, hphase, hk, hwait⟩
  · exact h.of_idle heff.params hbusy hphase hmem hctrl
  · obtain ⟨hlegal, _, _, hidle, _⟩ := h
    have hinst := decode_inst hd
    refine ⟨heff.params ▸ hlegal, hmem, fun j => heff.params ▸ hctrl j, ?_, fun _ => ?_⟩
    · rw [hbusy, hidle, hp, hphase]; simp
    · rw [hinst] at hwait hk
      unfold State.Known
      rw [heff.cur, heff.params, hd]
      exact ⟨hk, hwait.imp (And.imp_left (congrArg _)) (And.imp_left (congrArg _))⟩

/-- Every controller of the reset state (R69). -/
@[simp] theorem State.ctrl_reset (i : BitVec 2) : State.reset.ctrl i = Ctrl.reset := by
  simp [State.ctrl, State.reset, Vector.get_eq_getElem]

/-- Every controller after a reset step (R480). -/
@[simp] theorem State.ctrl_resetStep (s : State) (i : BitVec 2) : s.resetStep.ctrl i = Ctrl.reset := State.ctrl_reset i

/-- The reset step keeps parameters and memory and puts the rest in order (R480). -/
theorem State.Inv.resetStep {s : State} (h : s.Inv) : s.resetStep.Inv := by
  refine h.of_idle rfl rfl rfl h.wf fun i => ?_
  rw [s.ctrl_resetStep]
  exact Ctrl.ok_reset h.depth.1

/-- Every agent's step keeps the invariant. -/
theorem TurnEffect.inv {s t : State} {u : Turn} (h : TurnEffect s u t) (hs : s.Inv) : t.Inv := by
  cases h with
  | stay => exact hs
  | reject => exact hs.finish _ _
  | command c _ hp hd he => exact hs.command hp hd he
  | poll => exact hs.pollStep
  | stick => exact hs
  | hostRead => exact hs
  | seqWrite _ _ v r => exact hs.seqWrite r v
  | regWrite _ _ v i r => exact hs.regWrite i r v
  | ramWrite => exact hs.memWrites _ _ _
  | sync i => exact hs.setCtrl (hs.ctrl_ok i)
  | complete i => exact hs.setCtrl ((hs.ctrl_ok i).complete _ _)
  | loopback i => exact (hs.setCtrl ((hs.ctrl_ok i).complete _ _)).deliver _ _ _
  | receive => exact hs.deliver _ _ _
  | busOff i => exact hs.setCtrl ⟨fun _ => rfl, (hs.ctrl_ok i).2⟩
  | reset => exact hs.resetStep

/-- Settles O54: one case for each effect a step can have. -/
theorem everyStepKeepsInvariantAndParameters : Obligations.EveryStepKeepsInvariantAndParameters := by
  unfold Obligations.EveryStepKeepsInvariantAndParameters
  intro s t h
  exact ⟨(step_effect h).params, fun hs => (step_effect h).inv hs⟩

end Sys2Proof.Machine

/-!
What a step leaves alone: the slots of the filled window (R124), the protected registers and the filter table outside CONFIGURING
(R52, R109), pending requests and INIT_ACK (R59, R47).
-/

namespace Sys2Proof.Machine

/-- Address `a` lies in the slot at the put index of a FIFO of instance `i` that is not full: where a delivery may write
(R394). -/
def State.InPutSlot (s : State) (i : BitVec 2) (a : Nat) : Prop :=
  ∃ q, ((s.ctrl i).fifo q).fl.toNat ≠ s.params.fifoDepth ∧
    s.params.msgram i + rxslot s.params q ((s.ctrl i).fifo q).pi.toNat ≤ a ∧
    a < s.params.msgram i + rxslot s.params q ((s.ctrl i).fifo q).pi.toNat + 72

/-- A delivery leaves every byte outside the slot at the put index (R394). -/
theorem State.readByte_deliver (s : State) (i : BitVec 2) {f : Frame} (d : Draws) (hlen : f.bytes.length ≤ 64) {a : Nat}
    (ha : ¬s.InPutSlot i a) : (s.deliver i f d).mem.readByte a = s.mem.readByte a := by
  rcases s.deliver_cases i f d with ⟨_, h⟩ | ⟨q, _, ⟨_, h⟩ | ⟨hfull, h⟩⟩ <;> rw [h]
  · rfl
  · refine s.readByte_memWrites_outside i _ _ fun hin => ha ⟨q, hfull, hin.1, ?_⟩
    rw [length_storedWords] at hin
    omega

@[simp] theorem Ctrl.fifo_complete (c : Ctrl) (m : Fin 3) (tc : Bool) (q : FifoId) : (c.complete m tc).fifo q = c.fifo q := by
  cases q <;> rfl

/-- A completed transmission does not move the slots a delivery may write. -/
theorem State.inPutSlot_complete (s : State) (i : BitVec 2) (m : Fin 3) (tc : Bool) (a : Nat) :
    (s.setCtrl i ((s.ctrl i).complete m tc)).InPutSlot i a ↔ s.InPutSlot i a := by
  simp [State.InPutSlot]

/-- A delivery writes within the receive slots of the instance's slice (R107). -/
theorem State.InPutSlot.bounds {s : State} {i : BitVec 2} {a : Nat} (h : s.InPutSlot i a) (hs : s.Inv) :
    s.params.msgram i + Config.f0Off ≤ a ∧ a < s.params.msgram i + s.params.sliceBytes := by
  obtain ⟨q, _, hlo, hhi⟩ := h
  obtain ⟨_, _, hpi, _⟩ := hs.fifo_ok i q
  have := rxslot_bounds s.params q hpi
  omega

/-- No byte of a slot of the filled window is one a delivery may write: the slot at the put index is none of the window (R124). -/
theorem State.not_inPutSlot_of_inWindow {s : State} (hs : s.Inv) {i : BitVec 2} {q : FifoId} {k b : Nat}
    (hk : ((s.ctrl i).fifo q).InWindow s.params.fifoDepth k) (hb : b < 72) :
    ¬s.InPutSlot i (s.params.msgram i + rxslot s.params q k + b) := by
  rintro ⟨f, hfull, hlo, hhi⟩
  have hne : f = q → ((s.ctrl i).fifo f).pi.toNat ≠ k := by
    rintro rfl rfl
    exact RxFifo.pi_not_inWindow (hs.fifo_ok i f) hfull hk
  obtain ⟨_, _, hpi, _⟩ := hs.fifo_ok i f
  have := rxslot_disjoint s.params hpi (hk.lt (hs.fifo_ok i q)) hne
  omega

/-- An engine step leaves every byte outside the slots at its instance's put indices (R394, R396). -/
theorem TurnEffect.readByte_of_engine {s t : State} {u : Turn} (h : TurnEffect s u t) {i : BitVec 2} {m : Fin 3} {ok : Bool}
    {f : Frame} {d : Draws} (hu : u = .sync i ∨ u = .txDone i m ok d ∨ u = .rxFrame i f d ∨ u = .busOff i) {a : Nat}
    (ha : ¬s.InPutSlot i a) : t.mem.readByte a = s.mem.readByte a := by
  rcases hu with rfl | rfl | rfl | rfl
  · cases h <;> rfl
  · cases h with
    | loopback _ _ _ _ f hlen =>
      exact State.readByte_deliver _ i d hlen (mt (s.inPutSlot_complete i m true a).1 ha)
    | _ => rfl
  · cases h with
    | receive _ _ _ hlen => exact s.readByte_deliver i d hlen ha
    | _ => rfl
  · cases h <;> rfl

/-- Settles O47: a delivery writes only the slot at a put index, which is no slot of a filled window. -/
theorem engineNeverOverwritesFilledWindow : Obligations.EngineNeverOverwritesFilledWindow := by
  unfold Obligations.EngineNeverOverwritesFilledWindow
  intro s t rest i m ok f d hs hagenda hstep q k hk b hb
  have hslot := State.not_inPutSlot_of_inWindow (s := { s with agenda := rest }) hs hk hb
  obtain ⟨u, ha, hu⟩ : ∃ u, s.agenda = u :: rest ∧
      (u = .sync i ∨ u = .txDone i m ok d ∨ u = .rxFrame i f d ∨ u = .busOff i) := by
    rcases hagenda with ha | ha | ha | ha <;> exact ⟨_, ha, by simp⟩
  rw [step_cons ha] at hstep
  exact (State.turnStep_effect hstep).readByte_of_engine hu hslot

/-- CONFIGURING is INIT_ACK with CCE (R25). -/
theorem Ctrl.configuring_iff (c : Ctrl) : c.configuring = true ↔ c.initAck = true ∧ c.cce = true := Bool.and_eq_true_iff

theorem Ctrl.configuring_eq_false (c : Ctrl) : c.configuring = false ↔ ¬(c.initAck = true ∧ c.cce = true) := by
  rw [← c.configuring_iff, Bool.not_eq_true]

/-- The registers and bits that R50 to R55 protect are the same in both controllers. -/
def Ctrl.SameProtected (c c' : Ctrl) : Prop :=
  c'.nbtp = c.nbtp ∧ c'.dbtp = c.dbtp ∧ c'.rxgfc = c.rxgfc ∧ c'.mon = c.mon ∧ c'.dar = c.dar ∧ c'.test = c.test ∧
    c'.fdoe = c.fdoe ∧ c'.brse = c.brse ∧ c'.lbck = c.lbck

theorem Ctrl.SameProtected.refl (c : Ctrl) : c.SameProtected c := ⟨rfl, rfl, rfl, rfl, rfl, rfl, rfl, rfl, rfl⟩

/-- A relation that holds from a controller to itself, and to the one put in its place, holds for every instance. -/
theorem State.ctrl_setCtrl_rel (R : Ctrl → Ctrl → Prop) (hrefl : ∀ c, R c c) {s : State} {j : BitVec 2} {c : Ctrl}
    (hc : R (s.ctrl j) c) (i : BitVec 2) : R (s.ctrl i) ((s.setCtrl j c).ctrl i) := by
  by_cases hi : i = j
  · subst hi; rwa [s.ctrl_setCtrl_self]
  · rw [s.ctrl_setCtrl_ne c hi]; exact hrefl _

/-- `c'` is `c` but for the FIFOs and the interrupt flags, which is all a delivery changes (R394). -/
def Ctrl.Delivered (c c' : Ctrl) : Prop := ∃ fifo0 fifo1 ir, c' = { c with fifo0 := fifo0, fifo1 := fifo1, ir := ir }

theorem Ctrl.Delivered.refl (c : Ctrl) : c.Delivered c := ⟨c.fifo0, c.fifo1, c.ir, rfl⟩

theorem State.ctrl_deliver (s : State) (j : BitVec 2) (f : Frame) (d : Draws) (i : BitVec 2) :
    (s.ctrl i).Delivered ((s.deliver j f d).ctrl i) := by
  rcases s.deliver_cases j f d with ⟨_, h⟩ | ⟨q, _, ⟨_, h⟩ | ⟨_, h⟩⟩ <;> rw [h]
  · exact Ctrl.Delivered.refl _
  · exact State.ctrl_setCtrl_rel Ctrl.Delivered Ctrl.Delivered.refl ⟨_, _, _, rfl⟩ i
  · rw [Ctrl.setFifo_frame]
    exact State.ctrl_setCtrl_rel (s := s.memWrites j _ _) Ctrl.Delivered Ctrl.Delivered.refl ⟨_, _, _, rfl⟩ i

theorem Ctrl.SameProtected.of_delivered {c c' : Ctrl} (h : c.Delivered c') : c.SameProtected c' := by
  obtain ⟨_, _, _, rfl⟩ := h
  exact SameProtected.refl c

/-- A register write outside CONFIGURING keeps what is protected, of every instance (R52). -/
theorem State.sameProtected_regWrite {s : State} {j : BitVec 2} (i : BitVec 2) (r : CtrlReg) (w : Word)
    (hc : j = i → (s.ctrl i).configuring = false) : (s.ctrl i).SameProtected ((s.regWrite j r w).ctrl i) := by
  by_cases hj : i = j
  · subst hj
    rw [s.ctrl_regWrite_self]
    exact Ctrl.write_protected _ r w (hc rfl)
  · rw [s.ctrl_regWrite_ne r w hj]
    exact Ctrl.SameProtected.refl _

/-- Outside CONFIGURING a command keeps what is protected: its body writes at most one register, and CFG_MODE's, which writes two,
looks at CONFIGURING first (R52, R224). -/
theorem exec_sameProtected {c : Instr} {s t : State} (h : exec c s = .next t)
    (hc : (s.ctrl c.inst).configuring = false) : (s.ctrl c.inst).SameProtected (t.ctrl c.inst) := by
  have same : ∀ i, (s.ctrl i).SameProtected (s.ctrl i) := fun i => .refl _
  have write : ∀ i r w, (s.ctrl i).configuring = false → (s.ctrl i).SameProtected ((s.regWrite i r w).ctrl i) :=
    fun i r w hi => s.sameProtected_regWrite i r w fun _ => hi
  cases c <;> simp only [exec, Instr.inst] at h hc ⊢
  case lengthToDlc => unfold execLengthToDlc at h; split at h <;> cases h <;> exact same _
  case dlcToLength => unfold execDlcToLength at h; split at h <;> cases h <;> exact same _
  all_goals rcases onInst_cases h with ⟨_, rfl⟩ | ⟨_, rfl⟩
  -- an unknown instance, and a body that writes no register
  any_goals exact same _
  case enterConfig.inl => simp only [State.enterConfig]; split; exacts [same _, write _ _ _ hc]
  case leaveConfig.inl => simp only [State.leaveConfig]; split; exacts [same _, write _ _ _ hc]
  case cfgMode.inl => simp only [State.cfgMode, hc]; exact same _
  case setNominalTiming.inl => exact write _ _ _ hc
  case setFdTiming.inl => exact write _ _ _ hc
  case filterInit.inl i _ =>
    simp only [State.filterInit, State.filterZero_eq]
    split
    · exact same _
    · exact State.sameProtected_regWrite (s := s.memWrites i 0 _) i _ _ fun _ => hc
  case setStdFilter.inl => simp only [State.setStdFilter]; split; exacts [same _, same _]
  case setExtFilter.inl => simp only [State.setExtFilter]; split; exacts [same _, same _]
  case transmit.inl i _ =>
    simp only [State.transmit]
    split
    · exact same _
    · split
      · exact same _
      · exact State.sameProtected_regWrite (s := s.memWrites i _ _) i _ _ fun _ => hc
  case availableRx.inl => simp only [State.availableRx]; split; exacts [same _, same _]
  case receive.inl i _ =>
    simp only [State.receive]
    split
    · exact same _
    · split
      · exact same _
      · split
        · exact State.sameProtected_regWrite (s := { s with fr := _ }) i _ _ fun _ => hc
        · exact same _
  case fifoRelease.inl =>
    simp only [State.fifoRelease]
    split
    · exact same _
    · split
      · exact same _
      · exact write _ _ _ hc
  case enableIrq.inl => exact write _ _ _ hc
  case disableIrq.inl => exact write _ _ _ hc

/-- Outside CONFIGURING no step but reset changes a protected register or bit (R52). -/
theorem TurnEffect.sameProtected {s t : State} {u : Turn} (h : TurnEffect s u t) {i : BitVec 2}
    (hc : (s.ctrl i).configuring = false) (hu : u ≠ .reset) : (s.ctrl i).SameProtected (t.ctrl i) := by
  have set : ∀ j c, (s.ctrl j).SameProtected c → (s.ctrl i).SameProtected ((s.setCtrl j c).ctrl i) :=
    fun j c hj => State.ctrl_setCtrl_rel _ Ctrl.SameProtected.refl hj i
  cases h with
  | command c _ _ _ h =>
    by_cases hi : i = c.inst
    · subst hi; exact exec_sameProtected h hc
    · rw [(exec_effect h).others i hi]; exact .refl _
  | poll => rw [State.ctrl_congr s.pollStep_ctrls]; exact .refl _
  | seqWrite _ _ v r => rw [State.ctrl_congr (s.seqWrite_ctrls r v)]; exact .refl _
  | regWrite _ _ v j r => exact s.sameProtected_regWrite i r v fun _ => hc
  | sync j => exact set j _ (.refl _)
  | complete j => exact set j _ (.refl _)
  | busOff j => exact set j _ (.refl _)
  | receive j f d => exact .of_delivered (s.ctrl_deliver j f d i)
  | loopback j m _ d f =>
    obtain ⟨f0, f1, ir, hd⟩ := (s.setCtrl j ((s.ctrl j).complete m true)).ctrl_deliver j f d i
    rw [hd]
    exact set j _ (.refl _)
  | reset => exact absurd rfl hu
  | _ => exact .refl _

/-- Outside CONFIGURING a run of word writes leaves the filter table (R109). -/
theorem Memory.readByte_writeSlice_filter (base : Nat) (ws : List Word) : ∀ (m : Memory) (off : Nat) {b : Nat},
    b < Config.f0Off → (writeSlice base false m off ws).readByte (base + b) = m.readByte (base + b) := by
  induction ws with
  | nil => intro m off b _; rfl
  | cons w ws ih =>
    intro m off b hb
    simp only [writeSlice]
    rw [ih _ _ hb]
    split
    · rename_i hgate
      have hoff : Config.f0Off ≤ off := by simpa [gateOpen] using hgate
      exact readByte_writeWord_outside m w (by omega)
    · rfl

/-- A run of word writes in a slice leaves the filter table of every instance that is not CONFIGURING: its own by the gate of
R109, another's because the slices are apart. -/
theorem State.readByte_filter_memWrites (s : State) {i : BitVec 2} (j : BitVec 2) {off : Nat} {ws : List Word}
    (hrange : off + 4 * ws.length ≤ s.params.sliceBytes) (hc : (s.ctrl i).configuring = false) {b : Nat}
    (hb : b < Config.f0Off) :
    (s.memWrites j off ws).mem.readByte (s.params.msgram i + b) = s.mem.readByte (s.params.msgram i + b) := by
  by_cases hj : i = j
  · subst hj
    rw [State.memWrites_mem, hc]
    exact Memory.readByte_writeSlice_filter _ ws _ _ hb
  · have := msgram_disjoint s.params hj
    have := f0Off_le_sliceBytes s.params
    exact s.readByte_memWrites_outside j off ws (by omega)

/-- A delivery leaves every filter table (R394). -/
theorem State.readByte_filter_deliver {s : State} (hs : s.Inv) (i j : BitVec 2) {f : Frame} (d : Draws)
    (hlen : f.bytes.length ≤ 64) {b : Nat} (hb : b < Config.f0Off) :
    (s.deliver j f d).mem.readByte (s.params.msgram i + b) = s.mem.readByte (s.params.msgram i + b) := by
  refine s.readByte_deliver j d hlen fun hslot => ?_
  have hbounds := hslot.bounds hs
  have := f0Off_le_sliceBytes s.params
  by_cases hj : i = j
  · subst hj; omega
  · have := msgram_disjoint s.params hj
    omega

/-- Outside CONFIGURING no step changes a byte of an instance's filter table (R109, R263). -/
theorem TurnEffect.readByte_filter {s t : State} {u : Turn} (h : TurnEffect s u t) (hs : s.Inv) {i : BitVec 2}
    (hc : (s.ctrl i).configuring = false) {b : Nat} (hb : b < Config.f0Off) :
    t.mem.readByte (s.params.msgram i + b) = s.mem.readByte (s.params.msgram i + b) := by
  cases h with
  | command c _ _ _ h =>
    rcases (exec_effect h).slice with hm | ⟨_, off, ws, hrange, hm⟩
    · rw [hm]
    · rw [hm]; exact s.readByte_filter_memWrites c.inst hrange hc hb
  | poll => rw [s.pollStep_mem]
  | seqWrite _ _ v r => rw [s.seqWrite_mem]
  | ramWrite _ _ v j off _ haddr hoff =>
    obtain ⟨⟨_, _, _, _, hbase⟩, _⟩ := hs
    refine s.readByte_filter_memWrites j ?_ hc hb
    have hmod : s.params.sliceBytes % 4 = 0 := by
      simp only [Params.sliceBytes, Params.txbOff, Params.txeOff, Params.f1Off, Config.f0Off, Config.eflOff, Config.slotBytes,
        Config.stdMax, Config.extMax, Config.numTxbuf]
      omega
    have hslice : (j.toNat * s.params.sliceBytes) % 4 = 0 := by rw [Nat.mul_mod, hmod, Nat.mul_zero]
    simp only [Params.msgram] at haddr
    simp only [List.length_cons, List.length_nil]
    omega
  | receive j f d hlen => exact State.readByte_filter_deliver hs i j d hlen hb
  | loopback j m ok d f hlen =>
    have hs' : (s.setCtrl j ((s.ctrl j).complete m true)).Inv := hs.setCtrl ((hs.ctrl_ok j).complete m true)
    exact State.readByte_filter_deliver hs' i j d hlen hb
  | _ => rfl

/-- Settles O58: the registers by `TurnEffect.sameProtected`, the filter table by `TurnEffect.readByte_filter`. -/
theorem protectedStateChangesOnlyInConfiguring : Obligations.ProtectedStateChangesOnlyInConfiguring := by
  unfold Obligations.ProtectedStateChangesOnlyInConfiguring
  intro s t i hs _ hstep hnot hreset
  have hc : (s.ctrl i).configuring = false := (s.ctrl i).configuring_eq_false.2 hnot
  have heff := step_effect hstep
  have hu : s.nextTurn ≠ .reset := State.nextTurn_ne nofun hreset
  obtain ⟨hnbtp, hdbtp, hrxgfc, hmon, hdar, htest, hfdoe, hbrse, hlbck⟩ := heff.sameProtected hc hu
  exact ⟨hnbtp, hdbtp, hrxgfc, hmon, hdar, htest, hfdoe, hbrse, hlbck, fun b hb => heff.readByte_filter hs hc hb⟩

/-- What is pending in mailbox `k` of `c` is pending in `c'` (R59). -/
def Ctrl.KeepsRequest (k : Fin 3) (c c' : Ctrl) : Prop := c.trp.getLsbD k.val = true → c'.trp.getLsbD k.val = true

theorem Ctrl.KeepsRequest.refl (k : Fin 3) (c : Ctrl) : c.KeepsRequest k c := id

/-- No register write takes a pending request away (R59). -/
theorem Ctrl.keepsRequest_write (n : Nat) (k : Fin 3) (c : Ctrl) (r : CtrlReg) (w : Word) :
    c.KeepsRequest k (c.write n r w) := by
  intro h
  rcases c.write_trp n r w with hw | hw <;> rw [hw]
  · exact h
  · simp [h]

/-- The completion of a mailbox keeps the requests of the others (R392). -/
theorem Ctrl.keepsRequest_complete {m k : Fin 3} (hne : m ≠ k) (c : Ctrl) (tc : Bool) :
    c.KeepsRequest k (c.complete m tc) := by
  have hbit : ∀ (p : BitVec 3) (m k : Fin 3), m ≠ k → p.getLsbD k.val = true →
      (p &&& ~~~(1#3 <<< m.val)).getLsbD k.val = true := by decide
  exact hbit _ _ _ hne

theorem Ctrl.KeepsRequest.of_delivered {k : Fin 3} {c c' : Ctrl} (h : c.Delivered c') : c.KeepsRequest k c' := by
  obtain ⟨_, _, _, rfl⟩ := h
  exact id

/-- The completion of a mailbox of an instance keeps every other mailbox's request, of every instance (R392). -/
theorem State.keepsRequest_complete (s : State) {i j : BitVec 2} {m k : Fin 3} (hne : ¬(j = i ∧ m = k)) (tc : Bool) :
    (s.ctrl i).KeepsRequest k ((s.setCtrl j ((s.ctrl j).complete m tc)).ctrl i) := by
  by_cases hj : i = j
  · subst hj
    rw [s.ctrl_setCtrl_self]
    exact Ctrl.keepsRequest_complete (fun hm => hne ⟨rfl, hm⟩) _ tc
  · rw [s.ctrl_setCtrl_ne _ hj]
    exact .refl k _

/-- A pending request is kept by every step but reset and the mailbox's own completion (R59, R305). -/
theorem TurnEffect.keepsRequest {s t : State} {u : Turn} (h : TurnEffect s u t) {i : BitVec 2} {k : Fin 3}
    (hreset : u ≠ .reset) (htx : ∀ ok d, u ≠ .txDone i k ok d) : (s.ctrl i).KeepsRequest k (t.ctrl i) := by
  have set : ∀ j c, (s.ctrl j).KeepsRequest k c → (s.ctrl i).KeepsRequest k ((s.setCtrl j c).ctrl i) :=
    fun j c hj => State.ctrl_setCtrl_rel _ (Ctrl.KeepsRequest.refl k) hj i
  cases h with
  | command c _ _ _ h =>
    exact (exec_effect h).ctrl_keeps (fun c => c.trp.getLsbD k.val = true) fun c r w => c.keepsRequest_write _ k r w
  | poll => rw [State.ctrl_congr s.pollStep_ctrls]; exact .refl k _
  | seqWrite _ _ v r => rw [State.ctrl_congr (s.seqWrite_ctrls r v)]; exact .refl k _
  | regWrite _ _ v j r => exact set j _ ((s.ctrl j).keepsRequest_write _ k r v)
  | sync j => exact set j _ (.refl k _)
  | busOff j => exact set j _ (.refl k _)
  | complete j m ok d tc =>
    exact s.keepsRequest_complete (fun ⟨hj, hm⟩ => htx ok d (by rw [hj, hm])) tc
  | loopback j m ok d f =>
    have hcomplete := s.keepsRequest_complete (i := i) (j := j) (m := m) (k := k)
      (fun ⟨hj, hm⟩ => htx ok d (by rw [hj, hm])) true
    exact fun h => Ctrl.KeepsRequest.of_delivered (State.ctrl_deliver _ j f d i) (hcomplete h)
  | receive j f d => exact .of_delivered (s.ctrl_deliver j f d i)
  | reset => exact absurd rfl hreset
  | _ => exact .refl k _

/-- INIT_ACK is kept by every step but reset and the instance's synchronisation and bus-off (R47). -/
theorem TurnEffect.initAck_kept {s t : State} {u : Turn} (h : TurnEffect s u t) {i : BitVec 2} (hreset : u ≠ .reset)
    (hsync : u ≠ .sync i) (hbusOff : u ≠ .busOff i) : (t.ctrl i).initAck = (s.ctrl i).initAck := by
  have set : ∀ j c, c.initAck = (s.ctrl j).initAck → ((s.setCtrl j c).ctrl i).initAck = (s.ctrl i).initAck :=
    fun j c hj => State.ctrl_setCtrl_rel (fun c c' => c'.initAck = c.initAck) (fun _ => rfl) hj i
  have deliver : ∀ (s : State) j f d, ((s.deliver j f d).ctrl i).initAck = (s.ctrl i).initAck := fun s j f d => by
    obtain ⟨_, _, _, hd⟩ := s.ctrl_deliver j f d i
    rw [hd]
  cases h with
  | command c _ _ _ h =>
    exact (exec_effect h).ctrl_keeps (fun c => c.initAck = (s.ctrl i).initAck)
      (fun c r w hc => (c.write_initAck _ r w).trans hc) rfl
  | poll => rw [State.ctrl_congr s.pollStep_ctrls]
  | seqWrite _ _ v r => rw [State.ctrl_congr (s.seqWrite_ctrls r v)]
  | regWrite _ _ v j r => exact set j _ ((s.ctrl j).write_initAck _ r v)
  | sync j => rw [s.ctrl_setCtrl_ne _ fun hj => hsync (by rw [hj])]
  | busOff j => rw [s.ctrl_setCtrl_ne _ fun hj => hbusOff (by rw [hj])]
  | complete j => exact set j _ rfl
  | loopback j m _ d f => exact (deliver _ j f d).trans (set j _ rfl)
  | receive j f d => exact deliver s j f d
  | reset => exact absurd rfl hreset
  | _ => rfl

/-- Settles O59: `TurnEffect.keepsRequest` and `TurnEffect.initAck_kept`, read from the change back to the entry. -/
theorem onlyEngineOrResetChangesHardwareBits : Obligations.OnlyEngineOrResetChangesHardwareBits := by
  unfold Obligations.OnlyEngineOrResetChangesHardwareBits
  intro s t i hstep
  have heff := step_effect hstep
  refine ⟨fun m hbefore hafter => ?_, fun hchange => ?_⟩
  · by_contra hnot
    push Not at hnot
    have hkept := heff.keepsRequest (State.nextTurn_ne nofun fun rest => (hnot rest).1)
      (fun ok d => State.nextTurn_ne nofun fun rest => (hnot rest).2 ok d) hbefore
    rw [hafter] at hkept
    cases hkept
  · by_contra hnot
    push Not at hnot
    exact hchange (heff.initAck_kept (State.nextTurn_ne nofun fun rest => (hnot rest).1)
      (State.nextTurn_ne nofun fun rest => (hnot rest).2.1) (State.nextTurn_ne nofun fun rest => (hnot rest).2.2))

end Sys2Proof.Machine

/-!
Registers as words: a field placed where it was taken from is a masked word, so each register reads back what was written without
its reserved bits (R45, R49 to R65).
-/

namespace Sys2Proof.Machine

/-- A field put back where it was taken from: the word under the field's mask. -/
theorem place_extract (w : Word) (k n : Nat) : place (w.extractLsb' k n) k = w &&& place (BitVec.allOnes n) k := by
  apply BitVec.eq_of_getLsbD_eq
  intro i hi
  by_cases hk : k ≤ i
  · simp only [getLsbD_place, BitVec.getLsbD_and, BitVec.getLsbD_extractLsb', BitVec.getLsbD_allOnes, hi, hk,
      show k + (i - k) = i by omega]
    simp [Bool.and_comm]
  · simp [hk]

/-- A bit put back where it was taken from. -/
theorem flag_getLsbD (w : Word) (k : Nat) : flag (w.getLsbD k) k = w &&& flag true k := by
  apply BitVec.eq_of_getLsbD_eq
  intro i hi
  by_cases hk : i = k
  · subst hk; simp [hi]
  · simp [hk]

/-- A placed bit under a mask stays or goes. -/
theorem flag_and (b : Bool) (k : Nat) (m : Word) : flag b k &&& m = if m.getLsbD k = true then flag b k else 0#32 := by
  apply BitVec.eq_of_getLsbD_eq
  intro i hi
  by_cases hk : i = k
  · subst hk
    by_cases hm : m.getLsbD i = true
    · rw [if_pos hm, BitVec.getLsbD_and, hm, Bool.and_true]
    · rw [if_neg hm, BitVec.getLsbD_and, Bool.eq_false_iff.2 hm, Bool.and_false, BitVec.getLsbD_zero]
  · split <;> simp [hk]

/-- A flag that a 1 in its own bit of `w` clears (R61). -/
theorem flag_and_not (b : Bool) (w : Word) (k : Nat) : flag (b && !w.getLsbD k) k = flag b k &&& ~~~w := by
  apply BitVec.eq_of_getLsbD_eq
  intro i hi
  by_cases hk : i = k
  · subst hk; simp [hi]
  · simp [hk]

/-- A placed bit as 0 or 1 shifted. -/
theorem flag_eq_ite (b : Bool) (k : Nat) : flag b k = (if b = true then 1#32 else 0#32) <<< k := by cases b <;> rfl

theorem place_zero {n : Nat} (x : BitVec n) : place x 0 = x.setWidth 32 := BitVec.shiftLeft_zero _

theorem flag_zero (b : Bool) : flag b 0 = if b = true then 1#32 else 0#32 := (flag_eq_ite b 0).trans (BitVec.shiftLeft_zero _)

/-- The model lists a register's fields from the top bit down, the spec from bit 0 up. -/
theorem or_reverse_five (a b c d e : Word) : a ||| b ||| c ||| d ||| e = e ||| d ||| c ||| b ||| a := by ac_rfl

theorem or_reverse_seven (a b c d e f g : Word) :
    a ||| b ||| c ||| d ||| e ||| f ||| g = g ||| f ||| e ||| d ||| c ||| b ||| a := by ac_rfl

/-! The fields of each register, at the bits the spec gives them. -/

theorem IrqBits.word_eq (b : IrqBits) : b.word =
    (if b.rf0n = true then 1#32 else 0#32) ||| ((if b.rf0f = true then 1#32 else 0#32) <<< 1) |||
      ((if b.rf0l = true then 1#32 else 0#32) <<< 2) ||| ((if b.rf1n = true then 1#32 else 0#32) <<< 3) |||
      ((if b.rf1f = true then 1#32 else 0#32) <<< 4) ||| ((if b.rf1l = true then 1#32 else 0#32) <<< 5) |||
      ((if b.tc = true then 1#32 else 0#32) <<< 7) := by
  simp only [IrqBits.word, flag_zero, flag_eq_ite _ (_ + 1)]
  exact or_reverse_seven ..

theorem Ctrl.cccrWord_eq (c : Ctrl) : c.cccrWord =
    (if c.initAck = true then 1#32 else 0#32) ||| ((if c.cce = true then 1#32 else 0#32) <<< 1) |||
      ((if c.mon = true then 1#32 else 0#32) <<< 5) ||| ((if c.dar = true then 1#32 else 0#32) <<< 6) |||
      ((if c.test = true then 1#32 else 0#32) <<< 7) ||| ((if c.fdoe = true then 1#32 else 0#32) <<< 8) |||
      ((if c.brse = true then 1#32 else 0#32) <<< 9) := by
  simp only [Ctrl.cccrWord, flag_zero, flag_eq_ite _ (_ + 1)]
  exact or_reverse_seven ..

theorem Nbtp.word_eq (t : Nbtp) : t.word = (t.nsjw.setWidth 32 <<< 25) ||| (t.nbrp.setWidth 32 <<< 16) |||
    (t.ntseg1.setWidth 32 <<< 8) ||| t.ntseg2.setWidth 32 := by
  simp only [Nbtp.word, place, BitVec.shiftLeft_zero]

theorem Dbtp.word_eq (t : Dbtp) : t.word = ((if t.tdc = true then 1#32 else 0#32) <<< 23) ||| (t.dbrp.setWidth 32 <<< 16) |||
    (t.dtseg1.setWidth 32 <<< 8) ||| (t.dtseg2.setWidth 32 <<< 4) ||| t.dsjw.setWidth 32 := by
  simp only [Dbtp.word, flag_eq_ite, place, BitVec.shiftLeft_zero]

/-- RXFfS (R56). -/
theorem RxFifo.statusWord_eq (n : Nat) (x : RxFifo) (lost : Bool) : x.statusWord n lost =
    x.fl.setWidth 32 ||| (x.gi.setWidth 32 <<< 8) ||| (x.pi.setWidth 32 <<< 16) |||
      (if x.fl.toNat = n then 0x1000000#32 else 0#32) ||| (if lost = true then 0x2000000#32 else 0#32) := by
  have hfull : flag (decide (x.fl.toNat = n)) 24 = if x.fl.toNat = n then 0x1000000#32 else 0#32 := by
    by_cases h : x.fl.toNat = n <;> simp only [h, decide_true, decide_false, if_true, if_false] <;> rfl
  have hlost : flag lost 25 = if lost = true then 0x2000000#32 else 0#32 := by cases lost <;> rfl
  simp only [RxFifo.statusWord, hfull, hlost, place, BitVec.shiftLeft_zero]
  exact or_reverse_five ..

theorem FrameRegs.flagsWord_eq (r : FrameRegs) : r.flagsWord =
    (if r.xtd = true then 1#32 else 0#32) ||| ((if r.rtr = true then 1#32 else 0#32) <<< 1) |||
      ((if r.fdf = true then 1#32 else 0#32) <<< 2) ||| ((if r.brs = true then 1#32 else 0#32) <<< 3) |||
      ((if r.anmf = true then 1#32 else 0#32) <<< 8) := by
  simp only [FrameRegs.flagsWord, flag_zero, flag_eq_ite _ (_ + 1)]
  exact or_reverse_five ..

theorem FrameRegs.metaWord_eq (r : FrameRegs) : r.metaWord = r.fidx.setWidth 32 ||| (r.ts.setWidth 32 <<< 16) := by
  simp only [FrameRegs.metaWord, place, BitVec.shiftLeft_zero]
  exact BitVec.or_comm _ _

/-! What each register reads back of a word written to it. -/

theorem Nbtp.word_ofWord (w : Word) : (Nbtp.ofWord w).word = w &&& 0xFFFFFF7F#32 := by
  simp only [Nbtp.word, Nbtp.ofWord, place_extract, ← BitVec.and_or_distrib_left]
  rfl

theorem Dbtp.word_ofWord (w : Word) : (Dbtp.ofWord w).word = w &&& 0x009F1FFF#32 := by
  simp only [Dbtp.word, Dbtp.ofWord, place_extract, flag_getLsbD, ← BitVec.and_or_distrib_left]
  rfl

theorem Rxgfc.word_ofWord (w : Word) : (Rxgfc.ofWord w).word = w &&& 0x0F1F003C#32 := by
  simp only [Rxgfc.word, Rxgfc.ofWord, place_extract, ← BitVec.and_or_distrib_left]
  rfl

theorem IrqBits.word_ofWord (w : Word) : (IrqBits.ofWord w).word = w &&& 0xBF#32 := by
  simp only [IrqBits.word, IrqBits.ofWord, flag_getLsbD, ← BitVec.and_or_distrib_left]
  rfl

theorem IrqBits.word_clear (b : IrqBits) (w : Word) : (b.clear w).word = b.word &&& ~~~w := by
  simp only [IrqBits.word, IrqBits.clear, flag_and_not, ← BitVec.and_or_distrib_right]

theorem FrameRegs.idWord_writeId (r : FrameRegs) (w : Word) : (r.writeId w).idWord = w &&& 0x1FFFFFFF#32 := by
  simp only [FrameRegs.idWord, FrameRegs.writeId, place_extract]
  rfl

theorem FrameRegs.flagsWord_writeFlags (r : FrameRegs) (w : Word) : (r.writeFlags w).flagsWord = w &&& 0x10F#32 := by
  simp only [FrameRegs.flagsWord, FrameRegs.writeFlags, flag_getLsbD, ← BitVec.and_or_distrib_left]
  rfl

theorem FrameRegs.metaWord_writeMeta (r : FrameRegs) (w : Word) : (r.writeMeta w).metaWord = w &&& 0xFFFF007F#32 := by
  simp only [FrameRegs.metaWord, FrameRegs.writeMeta, place_extract, ← BitVec.and_or_distrib_left]
  rfl

/-- The mode bits of CCCR as read (R49). -/
theorem Ctrl.cccrWord_modes (c : Ctrl) :
    c.cccrWord &&& 0x3E0#32 = flag c.brse 9 ||| flag c.fdoe 8 ||| flag c.test 7 ||| flag c.dar 6 ||| flag c.mon 5 := by
  simp [Ctrl.cccrWord, BitVec.and_or_distrib_right, flag_and]

/-! Writes and reads of an instance's registers. -/

/-- A register read after a register write of the same instance. -/
theorem State.regRead_regWrite (s : State) (i : BitVec 2) (r r' : CtrlReg) (w : Word) :
    (s.regWrite i r w).regRead i r' = ((s.ctrl i).write s.params.fifoDepth r w).read s.params.fifoDepth r' := by
  simp [State.regRead, State.regWrite]

/-- A write that leaves the controller leaves the state. -/
theorem State.regWrite_same {s : State} {i : BitVec 2} {r : CtrlReg} {w : Word}
    (h : (s.ctrl i).write s.params.fifoDepth r w = s.ctrl i) : s.regWrite i r w = s := by
  rw [State.regWrite_eq, h, State.setCtrl_ctrl]

/-- A write to a register that R52 protects as a whole, or to TEST, is dropped outside CONFIGURING. -/
theorem Ctrl.write_dropped (n : Nat) {c : Ctrl} (h : c.configuring = false) (w : Word) :
    c.write n .nbtp w = c ∧ c.write n .dbtp w = c ∧ c.write n .rxgfc w = c ∧ c.write n .test w = c := by
  simp [Ctrl.write, Ctrl.writeTest, h]

/-- A word of a filter element is dropped outside CONFIGURING (R109). -/
theorem State.memWrites_word_closed {s : State} {i : BitVec 2} (hc : (s.ctrl i).configuring = false) {off : Nat}
    (hoff : off < Config.f0Off) (w : Word) : s.memWrites i off [w] = s := by
  simp [State.memWrites, Memory.writeSlice, gateOpen, hc, Nat.not_le.2 hoff]

/-- The mode bits of CCCR after a write in CONFIGURING (R50). -/
theorem Ctrl.modes_writeCccr {c : Ctrl} (h : c.configuring = true) (w : Word) :
    (c.writeCccr w).cccrWord &&& 0x3E0#32 = w &&& 0x3E0#32 := by
  simp only [Ctrl.cccrWord_modes, Ctrl.writeCccr_eq, h, if_true, flag_getLsbD, ← BitVec.and_or_distrib_left]
  rfl

/-- The mode bits of CCCR after a write outside CONFIGURING (R50). -/
theorem Ctrl.modes_writeCccr_kept {c : Ctrl} (h : c.configuring = false) (w : Word) :
    (c.writeCccr w).cccrWord &&& 0x3E0#32 = c.cccrWord &&& 0x3E0#32 := by
  simp [Ctrl.cccrWord_modes, Ctrl.writeCccr_eq, h]

/-- Settles O35: in CONFIGURING by what each register reads back, outside because the write is dropped. -/
theorem protectedWritesTakeEffectOnlyInConfiguring : Obligations.ProtectedWritesTakeEffectOnlyInConfiguring := by
  unfold Obligations.ProtectedWritesTakeEffectOnlyInConfiguring
  intro s i w
  refine ⟨fun hon => ?_, fun hoff => ?_⟩
  · have hc := (s.ctrl i).configuring_iff.2 hon
    simp only [State.regRead_regWrite]
    refine ⟨?_, ?_, ?_, fun htest => ?_, fun htest => State.regWrite_same ?_, ?_, fun off _ => ?_⟩
    · simp only [Ctrl.write, Ctrl.read, hc, if_true, Nbtp.word_ofWord]
    · simp only [Ctrl.write, Ctrl.read, hc, if_true, Dbtp.word_ofWord]
    · simp only [Ctrl.write, Ctrl.read, hc, if_true, Rxgfc.word_ofWord]
    · simp only [Ctrl.write, Ctrl.writeTest, Ctrl.read, hc, htest, Bool.and_self, if_true, flag_getLsbD]
      rfl
    · simp [Ctrl.write, Ctrl.writeTest, htest]
    · exact Ctrl.modes_writeCccr hc w
    · exact s.memRead_memWrites i off [w] (by simp [gateOpen, hc]) 0 Nat.one_pos
  · have hc := (s.ctrl i).configuring_eq_false.2 hoff
    obtain ⟨hnbtp, hdbtp, hrxgfc, htest⟩ := Ctrl.write_dropped s.params.fifoDepth hc w
    refine ⟨State.regWrite_same hnbtp, State.regWrite_same hdbtp, State.regWrite_same hrxgfc, State.regWrite_same htest,
      ?_, ?_, fun off h => State.memWrites_word_closed hc h w⟩
    · rw [State.regRead_regWrite]
      exact Ctrl.modes_writeCccr_kept hc w
    · obtain ⟨_, _, _, _, _, _, _, _, hlbck⟩ := s.sameProtected_regWrite i .cccr w fun _ => hc
      exact hlbck

/-- Settles O34: `Ctrl.writeCccr_eq`, its conditions spelled as the rule spells them. -/
theorem cccrWriteLatchesRequestAndGatesModes : Obligations.CccrWriteLatchesRequestAndGatesModes := by
  unfold Obligations.CccrWriteLatchesRequestAndGatesModes
  intro n c w
  simp only [Ctrl.write, Ctrl.writeCccr_eq, Ctrl.configuring_iff]
  refine ⟨?_, ?_⟩
  · congr 1
    · cases w.getLsbD 0 <;> rfl
    · by_cases h : c.initAck = true ∧ c.cce = true <;> cases hw : w.getLsbD 7 <;> simp [h]
  · simp +contextual

/-- A field at bit 0 is the word cut to the field's width. -/
theorem extract_low (w : Word) {m : Nat} (hm : m ≤ 32) : w.extractLsb' 0 m = w.setWidth m :=
  (BitVec.setWidth_eq_extractLsb' hm).symm

/-- A register write changes only the controllers, and of them only the instance's (R22). -/
theorem State.ctrlBecomes_regWrite (s : State) (i : BitVec 2) (r : CtrlReg) (w : Word) :
    s.CtrlBecomes (s.regWrite i r w) i ((s.ctrl i).write s.params.fifoDepth r w) :=
  ⟨s.ctrl_regWrite_self i r w, fun _ hj => s.ctrl_regWrite_ne r w hj⟩

/-- Settles O36: each register's fields at their bits, and each write as the record update it is. -/
theorem registerReadsAndUngatedWrites : Obligations.RegisterReadsAndUngatedWrites := by
  unfold Obligations.RegisterReadsAndUngatedWrites
  intro n c w f bit bits
  have low : w.extractLsb' 0 3 = w.setWidth 3 := extract_low w (by decide)
  refine ⟨?txbar, rfl, IrqBits.word_clear _ w, IrqBits.word_eq _, rfl, IrqBits.word_ofWord w, IrqBits.word_eq _, ?ils,
    place_zero _, ?ile, place_zero _, rfl, rfl, fun x => ⟨rfl, rfl⟩, ?rxa, place_zero _, rfl, rfl, rfl, place_zero _,
    Ctrl.cccrWord_eq c, flag_eq_ite _ _, Nbtp.word_eq _, Dbtp.word_eq _, rfl,
    fun s i r => ⟨rfl, rfl, s.ctrlBecomes_regWrite i r w⟩, ?rxs⟩
  case txbar => simp only [Ctrl.write, low]
  case ils => simp only [Ctrl.write, low]
  case ile => simp only [Ctrl.write, extract_low w (show 2 ≤ 32 by decide)]
  case rxa => simp only [Ctrl.write, RxFifo.writeAck, low]
  case rxs => cases f <;> exact RxFifo.statusWord_eq _ _ _

end Sys2Proof.Machine

/-!
The host's accesses and the sequencer's registers (R40 to R45, R100, R516), the bus-off step (R397) and the reset state (R69,
R515).
-/

namespace Sys2Proof.Machine

/-- A word access at an aligned address of a region is not refused (R103, R104, R110). -/
theorem not_refused {p : Params} {addr : Word} (h4 : addr.toNat % 4 = 0) (hmap : regionOf p addr.toNat ≠ .unmapped) :
    ¬Refused p .w32 addr := by
  rintro (h | h | h)
  · exact h rfl
  · exact h h4
  · exact hmap h

/-- The step of a host write that is answered (R516). -/
theorem step_hostWrite {s : State} {rest : List Turn} {addr v : Word} (ha : s.agenda = .hostWrite .w32 addr v :: rest)
    (hs : s.hostStuck = none) (h4 : addr.toNat % 4 = 0) (hmap : regionOf s.params addr.toNat ≠ .unmapped) :
    step s = .next (({ s with agenda := rest } : State).busWrite addr v) := by
  rw [step_cons ha]
  exact congrArg _ (State.hostAccess_accepted (s := { s with agenda := rest }) hs (not_refused h4 hmap) _)

/-- The step of a host read that is answered (R106, R516). -/
theorem step_hostRead {s : State} {rest : List Turn} {addr : Word} (ha : s.agenda = .hostRead .w32 addr :: rest)
    (hs : s.hostStuck = none) (h4 : addr.toNat % 4 = 0) (hmap : regionOf s.params addr.toNat ≠ .unmapped) :
    step s = .next { s with agenda := rest, hostData := ({ s with agenda := rest } : State).busRead addr } := by
  rw [step_cons ha]
  exact congrArg _ (State.hostAccess_accepted (s := { s with agenda := rest }) hs (not_refused h4 hmap) _)

/-- A write at a sequencer register's offset is that register's (R40). -/
theorem State.busWrite_seq {s : State} {addr : Word} {r : SeqReg} (h : regionOf s.params addr.toNat = .seq r.offset) (v : Word) :
    s.busWrite addr v = s.seqWrite r v := by
  simp only [State.busWrite, h, SeqReg.ofOffset_offset]

/-- The step of a host write to a sequencer register (R40, R516). -/
theorem step_hostWrite_seq {s : State} {rest : List Turn} {addr v : Word} {r : SeqReg}
    (ha : s.agenda = .hostWrite .w32 addr v :: rest) (hs : s.hostStuck = none) (h4 : addr.toNat % 4 = 0)
    (hr : regionOf s.params addr.toNat = .seq r.offset) :
    step s = .next (({ s with agenda := rest } : State).seqWrite r v) := by
  rw [step_hostWrite ha hs h4 (by rw [hr]; nofun)]
  exact congrArg _ (State.busWrite_seq (s := { s with agenda := rest }) hr v)

/-- Settles O31: the two branches of `State.writeCmd`. -/
theorem commandWriteStartsOrOverruns : Obligations.CommandWriteStartsOrOverruns := by
  unfold Obligations.CommandWriteStartsOrOverruns
  intro s rest addr c ha hs h4 hr
  rw [step_hostWrite_seq (r := .cmd) ha hs h4 hr]
  refine ⟨fun hb => congrArg _ (if_pos hb), fun hb => congrArg _ (if_neg ?_), rfl⟩
  exact Bool.eq_false_iff.1 hb

/-- STAT as read, its fields from bit 0 up (R42). -/
theorem statWord_eq (busy : Bool) (code : Status) (ovr : Bool) : statWord busy code ovr =
    (if busy = true then 1#32 else 0#32) ||| (code.code.setWidth 32 <<< 8) ||| (if ovr = true then 0x10000#32 else 0#32) := by
  have hovr : flag ovr 16 = if ovr = true then 0x10000#32 else 0#32 := by cases ovr <;> rfl
  simp only [statWord, flag_zero, hovr, place]
  ac_rfl

/-- Settles O32: `State.writeStat` on OVR, and STAT's fields with each code's number. -/
theorem statWriteClearsOverrunOnly : Obligations.StatWriteClearsOverrunOnly := by
  unfold Obligations.StatWriteClearsOverrunOnly
  intro s rest addr w ha hs h4 hr
  rw [step_hostWrite_seq (r := .stat) ha hs h4 hr]
  refine ⟨?_, ?_⟩
  · have hovr : (s.ovr && !w.getLsbD 16) = if w.getLsbD 16 = true then false else s.ovr := by
      cases w.getLsbD 16 <;> simp
    simp only [State.seqWrite, State.writeStat, hovr]
  · simp only [State.seqRead, statWord_eq]
    cases s.code <;> rfl

/-! The arguments and the frame data words (R44, R45). -/

@[simp] theorem State.arg_setArg_self (s : State) (k : Fin 5) (w : Word) : (s.setArg k w).arg k = w := by
  match k with | 0 | 1 | 2 | 3 | 4 => rfl

theorem State.arg_setArg_ne (s : State) {j k : Fin 5} (w : Word) (h : j ≠ k) : (s.setArg k w).arg j = s.arg j := by
  match k, j with
  | 0, 1 | 0, 2 | 0, 3 | 0, 4 | 1, 0 | 1, 2 | 1, 3 | 1, 4 | 2, 0 | 2, 1 | 2, 3 | 2, 4 | 3, 0 | 3, 1 | 3, 2 | 3, 4 | 4, 0
  | 4, 1 | 4, 2 | 4, 3 => rfl
  | 0, 0 | 1, 1 | 2, 2 | 3, 3 | 4, 4 => exact absurd rfl h

/-- What an argument write leaves. -/
theorem State.setArg_frame (s : State) (k : Fin 5) (w : Word) : s.setArg k w = { s with
    arg0 := (s.setArg k w).arg0, arg1 := (s.setArg k w).arg1, arg2 := (s.setArg k w).arg2, arg3 := (s.setArg k w).arg3,
    arg4 := (s.setArg k w).arg4 } := by
  match k with | 0 | 1 | 2 | 3 | 4 => rfl

/-- Settles O33: what each register reads back, and its fields. -/
theorem sequencerRegisterReadsBackWrite : Obligations.SequencerRegisterReadsBackWrite := by
  unfold Obligations.SequencerRegisterReadsBackWrite
  intro s w
  refine ⟨fun k => ⟨s.arg_setArg_self k w, fun j hj => s.arg_setArg_ne w hj, s.setArg_frame k w⟩, ⟨rfl, rfl⟩,
    fun k => ⟨?_, fun j hj => ?_, rfl⟩, ⟨s.fr.idWord_writeId w, rfl⟩, ⟨s.fr.flagsWord_writeFlags w, rfl⟩,
    ⟨s.fr.metaWord_writeMeta w, rfl⟩, rfl, rfl, rfl, rfl, rfl, rfl, rfl, place_zero _, s.fr.flagsWord_eq, rfl,
    s.fr.metaWord_eq, fun k => rfl⟩
  · simp [State.seqRead, State.seqWrite, Vector.get_eq_getElem]
  · simp only [State.seqWrite, Vector.get_eq_getElem]
    exact Vector.getElem_set_ne _ _ fun h => hj (Fin.ext h.symm)

/-! The regions of R100 and the reserved offsets of R65. -/

/-- An address in the sequencer block is its base and an offset in it (R100). -/
theorem regionOf_seq {p : Params} {a off : Nat} (h : regionOf p a = .seq off) :
    a = p.seqBase.toNat + off ∧ off < Config.seqBytes := by
  unfold regionOf at h
  split at h
  · rename_i hin
    simp only [inBlock, Bool.and_eq_true, decide_eq_true_eq] at hin
    injection h with h
    omega
  · split at h
    · cases h
    · split at h <;> cases h

theorem inBlock_eq_false {base size a : Nat} : inBlock base size a = false ↔ ¬(base ≤ a ∧ a < base + size) := by
  simp [inBlock]

/-- The four instance numbers. -/
theorem mem_instances (i : BitVec 2) : i ∈ ([0#2, 1#2, 2#2, 3#2] : List (BitVec 2)) := by revert i; decide

/-- No register block holds the address (R100). -/
theorem regOwner_none {p : Params} {a : Nat} : regOwner p a = none ↔ ∀ i : BitVec 2, i.toNat < p.numInst →
    ¬((p.regBase.get i.toFin).toNat ≤ a ∧ a < (p.regBase.get i.toFin).toNat + Config.regBytes) := by
  simp only [regOwner, List.find?_eq_none, mem_instances, true_implies, Bool.not_eq_true, Bool.and_eq_false_imp,
    decide_eq_true_eq, inBlock_eq_false]

/-- No message-RAM slice holds the address (R100). -/
theorem ramOwner_none {p : Params} {a : Nat} : ramOwner p a = none ↔ ∀ i : BitVec 2, i.toNat < p.numInst →
    ¬(p.msgram i ≤ a ∧ a < p.msgram i + p.sliceBytes) := by
  simp only [ramOwner, List.find?_eq_none, mem_instances, true_implies, Bool.not_eq_true, Bool.and_eq_false_imp,
    decide_eq_true_eq, inBlock_eq_false]

/-- An address is unmapped exactly when no block and no slice holds it (R110). -/
theorem regionOf_unmapped {p : Params} {a : Nat} : regionOf p a = .unmapped ↔
    inBlock p.seqBase.toNat Config.seqBytes a = false ∧ regOwner p a = none ∧ ramOwner p a = none := by
  unfold regionOf
  split
  · simp_all
  · cases regOwner p a with
    | some i => simp_all
    | none => cases ramOwner p a <;> simp_all

/-- Every register lies at an offset that R40 lists. -/
theorem SeqReg.offset_mem (r : SeqReg) : r.offset ∈ SeqReg.all.map SeqReg.offset := by
  cases r with
  | arg k => revert k; decide
  | frData k => revert k; decide
  | _ => decide

/-- Every register lies at an offset that R48 lists. -/
theorem CtrlReg.offset_mem (r : CtrlReg) : r.offset ∈ CtrlReg.all.map CtrlReg.offset := by
  cases r with
  | rxs f => cases f <;> decide
  | rxa f => cases f <;> decide
  | _ => decide

/-- An address of a reserved offset is mapped, reads 0 and ignores writes (R65). -/
theorem State.bus_reserved {s : State} {addr : Word}
    (h : (∃ off, regionOf s.params addr.toNat = .seq off ∧ off ∉ SeqReg.all.map SeqReg.offset) ∨
      ∃ i off, regionOf s.params addr.toNat = .reg i off ∧ off ∉ CtrlReg.all.map CtrlReg.offset) :
    s.busRead addr = 0 ∧ (∀ w, s.busWrite addr w = s) ∧ regionOf s.params addr.toNat ≠ .unmapped := by
  rcases h with ⟨off, hr, hoff⟩ | ⟨i, off, hr, hoff⟩
  · have hnone : SeqReg.ofOffset off = none := SeqReg.ofOffset_none.2 fun r hr => hoff (hr ▸ r.offset_mem)
    simp [State.busRead, State.busWrite, hr, hnone]
  · have hnone : CtrlReg.ofOffset off = none := CtrlReg.ofOffset_none.2 fun r hr => hoff (hr ▸ r.offset_mem)
    simp [State.busRead, State.busWrite, hr, hnone]

/-- Settles O37: the regions by their inversion lemmas, the offsets by computation, the reserved ones by `State.bus_reserved`. -/
theorem reservedOffsetsReadZeroIgnoreWrites : Obligations.ReservedOffsetsReadZeroIgnoreWrites := by
  unfold Obligations.ReservedOffsetsReadZeroIgnoreWrites
  intro seqOffsets regOffsets
  refine ⟨fun p a => ⟨fun off => regionOf_seq, fun i off => regionOf_reg, fun i off => regionOf_ram, ?_⟩,
    ⟨rfl, rfl, rfl, fun _ => rfl, rfl, rfl, rfl, rfl, fun _ => rfl⟩,
    ⟨rfl, rfl, rfl, rfl, rfl, rfl, rfl, rfl, rfl, rfl, rfl, rfl, rfl, rfl, rfl⟩, ?_⟩
  · rw [regionOf_unmapped, inBlock_eq_false, regOwner_none, ramOwner_none]
    exact and_congr_right' ⟨fun ⟨hreg, hram⟩ i hi => ⟨hreg i hi, hram i hi⟩,
      fun h => ⟨fun i hi => (h i hi).1, fun i hi => (h i hi).2⟩⟩
  · intro s rest addr w hs h4 hres
    obtain ⟨hread, hwrite, hmap⟩ := State.bus_reserved (s := { s with agenda := rest }) hres
    refine ⟨fun ha => ?_, fun ha => ?_⟩
    · rw [step_hostRead ha hs h4 hmap, hread]
    · rw [step_hostWrite ha hs h4 hmap, hwrite]

/-- From a state to itself every controller stays. -/
theorem State.ctrlBecomes_self (s : State) (i : BitVec 2) : s.CtrlBecomes s i (s.ctrl i) := ⟨rfl, fun _ _ => rfl⟩

theorem State.ctrlBecomes_setCtrl (s : State) (i : BitVec 2) (c : Ctrl) : s.CtrlBecomes (s.setCtrl i c) i c :=
  ⟨s.ctrl_setCtrl_self i c, fun _ hj => s.ctrl_setCtrl_ne c hj⟩

/-- Bus-off is possible: allowed, and the instance exists, runs and asks for no initialisation (R19, R397). -/
def State.BusOffEnabled (s : State) (i : BitVec 2) : Prop :=
  s.params.busOffAllowed = true ∧ s.Known i ∧ s.params.clockRunning.get i.toFin = true ∧ (s.ctrl i).initAck = false ∧
    (s.ctrl i).initReq = false

/-- The condition of the bus-off step (R397). -/
theorem State.busOffEnabled_iff (s : State) (i : BitVec 2) :
    (s.params.busOffAllowed && s.running i && !(s.ctrl i).initReq) = true ↔ s.BusOffEnabled i := by
  rw [Bool.and_eq_true, Bool.and_eq_true, s.running_iff, Bool.not_eq_true']
  simp only [State.BusOffEnabled, and_assoc]

theorem State.busOffStep_enabled {s : State} {i : BitVec 2} (h : s.BusOffEnabled i) :
    s.busOffStep i = s.setCtrl i { s.ctrl i with initReq := true, initAck := true } := if_pos ((s.busOffEnabled_iff i).2 h)

theorem State.busOffStep_passed {s : State} {i : BitVec 2} (h : ¬s.BusOffEnabled i) : s.busOffStep i = s :=
  if_neg (mt (s.busOffEnabled_iff i).1 h)

/-- Settles O48: enabled, both bits are set and CCE is 0 as the request was; otherwise the entry is passed over. -/
theorem busOffReturnsToInitialisation : Obligations.BusOffReturnsToInitialisation := by
  unfold Obligations.BusOffReturnsToInitialisation
  intro s rest i ha enabled
  by_cases hen : enabled
  · have hstep := State.busOffStep_enabled (s := { s with agenda := rest }) hen
    have hbecomes := State.ctrlBecomes_setCtrl { s with agenda := rest } i { s.ctrl i with initReq := true, initAck := true }
    refine ⟨_, (step_cons ha).trans (congrArg Host.Outcome.next hstep), rfl, fun _ => hbecomes, fun _ hcce => ?_,
      fun h => absurd hen h⟩
    obtain ⟨_, _, _, _, hreq⟩ := hen
    have hnot : (s.ctrl i).cce ≠ true := fun h => Bool.false_ne_true (hreq.symm.trans (hcce h))
    exact ⟨congrArg Ctrl.initAck hbecomes.1, (congrArg Ctrl.cce hbecomes.1).trans (Bool.eq_false_iff.2 hnot)⟩
  · have hstep := State.busOffStep_passed (s := { s with agenda := rest }) hen
    exact ⟨_, (step_cons ha).trans (congrArg Host.Outcome.next hstep), rfl, fun h => absurd h hen, fun h => absurd h hen,
      fun _ => State.ctrlBecomes_self { s with agenda := rest } i⟩

/-- The defaults are legal values (R9, R14). -/
theorem Params.default_legal : Params.default.Legal := ⟨by decide, by decide, by decide, by decide, rfl⟩

/-- Settles O53: the reset state by its fields, a CLEAN state because it is its own reset. -/
theorem resetStateMeetsInvariant : Obligations.ResetStateMeetsInvariant := by
  unfold Obligations.ResetStateMeetsInvariant
  refine ⟨⟨Params.default_legal, List.Pairwise.nil, fun i => ?_, by simp [State.reset], nofun⟩, ⟨rfl, rfl⟩,
    fun s hclean => ?_⟩
  · rw [State.ctrl_reset]
    exact Ctrl.ok_reset (by decide)
  · obtain ⟨hreset, hstuck⟩ := hclean
    have hctrl : ∀ i, s.ctrl i = Ctrl.reset := fun i => by rw [hreset, State.ctrl_resetStep]
    refine ⟨by rw [hreset]; rfl, hstuck, fun i => ?_⟩
    simp only [State.regRead, hctrl i]
    exact ⟨rfl, rfl, rfl, rfl, fun f => by cases f <;> rfl, rfl⟩

end Sys2Proof.Machine

/-!
Message RAM and the host's accesses: the layout of R107 in numbers, every written byte in the slices of the instances there
are (R100), and what a host's read or write at a register or a word of message RAM is (R40, R48, R108).
-/

namespace Sys2Proof.Machine

/-- The size of a slice (R107). -/
theorem sliceBytes_eq (p : Params) :
    p.sliceBytes = 4 * 28 + 8 * 8 + 2 * (72 * p.fifoDepth) + 4 * p.txevtWords + 72 * 3 := by
  simp only [Params.sliceBytes, Params.txbOff, Params.txeOff, Params.f1Off, Config.f0Off, Config.eflOff, Config.slotBytes,
    Config.stdMax, Config.extMax, Config.numTxbuf]
  omega

/-- Where the transmit slots lie (R107). -/
theorem txslot_eq (p : Params) (k : Nat) :
    txslot p k = 4 * 28 + 8 * 8 + 2 * (72 * p.fifoDepth) + 4 * p.txevtWords + 72 * k := by
  simp only [txslot, Params.txbOff, Params.txeOff, Params.f1Off, Config.f0Off, Config.eflOff, Config.slotBytes,
    Config.stdMax, Config.extMax]
  omega

/-- A slice is a whole number of words (R107). -/
theorem sliceBytes_mod_four (p : Params) : p.sliceBytes % 4 = 0 := by
  rw [sliceBytes_eq]
  omega

/-- With a word-aligned message RAM every slice begins at a word (R104, R108). -/
theorem msgram_mod_four {p : Params} (h : p.Legal) (i : BitVec 2) : p.msgram i % 4 = 0 := by
  obtain ⟨_, _, _, _, hbase⟩ := h
  have hslice : (i.toNat * p.sliceBytes) % 4 = 0 := by rw [Nat.mul_mod, sliceBytes_mod_four, Nat.mul_zero]
  simp only [Params.msgram]
  omega

/-- An aligned word that begins in a slice ends in it. -/
theorem aligned_word_le_sliceBytes {p : Params} (h : p.Legal) {i : BitVec 2} {off : Nat} (h4 : (p.msgram i + off) % 4 = 0)
    (hoff : off < p.sliceBytes) : off + 4 ≤ p.sliceBytes := by
  have := sliceBytes_mod_four p
  have := msgram_mod_four h i
  omega

/-- A known instance's slice lies in the message RAM: it ends where the next one begins (R108). -/
theorem slice_in_messageRam {p : Params} {i : BitVec 2} (hk : i.toNat < p.numInst) :
    p.msgramBase.toNat ≤ p.msgram i ∧ p.msgram i + p.sliceBytes ≤ p.msgramBase.toNat + p.numInst * p.sliceBytes := by
  have hnext := Nat.mul_le_mul_right p.sliceBytes (Nat.succ_le_of_lt hk)
  rw [Nat.succ_mul] at hnext
  simp only [Params.msgram]
  omega

/-- A run of word writes in a known instance's slice keeps memory mapped. -/
theorem Memory.Mapped.writeSlice {p : Params} {m : Memory} (h : Memory.Mapped p m) {i : BitVec 2} (hk : i.toNat < p.numInst)
    (cfg : Bool) {off : Nat} {ws : List Word} (hrange : off + 4 * ws.length ≤ p.sliceBytes) :
    Memory.Mapped p (Memory.writeSlice (p.msgram i) cfg m off ws) := by
  intro e he
  rcases Memory.mem_writeSlice _ _ _ _ he with ⟨hlo, hhi⟩ | he
  · obtain ⟨hbegin, hend⟩ := slice_in_messageRam hk
    omega
  · exact h e he

/-- What a command does to memory keeps it mapped. -/
theorem CommandEffect.mapped {i : BitVec 2} {s t : State} (h : CommandEffect i s t) (hm : Memory.Mapped s.params s.mem) :
    Memory.Mapped s.params t.mem := by
  rcases h.slice with hmem | ⟨hk, off, ws, hrange, hmem⟩ <;> rw [hmem]
  · exact hm
  · exact hm.writeSlice hk _ hrange

/-- A delivery to a known instance writes only in the slot at a put index, so memory stays mapped (R394). -/
theorem State.mapped_deliver {s : State} (hs : s.Inv) (hm : Memory.Mapped s.params s.mem) {i : BitVec 2} (hk : s.Known i)
    {f : Frame} (d : Draws) (hlen : f.bytes.length ≤ 64) : Memory.Mapped s.params (s.deliver i f d).mem := by
  rcases s.deliver_cases i f d with ⟨_, h⟩ | ⟨q, _, ⟨_, h⟩ | ⟨_, h⟩⟩ <;> rw [h]
  · exact hm
  · exact hm
  · refine hm.writeSlice hk _ ?_
    obtain ⟨_, _, hpi, _⟩ := hs.fifo_ok i q
    have := rxslot_bounds s.params q hpi
    rw [length_storedWords]
    omega

/-- The entry may deliver a frame to instance `i`: its receive step, or its transmit completion in loopback (R394, R396). -/
def Turn.DeliversTo (i : BitVec 2) : Turn → Prop
  | .txDone j _ _ _ => j = i
  | .rxFrame j _ _ => j = i
  | _ => False

/-- A delivering entry of an instance that does not exist is passed over (R391, log 3). -/
theorem State.turnStep_of_unknown {s : State} {u : Turn} {i : BitVec 2} (hu : u.DeliversTo i) (hk : ¬s.Known i) :
    s.turnStep u = .next s := by
  have hrun : s.running i = false := Bool.eq_false_iff.2 fun h => hk ((s.running_iff i).1 h).1
  cases u with
  | txDone j m ok d =>
    cases hu
    have henabled : s.txEnabled i m = false := by simp [State.txEnabled, hrun]
    simp [State.turnStep, State.txStep, henabled]
  | rxFrame j f d =>
    cases hu
    simp [State.turnStep, State.rxStep, hrun]
  | _ => exact hu.elim

/-- Every effect of a step whose deliveries are to known instances keeps memory mapped. -/
theorem TurnEffect.mapped {s t : State} {u : Turn} (h : TurnEffect s u t) (hs : s.Inv) (hm : Memory.Mapped s.params s.mem)
    (hk : ∀ i, u.DeliversTo i → s.Known i) : Memory.Mapped s.params t.mem := by
  cases h with
  | command c _ _ _ h => exact (exec_effect h).mapped hm
  | poll => rw [s.pollStep_mem]; exact hm
  | seqWrite _ _ v r => rw [s.seqWrite_mem]; exact hm
  | ramWrite _ _ v i off hi h4 hoff => exact hm.writeSlice hi _ (aligned_word_le_sliceBytes hs.1 h4 hoff)
  | loopback i m _ d f hlen =>
    exact State.mapped_deliver (hs.setCtrl ((hs.ctrl_ok i).complete m true)) hm (hk i rfl) d hlen
  | receive i f d hlen => exact State.mapped_deliver hs hm (hk i rfl) d hlen
  | _ => exact hm

/-- Settles O55: a delivering entry of an unknown instance is passed over, and every other step writes in a known slice. -/
theorem everyStepKeepsMemoryMapped : Obligations.EveryStepKeepsMemoryMapped := by
  unfold Obligations.EveryStepKeepsMemoryMapped
  intro s t hs hm hstep
  have heff := step_effect hstep
  rw [show t.params = s.params from heff.params]
  by_cases hk : ∀ i, s.nextTurn.DeliversTo i → s.Known i
  · exact heff.mapped hs hm hk
  · push Not at hk
    obtain ⟨i, hu, hunknown⟩ := hk
    have hstay := State.turnStep_of_unknown (s := s.dropTurn) hu (Nat.not_lt.2 hunknown)
    obtain rfl : s.dropTurn = t := Host.Outcome.next.inj (hstay.symm.trans hstep)
    exact hm

/-! The host's accesses at a register or a word of message RAM (R40, R48, R108). -/

theorem State.busRead_seq {s : State} {addr : Word} {r : SeqReg} (h : regionOf s.params addr.toNat = .seq r.offset) :
    s.busRead addr = s.seqRead r := by
  simp only [State.busRead, h, SeqReg.ofOffset_offset]

theorem State.busRead_reg {s : State} {addr : Word} {i : BitVec 2} {r : CtrlReg}
    (h : regionOf s.params addr.toNat = .reg i r.offset) : s.busRead addr = s.regRead i r := by
  simp only [State.busRead, h, CtrlReg.ofOffset_offset]

theorem State.busRead_ram {s : State} {addr : Word} {i : BitVec 2} {off : Nat}
    (h : regionOf s.params addr.toNat = .ram i off) : s.busRead addr = s.memRead i off := by
  simp only [State.busRead, h]

theorem State.busWrite_reg {s : State} {addr : Word} {i : BitVec 2} {r : CtrlReg}
    (h : regionOf s.params addr.toNat = .reg i r.offset) (v : Word) : s.busWrite addr v = s.regWrite i r v := by
  simp only [State.busWrite, h, CtrlReg.ofOffset_offset]

theorem State.busWrite_ram {s : State} {addr : Word} {i : BitVec 2} {off : Nat}
    (h : regionOf s.params addr.toNat = .ram i off) (v : Word) : s.busWrite addr v = s.memWrites i off [v] := by
  simp only [State.busWrite, h]

/-- A host write changes nothing of the host and no agenda entry. -/
theorem State.busWrite_host (s : State) (addr v : Word) : (s.busWrite addr v).agenda = s.agenda ∧
    (s.busWrite addr v).hostStuck = s.hostStuck ∧ (s.busWrite addr v).hostData = s.hostData := by
  rcases s.busWrite_cases addr v with h | ⟨r, h⟩ | ⟨i, r, _, h⟩ | ⟨i, off, _, _, _, h⟩ <;> rw [h]
  · exact ⟨rfl, rfl, rfl⟩
  · rcases s.seqWrite_cases r v with ⟨_, _, hw⟩ | ⟨_, _, _, _, _, _, _, hw⟩ <;> rw [hw] <;> exact ⟨rfl, rfl, rfl⟩
  · exact ⟨rfl, rfl, rfl⟩
  · exact ⟨rfl, rfl, rfl⟩

/-- The step of a host entry, a read or a write, is one access with some effect (R516). -/
theorem step_hostAccess {s : State} {rest : List Turn} {width : Width} {addr w : Word}
    (ha : s.agenda = .hostRead width addr :: rest ∨ s.agenda = .hostWrite width addr w :: rest) :
    ∃ effect, step s = .next (({ s with agenda := rest } : State).hostAccess width addr effect) := by
  rcases ha with ha | ha <;> exact ⟨_, step_cons ha⟩

/-- A stuck host makes no access (R516). -/
theorem State.hostAccess_stuck {s : State} (hs : s.hostStuck ≠ none) (width : Width) (addr : Word) (effect : State) :
    s.hostAccess width addr effect = s := if_pos (Option.isSome_iff_ne_none.2 hs)

/-- An ill-formed access leaves the host stuck and the rest as it was (R103, R104, R110). -/
theorem State.hostAccess_refused {s : State} {width : Width} {addr : Word} (hs : s.hostStuck = none)
    (hr : Refused s.params width addr) (effect : State) :
    ∃ e, s.hostAccess width addr effect = { s with hostStuck := some e } := by
  rcases s.hostAccess_cases width addr effect with ⟨hstuck, _⟩ | ⟨_, _, h⟩ | ⟨_, hnot, _⟩
  · exact absurd hs hstuck
  · exact h
  · exact absurd hr hnot

/-- An access that is not refused is a word access at an aligned address of a region (R103, R104, R110). -/
theorem wellFormed_of_not_refused {p : Params} {width : Width} {addr : Word} (h : ¬Refused p width addr) :
    width = .w32 ∧ addr.toNat % 4 = 0 ∧ regionOf p addr.toNat ≠ .unmapped := by
  unfold Refused at h
  push Not at h
  exact h

/-- Settles O38: a stuck host and a refused access by their cases of `State.hostAccess`, an answered one by its region. -/
theorem hostAccessIsRefusedExactlyWhenIllFormed : Obligations.HostAccessIsRefusedExactlyWhenIllFormed := by
  unfold Obligations.HostAccessIsRefusedExactlyWhenIllFormed
  intro s rest width addr w u
  refine ⟨fun ha => ?_, fun ha hs hnot => ?_, fun ha hs hnot => ?_⟩
  · obtain ⟨effect, hstep⟩ := step_hostAccess ha
    refine ⟨fun hs => ?_, fun hs hr => ?_⟩
    · rw [hstep]
      exact congrArg _ (State.hostAccess_stuck (s := u) hs width addr effect)
    · obtain ⟨e, he⟩ := State.hostAccess_refused (s := u) hs hr effect
      exact ⟨e, hstep.trans (congrArg _ he)⟩
  · obtain ⟨rfl, h4, hmap⟩ := wellFormed_of_not_refused hnot
    exact ⟨u.busRead addr, step_hostRead ha hs h4 hmap, fun r hr => State.busRead_seq (s := u) hr,
      fun i r hr => State.busRead_reg (s := u) hr, fun i off hr => State.busRead_ram (s := u) hr⟩
  · obtain ⟨rfl, h4, hmap⟩ := wellFormed_of_not_refused hnot
    have hstep : step s = .next (u.busWrite addr w) := step_hostWrite ha hs h4 hmap
    obtain ⟨hagenda, hstuck, hdata⟩ := u.busWrite_host addr w
    exact ⟨⟨_, hstep, hagenda, hstuck.trans hs, hdata⟩,
      fun r hr => hstep.trans (congrArg _ (State.busWrite_seq (s := u) hr w)),
      fun i r hr => hstep.trans (congrArg _ (State.busWrite_reg (s := u) hr w)),
      fun i off hr => hstep.trans (congrArg _ (State.busWrite_ram (s := u) hr w))⟩

/-! A word written by the host (R101, R109). -/

/-- The gate of R109 lets a write through outside the filter regions and while CONFIGURING. -/
theorem gateOpen_iff (c : Ctrl) (off : Nat) :
    gateOpen c.configuring off = true ↔ Config.f0Off ≤ off ∨ (c.initAck = true ∧ c.cce = true) := by
  rw [gateOpen, Bool.or_eq_true, decide_eq_true_eq, c.configuring_iff, or_comm]

/-- One word that the gate lets through is one word written at its address (R108, R109). -/
theorem State.memWrites_word {s : State} {i : BitVec 2} {off : Nat} (hg : gateOpen (s.ctrl i).configuring off = true)
    (w : Word) : s.memWrites i off [w] = { s with mem := s.mem.writeWord (s.params.msgram i + off) w } := by
  simp only [State.memWrites, Memory.writeSlice, hg, if_true]

/-- The step of a host write to message RAM that the gate lets through (R101, R109, R516). -/
theorem step_hostWrite_ram {s : State} {rest : List Turn} {addr w : Word} {i : BitVec 2} {off : Nat}
    (ha : s.agenda = .hostWrite .w32 addr w :: rest) (hs : s.hostStuck = none) (h4 : addr.toNat % 4 = 0)
    (hr : regionOf s.params addr.toNat = .ram i off) (hg : gateOpen (s.ctrl i).configuring off = true) :
    step s = .next { s with agenda := rest, mem := s.mem.writeWord (s.params.msgram i + off) w } := by
  have hbus := State.busWrite_ram (s := { s with agenda := rest }) hr w
  have hword := State.memWrites_word (s := { s with agenda := rest }) hg w
  rw [step_hostWrite ha hs h4 (by rw [hr]; nofun), hbus, hword]

/-- Settles O39: the formulas by the layout's lemmas, the write as one `Memory.writeWord` at the host's address. -/
theorem hostRamWriteIsLittleEndianAndLocal : Obligations.HostRamWriteIsLittleEndianAndLocal := by
  unfold Obligations.HostRamWriteIsLittleEndianAndLocal
  refine ⟨fun p i k => ⟨?_, rfl, rfl, rfl, rfl, txslot_eq p k⟩, ?_⟩
  · rw [Params.msgram, sliceBytes_eq]
  · intro s rest addr w i off ha hs h4 hr hgate
    obtain ⟨_, haddr, _⟩ := regionOf_ram hr
    have hstep := step_hostWrite_ram ha hs h4 hr ((gateOpen_iff _ off).2 hgate)
    refine ⟨haddr, _, hstep, rfl, Memory.readWord_writeWord_self _ _ w, fun k hk => ?_, fun a ha => ?_⟩
    · rw [haddr, Memory.readByte_writeWord, if_pos (by omega), Nat.add_sub_cancel_left]
    · exact Memory.readByte_writeWord_outside _ w (haddr ▸ ha)

end Sys2Proof.Machine

/-!
Encoding (R150 to R156): a word is its three fields, a word decodes exactly if it is some command's word, and the sequencer's EXEC
step answers a word by what it decodes to.
-/

namespace Sys2Proof.Machine

/-- OP in bits 4:0, the other bits 0, as a mask (R150). -/
theorem opField_setWidth (w : Word) : (opField w).setWidth 32 = w &&& 0x1F#32 := by
  rw [← place_zero]
  exact place_extract w 0 5

/-- INST in bits 6:5, the other bits 0, as a mask (R150). -/
theorem place_instField (w : Word) : place (instField w) 5 = w &&& 0x60#32 := place_extract w 5 2

/-- RSV in bits 31:7, the other bits 0, as a mask (R150). -/
theorem place_rsvField (w : Word) : place (rsvField w) 7 = w &&& 0xFFFFFF80#32 := place_extract w 7 25

/-- A word with RSV zero is the command word of its own OP and INST (R150). -/
theorem commandWord_fields {w : Word} (h : rsvField w = 0#25) : commandWord (opField w) (instField w) = w := by
  have hrsv : 0#32 = w &&& 0xFFFFFF80#32 := by rw [← place_rsvField, h]; rfl
  calc commandWord (opField w) (instField w)
      = (w &&& 0x60#32) ||| (w &&& 0x1F#32) := congrArg₂ (· ||| ·) (place_instField w) (opField_setWidth w)
    _ = (w &&& 0x60#32) ||| (w &&& 0x1F#32) ||| (w &&& 0xFFFFFF80#32) := by rw [← hrsv, BitVec.or_zero]
    _ = w &&& BitVec.allOnes 32 := by rw [← BitVec.and_or_distrib_left, ← BitVec.and_or_distrib_left]; rfl
    _ = w := BitVec.and_allOnes

/-- A word is its bits under the table's mask and its INST field (R150, R153). -/
theorem masked_or_place_instField (w : Word) : (w &&& 0xFFFFFF9F#32) ||| place (instField w) 5 = w := by
  rw [place_instField, ← BitVec.and_or_distrib_left]
  exact BitVec.and_allOnes

/-- The opcode map gives a command only on its own OP and INST (R153). -/
theorem encode_of_decodeOp {op : BitVec 5} {inst : BitVec 2} {i : Instr} (h : decodeOp op inst = .ok i) :
    encode i = commandWord op inst := by
  unfold decodeOp at h
  split at h <;> cases h
  all_goals
    rename_i hop
    exact congrArg (commandWord · inst) (BitVec.eq_of_toNat_eq hop.symm)

/-- Only the command's own word decodes to it (R152, R153). -/
theorem encode_of_decode {w : Word} {i : Instr} (h : decode w = .ok i) : encode i = w := by
  unfold decode at h
  split at h
  · cases h
  · rename_i hrsv
    exact (encode_of_decodeOp h).trans (commandWord_fields (not_not.1 hrsv))

/-- Every command's word is its row's, names its instance and decodes to it (R153). -/
theorem tableRow (i : Instr) : Laws.TableRow.Statement i := by
  cases i with
  | enterConfig n => exact Laws.TableRow.enterConfig n
  | leaveConfig n => exact Laws.TableRow.leaveConfig n
  | cfgMode n => exact Laws.TableRow.cfgMode n
  | setNominalTiming n => exact Laws.TableRow.setNominalTiming n
  | setFdTiming n => exact Laws.TableRow.setFdTiming n
  | filterInit n => exact Laws.TableRow.filterInit n
  | setStdFilter n => exact Laws.TableRow.setStdFilter n
  | setExtFilter n => exact Laws.TableRow.setExtFilter n
  | availableTx n => exact Laws.TableRow.availableTx n
  | transmit n => exact Laws.TableRow.transmit n
  | availableRx n => exact Laws.TableRow.availableRx n
  | receive n => exact Laws.TableRow.receive n
  | fifoRelease n => exact Laws.TableRow.fifoRelease n
  | enableIrq n => exact Laws.TableRow.enableIrq n
  | disableIrq n => exact Laws.TableRow.disableIrq n
  | lengthToDlc n => exact Laws.TableRow.lengthToDlc n
  | dlcToLength n => exact Laws.TableRow.dlcToLength n

theorem decode_encode (i : Instr) : decode (encode i) = .ok i := by
  obtain ⟨_, _, hdecode⟩ := tableRow i
  exact hdecode

theorem instField_encode (i : Instr) : instField (encode i) = i.inst := by
  obtain ⟨_, hinst, _⟩ := tableRow i
  exact hinst

/-- A word decodes to a command exactly when it is the command's word (R150, R153). -/
theorem decode_eq_ok_iff {w : Word} {i : Instr} : decode w = .ok i ↔ w = encode i :=
  ⟨fun h => (encode_of_decode h).symm, fun h => h ▸ decode_encode i⟩

/-- Settles O1: decoding is the inverse of encoding, and a word is known from its masked bits and its INST field. -/
theorem decodeIsExactInverseOfEncode : Obligations.DecodeIsExactInverseOfEncode := by
  unfold Obligations.DecodeIsExactInverseOfEncode
  refine fun w i => ⟨decode_eq_ok_iff, decode_eq_ok_iff.trans ⟨?_, ?_⟩⟩
  · rintro rfl
    exact ⟨rfl, instField_encode i⟩
  · rintro ⟨hmask, hinst⟩
    have hfield : instField w = instField (encode i) := hinst.trans (instField_encode i).symm
    rw [← masked_or_place_instField w, hmask, hfield, masked_or_place_instField]

/-- A set bit among 31:7 is a set bit of RSV (R150). -/
theorem rsvField_ne_zero {w : Word} (h : w >>> 7 ≠ 0#32) : rsvField w ≠ 0#25 := by
  intro hrsv
  refine h (BitVec.eq_of_toNat_eq ?_)
  have hlow := congrArg BitVec.toNat hrsv
  simp only [rsvField, BitVec.extractLsb'_toNat, BitVec.toNat_ofNat, Nat.shiftRight_eq_div_pow] at hlow
  simp only [BitVec.toNat_ushiftRight, BitVec.toNat_ofNat, Nat.shiftRight_eq_div_pow]
  omega

/-- A reserved OP maps to no command (R154). -/
theorem decodeOp_reserved {op : BitVec 5} (h : op.toNat = 0 ∨ 0x12 ≤ op.toNat) (inst : BitVec 2) :
    decodeOp op inst = .error (.reservedOp op) := by
  unfold decodeOp
  split
  case h_18 => rfl
  all_goals omega

/-- The reserved words, as numbers, decode to no command (R152, R154). -/
theorem decode_reserved {w : Word} (h : w >>> 7 ≠ 0#32 ∨ w &&& 0x1F#32 = 0#32 ∨ 0x12#32 ≤ w &&& 0x1F#32) :
    ∃ e, decode w = .error e := by
  unfold decode
  split
  · exact ⟨_, rfl⟩
  · rename_i hrsv
    refine ⟨_, decodeOp_reserved ?_ _⟩
    rw [← opField_setWidth] at h
    have hop : ((opField w).setWidth 32).toNat = (opField w).toNat := by
      rw [BitVec.toNat_setWidth]; omega
    rcases h with hbits | hzero | hhigh
    · exact absurd (rsvField_ne_zero hbits) hrsv
    · exact .inl (hop.symm.trans (congrArg BitVec.toNat hzero))
    · exact .inr (hop ▸ BitVec.le_def.1 hhigh)

/-- Settles O3: a reserved word decodes to no command, and the EXEC step of such a word fails with `Invalid`. -/
theorem reservedCommandWordsFinishInvalid : Obligations.ReservedCommandWordsFinishInvalid := by
  unfold Obligations.ReservedCommandWordsFinishInvalid
  intro s rest ha hphase hcur
  obtain ⟨e, he⟩ := decode_reserved hcur
  exact (step_cons ha).trans (State.sequencerStep_reject (s := { s with agenda := rest }) hphase he)

/-- Settles O2: thirteen fixed words, decoded. -/
theorem sampleCommandWordsDecode : Obligations.SampleCommandWordsDecode := by
  unfold Obligations.SampleCommandWordsDecode
  decide

/-- Every command that takes an instance checks it before anything else (R151, R155). -/
theorem exec_unknown {i : Instr} {s : State} (ht : i.takesInst = true) (hn : s.params.numInst ≤ i.inst.toNat) :
    exec i s = .next (s.fail .invalid) := by
  cases i
  case lengthToDlc | dlcToLength => cases ht
  all_goals exact onInst_unknown hn _

/-- Settles O4: the instance check fails, the instance is the word's field, and the codec's commands do not read INST. -/
theorem unknownInstanceFinishesInvalid : Obligations.UnknownInstanceFinishesInvalid := by
  unfold Obligations.UnknownInstanceFinishesInvalid
  exact ⟨fun _ _ => exec_unknown, fun _ _ => decode_inst, fun _ _ _ => ⟨rfl, rfl⟩⟩

/-- Settles O5: the agenda's entry picks the state of the sequencer's step, the decoded word its command. -/
theorem stepRunsDecodedCommand : Obligations.StepRunsDecodedCommand := by
  unfold Obligations.StepRunsDecodedCommand
  refine fun s i hphase hd => ⟨fun rest ha => ?_, fun ha => ?_⟩
  · exact (step_cons ha).trans (State.sequencerStep_exec (s := { s with agenda := rest }) hphase hd)
  · exact (step_nil ha).trans (State.sequencerStep_exec hphase hd)

end Sys2Proof.Machine

/-!
The codec (R200 to R205): a length has a code exactly when it is the code's length, and the two commands answer by it.
-/

namespace Sys2Proof.Machine

/-- A command word as its opcode with INST at bit 5 (R150). -/
theorem commandWord_eq (op : BitVec 5) (inst : BitVec 2) :
    commandWord op inst = op.setWidth 32 ||| (inst.setWidth 32 <<< 5) := BitVec.or_comm _ _

/-- A value below 16 fits the 4-bit DLC field (R205). -/
theorem toNat_dlcField {w : Word} (h : w.toNat < 16) : (w.extractLsb' 0 4).toNat = w.toNat := by
  rw [BitVec.extractLsb'_toNat, Nat.shiftRight_zero, Nat.mod_eq_of_lt h]

/-- Up to 8 a code is its own length (R201). -/
theorem d2l_of_le {d : BitVec 4} (h : d.toNat ≤ 8) : d2l d = d.toNat := by revert d; decide

/-- `d2l` gives back the length that `l2d` encodes (R202). -/
theorem d2l_of_l2d {n : Word} {d : BitVec 4} (h : l2d n = some d) : d2l d = n.toNat := by
  unfold l2d at h
  split_ifs at h <;> cases h
  case pos hn =>
    have hd := toNat_dlcField (Nat.lt_of_le_of_lt hn (by decide))
    rw [d2l_of_le (hd ▸ hn), hd]
  all_goals
    subst_vars
    rfl

/-- Every code is the code of its own length (R202). -/
theorem l2d_d2l (d : BitVec 4) : l2d (BitVec.ofNat 32 (d2l d)) = some d := by revert d; decide

/-- A length has a code exactly when it is the code's length (R202). -/
theorem l2d_eq_some_iff {n : Word} {d : BitVec 4} : l2d n = some d ↔ d2l d = n.toNat := by
  refine ⟨d2l_of_l2d, fun h => ?_⟩
  have hn := l2d_d2l d
  rwa [h, BitVec.ofNat_toNat, BitVec.setWidth_eq] at hn

/-- Settles O8: `d2l` undoes `l2d`, so it is injective where it answers, and `l2d` undoes `d2l` on each of the 16 codes. -/
theorem codecFunctionsAreInverse : Obligations.CodecFunctionsAreInverse := by
  unfold Obligations.CodecFunctionsAreInverse
  refine ⟨fun _ _ => d2l_of_l2d, l2d_d2l, fun n m d hn hm => BitVec.eq_of_toNat_eq ?_⟩
  exact (d2l_of_l2d hn).symm.trans (d2l_of_l2d hm)

/-- The table of R201: the length of each code, in the order of the codes. -/
def codeLengths : List Nat := List.ofFn fun k : Fin 16 => d2l (BitVec.ofFin k)

/-- The table of R200: each encodable length with its code. -/
def lengthCodes : List (Nat × Nat) := List.ofFn fun k : Fin 16 => (d2l (BitVec.ofFin k), k.val)

/-- The entry of R201's table at a word is the length of the word's DLC field, and there is none above 15. -/
theorem getElem?_codeLengths {w : Word} {n : Nat} (h : codeLengths[w.toNat]? = some n) :
    w.toNat < 16 ∧ n = d2l (w.extractLsb' 0 4) := by
  obtain ⟨hlt, hn⟩ := List.getElem?_eq_some_iff.1 h
  have hw : w.toNat < 16 := by simpa [codeLengths] using hlt
  have hfield : BitVec.ofFin ⟨w.toNat, hw⟩ = w.extractLsb' 0 4 := BitVec.eq_of_toNat_eq (toNat_dlcField hw).symm
  simp only [codeLengths, List.getElem_ofFn, hfield] at hn
  exact ⟨hw, hn.symm⟩

/-- The table of R200 is what `l2d` answers. -/
theorem mem_lengthCodes_iff {n : Word} {k : Nat} :
    (n.toNat, k) ∈ lengthCodes ↔ ∃ d, l2d n = some d ∧ d.toNat = k := by
  simp only [lengthCodes, List.mem_ofFn, Prod.mk.injEq, l2d_eq_some_iff]
  exact ⟨fun ⟨d, h⟩ => ⟨BitVec.ofFin d, h⟩, fun ⟨d, h⟩ => ⟨d.toFin, h⟩⟩

/-- LENGTH_TO_DLC of an encodable length (R204). -/
theorem exec_lengthToDlc_some {s : State} {d : BitVec 4} (h : l2d s.arg0 = some d) (inst : BitVec 2) :
    exec (.lengthToDlc inst) s = .next (s.finish .ok (d.setWidth 32)) := by
  simp only [exec, execLengthToDlc, h]

/-- LENGTH_TO_DLC of any other value (R204). -/
theorem exec_lengthToDlc_none {s : State} (h : l2d s.arg0 = none) (inst : BitVec 2) :
    exec (.lengthToDlc inst) s = .next (s.fail .invalid) := by
  simp only [exec, execLengthToDlc, h]

/-- DLC_TO_LENGTH of a code (R205). -/
theorem exec_dlcToLength_code {s : State} (h : s.arg0.toNat < 16) (inst : BitVec 2) :
    exec (.dlcToLength inst) s = .next (s.finish .ok (BitVec.ofNat 32 (d2l (s.arg0.extractLsb' 0 4)))) :=
  if_neg (Nat.not_lt.2 (Nat.le_of_lt_succ h))

/-- DLC_TO_LENGTH of a value above 15 (R205). -/
theorem exec_dlcToLength_invalid {s : State} (h : 15 < s.arg0.toNat) (inst : BitVec 2) :
    exec (.dlcToLength inst) s = .next (s.fail .invalid) := if_pos h

/-- Settles O6: the statement's table is `lengthCodes`, whose pairs are the answers of `l2d`. -/
theorem lengthToDlcAnswers : Obligations.LengthToDlcAnswers := by
  unfold Obligations.LengthToDlcAnswers
  intro inst s table
  have htable : table = lengthCodes := by decide
  rw [htable]
  refine ⟨commandWord_eq _ _, fun k hk => ?_, fun hnot => ?_⟩
  · obtain ⟨d, hd, rfl⟩ := mem_lengthCodes_iff.1 hk
    rw [exec_lengthToDlc_some hd, BitVec.ofNat_toNat]
    rfl
  · have hnone : l2d s.arg0 = none :=
      Option.eq_none_iff_forall_ne_some.2 fun d hd => hnot d.toNat (mem_lengthCodes_iff.2 ⟨d, hd, rfl⟩)
    exact exec_lengthToDlc_none hnone inst

/-- Settles O7: the statement's list is `codeLengths`, whose entry at a code is the code's `d2l`. -/
theorem dlcToLengthAnswers : Obligations.DlcToLengthAnswers := by
  unfold Obligations.DlcToLengthAnswers
  intro inst s lengths
  have hlengths : lengths = codeLengths := by decide
  rw [hlengths]
  refine ⟨commandWord_eq _ _, fun n hn => ?_, fun h => exec_dlcToLength_invalid h inst⟩
  obtain ⟨hcode, rfl⟩ := getElem?_codeLengths hn
  exact exec_dlcToLength_code hcode inst

end Sys2Proof.Machine

/-!
The configuration commands (41_config.md): what the CCCR writes of ENTER_CONFIG and LEAVE_CONFIG leave of the mode bits, what the
operands of the other three are packed to, and how a wait counts down.
-/

namespace Sys2Proof.Machine

/-! Waiting (R223). -/

/-- One less on a budget that is not 0, as a number. -/
theorem sub_one_eq_ofNat {w : Word} (h : w ≠ 0#32) : w - 1#32 = BitVec.ofNat 32 (w.toNat - 1) := by
  have hpos : w.toNat ≠ 0 := fun h0 => h (BitVec.eq_of_toNat_eq h0)
  refine BitVec.eq_of_toNat_eq ?_
  simp only [BitVec.toNat_sub, BitVec.toNat_ofNat]
  omega

section Poll

variable {s : State}

theorem State.pollStep_reached (h : (s.ctrl (instField s.cur)).initAck = s.target) : s.pollStep = s.finish .ok 0 := by
  rcases s.pollStep_cases with ⟨_, hs⟩ | ⟨hne, _⟩ | ⟨hne, _⟩
  · exact hs
  · exact absurd h hne
  · exact absurd h hne

theorem State.pollStep_timeout (h : (s.ctrl (instField s.cur)).initAck ≠ s.target) (hb : s.budget = 0#32) :
    s.pollStep = s.fail .timeout := by
  rcases s.pollStep_cases with ⟨heq, _⟩ | ⟨_, _, hs⟩ | ⟨_, hne, _⟩
  · exact absurd heq h
  · exact hs
  · exact absurd hb hne

theorem State.pollStep_countdown (h : (s.ctrl (instField s.cur)).initAck ≠ s.target) (hb : s.budget ≠ 0#32) :
    s.pollStep = { s with budget := BitVec.ofNat 32 (s.budget.toNat - 1) } := by
  rcases s.pollStep_cases with ⟨heq, _⟩ | ⟨_, h0, _⟩ | ⟨_, _, hs⟩
  · exact absurd heq h
  · exact absurd h0 hb
  · rw [hs, sub_one_eq_ofNat hb]

/-- With an empty agenda a wait polls (log 2). -/
theorem step_nil_poll (ha : s.agenda = []) (hp : s.phase = .poll) : step s = .next s.pollStep :=
  (step_nil ha).trans (s.sequencerStep_poll hp)

end Poll

/-- Settles O11: the sequencer's entry polls, and the poll has the three outcomes of `State.pollStep_cases`. -/
theorem pollStepCountsDown : Obligations.PollStepCountsDown := by
  unfold Obligations.PollStepCountsDown
  intro s rest ha hp
  have hstep : step s = .next ({ s with agenda := rest } : State).pollStep :=
    (step_cons ha).trans (State.sequencerStep_poll (s := { s with agenda := rest }) hp)
  refine ⟨fun h => ?_, fun h hb => ?_, fun h hb => ?_⟩
  · exact hstep.trans (congrArg _ (State.pollStep_reached (s := { s with agenda := rest }) h))
  · exact hstep.trans (congrArg _ (State.pollStep_timeout (s := { s with agenda := rest }) h hb))
  · exact hstep.trans (congrArg _ (State.pollStep_countdown (s := { s with agenda := rest }) h hb))

/-- One step more: after `k` steps to `t`, the step of `t`. -/
theorem run_succ_of_run {M : Host.Core} {k : Nat} {s t : M.State} (h : M.run k s = .next t) : M.run (k + 1) s = M.step t := by
  induction k generalizing s with
  | zero =>
    cases h
    simp only [Host.Core.run]
    cases M.step t <;> rfl
  | succ k ih =>
    rw [Host.Core.run] at h ⊢
    cases hs : M.step s with
    | next u => rw [hs] at h; exact ih h
    | fault r => rw [hs] at h; cases h
    | refused r => rw [hs] at h; cases h

/-- The state with BUDGET lower by `k`: after `k` polls of a wait that nobody acknowledges (R223). -/
def State.polled (s : State) (k : Nat) : State := { s with budget := BitVec.ofNat 32 (s.budget.toNat - k) }

theorem State.polled_zero (s : State) : s.polled 0 = s := by simp [State.polled]

theorem State.toNat_budget_polled (s : State) (k : Nat) : (s.polled k).budget.toNat = s.budget.toNat - k := by
  have := s.budget.isLt
  simp only [State.polled, BitVec.toNat_ofNat]
  omega

/-- While budget is left, one more poll lowers it by one more. -/
theorem State.pollStep_polled {s : State} (h : (s.ctrl (instField s.cur)).initAck ≠ s.target) {k : Nat}
    (hk : k < s.budget.toNat) : (s.polled k).pollStep = s.polled (k + 1) := by
  have hb : (s.polled k).budget ≠ 0#32 := fun h0 => by
    have hleft := s.toNat_budget_polled k
    rw [h0, BitVec.toNat_ofNat] at hleft
    omega
  rw [State.pollStep_countdown (s := s.polled k) h hb, s.toNat_budget_polled, Nat.sub_sub]
  rfl

/-- Up to its budget a wait that nobody acknowledges loses one of the budget with every poll (R223). -/
theorem run_unacknowledged {s : State} (hp : s.phase = .poll) (ha : s.agenda = [])
    (h : (s.ctrl (instField s.cur)).initAck ≠ s.target) {k : Nat} (hk : k ≤ s.budget.toNat) :
    Host.Core.run Sys2Proof.core k s = .next (s.polled k) := by
  induction k with
  | zero => exact congrArg _ s.polled_zero.symm
  | succ k ih =>
    refine (run_succ_of_run (ih (Nat.le_of_succ_le hk))).trans ?_
    calc step (s.polled k)
        = .next (s.polled k).pollStep := step_nil_poll ha hp
      _ = .next (s.polled (k + 1)) := congrArg _ (State.pollStep_polled h hk)

/-- Settles O12: BUDGET polls take the budget to 0, and the next one times out. -/
theorem unacknowledgedWaitTimesOutAfterBudgetPlusOnePolls :
    Obligations.UnacknowledgedWaitTimesOutAfterBudgetPlusOnePolls := by
  unfold Obligations.UnacknowledgedWaitTimesOutAfterBudgetPlusOnePolls
  refine fun s hp ha h => ⟨fun k => run_unacknowledged hp ha h, ?_⟩
  have hspent : (s.polled s.budget.toNat).budget = 0#32 := congrArg (BitVec.ofNat 32) (Nat.sub_self _)
  refine (run_succ_of_run (run_unacknowledged hp ha h le_rfl)).trans ?_
  calc step (s.polled s.budget.toNat)
      = .next (s.polled s.budget.toNat).pollStep := step_nil_poll ha hp
    _ = .next ((s.polled s.budget.toNat).fail .timeout) := congrArg _ (State.pollStep_timeout h hspent)
    _ = _ := by rw [State.polled, Nat.sub_self]; rfl

/-! Requests (R50, R221, R222). -/

/-- A CCCR write that carries the mode bits as they are read changes INIT and CCE alone, LBCK being set only with TEST (R50). -/
theorem Ctrl.writeCccr_modes_kept {c : Ctrl} {w : Word}
    (hw : ∀ k ∈ [5, 6, 7, 8, 9], w.getLsbD k = c.cccrWord.getLsbD k)
    (hlbck : c.configuring = true → c.lbck = true → c.test = true) :
    c.writeCccr w = { c with initReq := w.getLsbD 0, cce := w.getLsbD 0 && w.getLsbD 1 } := by
  obtain ⟨_, _, hmon, hdar, htest, hfdoe, hbrse⟩ := c.cccrWord_bits
  rw [Ctrl.writeCccr_eq, hw 5 (by decide), hw 6 (by decide), hw 7 (by decide), hw 8 (by decide), hw 9 (by decide),
    hmon, hdar, htest, hfdoe, hbrse]
  have hkept : (if c.configuring then c.test && c.lbck else c.lbck) = c.lbck := by
    split
    · exact Bool.and_eq_right_iff_imp.2 (hlbck ‹_›)
    · rfl
  simp only [ite_self, hkept]

theorem Ctrl.writeCccr_request {c : Ctrl} (h : c.configuring = false) :
    c.writeCccr (c.cccrWord ||| 0x3#32) = { c with initReq := true, cce := true } := by
  rw [Ctrl.writeCccr_modes_kept (by simp) (by simp [h])]
  simp

theorem Ctrl.writeCccr_release {c : Ctrl} (h : c.lbck = true → c.test = true) :
    c.writeCccr (c.cccrWord &&& ~~~0x3#32) = { c with initReq := false, cce := false } := by
  rw [Ctrl.writeCccr_modes_kept (by simp) fun _ => h]
  simp

/-- ENTER_CONFIG outside CONFIGURING (R221). -/
theorem State.enterConfig_waits {s : State} {i : BitVec 2} (h : (s.ctrl i).configuring = false) :
    s.enterConfig i = (s.setCtrl i { s.ctrl i with initReq := true, cce := true }).startPoll true := by
  have hnot : ((s.ctrl i).initReq && (s.ctrl i).initAck && (s.ctrl i).cce) = false := by
    rw [Bool.and_assoc, show ((s.ctrl i).initAck && (s.ctrl i).cce) = false from h, Bool.and_false]
  rw [State.enterConfig, hnot, ← Ctrl.writeCccr_request h]
  rfl

/-- LEAVE_CONFIG unless the instance operates with no request (R222). -/
theorem State.leaveConfig_waits {s : State} {i : BitVec 2} (h : ¬((s.ctrl i).initReq = false ∧ (s.ctrl i).initAck = false))
    (hlbck : (s.ctrl i).lbck = true → (s.ctrl i).test = true) :
    s.leaveConfig i = (s.setCtrl i { s.ctrl i with initReq := false, cce := false }).startPoll false := by
  rw [State.leaveConfig, if_neg (by simpa using h), ← Ctrl.writeCccr_release hlbck]
  rfl

/-- Settles O9: not all three bits set, with CCE only under a request, is not CONFIGURING, so the write keeps the mode bits. -/
theorem enterConfigRequestsOnce : Obligations.EnterConfigRequestsOnce := by
  unfold Obligations.EnterConfigRequestsOnce
  intro inst s hk hcce
  refine ⟨commandWord_eq _ _, fun hon => ?_, fun hoff => ?_⟩
  · exact (onInst_known hk _).trans (congrArg _ (if_pos (by simp [hon])))
  · have hc : (s.ctrl inst).configuring = false :=
      (s.ctrl inst).configuring_eq_false.2 fun ⟨hack, hset⟩ => hoff ⟨hcce hset, hack, hset⟩
    exact ⟨_, (onInst_known hk _).trans (congrArg _ (State.enterConfig_waits hc)), rfl, s.ctrlBecomes_setCtrl inst _⟩

/-- Settles O10: LBCK set only with TEST, the write that clears the request keeps the mode bits and LBCK. -/
theorem leaveConfigRequestsOnce : Obligations.LeaveConfigRequestsOnce := by
  unfold Obligations.LeaveConfigRequestsOnce
  intro inst s hk hlbck
  refine ⟨commandWord_eq _ _, fun hon => ?_, fun hoff => ?_⟩
  · exact (onInst_known hk _).trans (congrArg _ (if_pos (by simp [hon])))
  · exact ⟨_, (onInst_known hk _).trans (congrArg _ (State.leaveConfig_waits hoff hlbck)), rfl,
      s.ctrlBecomes_setCtrl inst _⟩

/-! Mode bits (R224). -/

/-- The bits of the word CFG_MODE writes to CCCR: INIT and CCE set, the modes from the flags (R224). -/
theorem cfgModeWord_bits (c f : Word) :
    (cfgModeWord c f).getLsbD 0 = true ∧ (cfgModeWord c f).getLsbD 1 = true ∧
      (cfgModeWord c f).getLsbD 5 = f.getLsbD 3 ∧ (cfgModeWord c f).getLsbD 6 = f.getLsbD 2 ∧
      (cfgModeWord c f).getLsbD 7 = f.getLsbD 4 ∧ (cfgModeWord c f).getLsbD 8 = f.getLsbD 0 ∧
      (cfgModeWord c f).getLsbD 9 = f.getLsbD 1 := by
  simp [cfgModeWord]

theorem cfgTestWord_bit (f : Word) : (cfgTestWord f).getLsbD 4 = f.getLsbD 5 := by simp [cfgTestWord]

/-- The controller with the modes CFG_MODE's flags ask for (R224). -/
def Ctrl.withModes (c : Ctrl) (f : Word) : Ctrl :=
  { c with
    initReq := true
    fdoe := f.getLsbD 0
    brse := f.getLsbD 1
    dar := f.getLsbD 2
    mon := f.getLsbD 3
    test := f.getLsbD 4
    lbck := f.getLsbD 4 && f.getLsbD 5 }

/-- CFG_MODE's two writes: CCCR keeps the instance CONFIGURING, so TEST takes LBCK exactly if the new CCCR.TEST is set (R224). -/
theorem Ctrl.write_cfgMode (n : Nat) {c : Ctrl} (h : c.configuring = true) (v f : Word) :
    (c.write n .cccr (cfgModeWord v f)).write n .test (cfgTestWord f) = c.withModes f := by
  obtain ⟨h0, h1, h5, h6, h7, h8, h9⟩ := cfgModeWord_bits v f
  obtain ⟨hack, hcce⟩ := c.configuring_iff.1 h
  simp only [Ctrl.write, Ctrl.writeTest, Ctrl.writeCccr_eq, Ctrl.withModes, h, if_true, h0, h1, h5, h6, h7, h8, h9,
    cfgTestWord_bit]
  cases f.getLsbD 4 <;> simp [Ctrl.configuring, hack, hcce]

theorem State.cfgMode_eq (s : State) (i : BitVec 2) : s.cfgMode i =
    (s.setCtrl i (if (s.ctrl i).initAck = true ∧ (s.ctrl i).cce = true then (s.ctrl i).withModes s.arg0
      else s.ctrl i)).finish .ok 0 := by
  by_cases hc : (s.ctrl i).configuring = true
  · rw [State.cfgMode, if_pos hc, if_pos ((s.ctrl i).configuring_iff.1 hc), State.regWrite_eq _ i .test,
      s.ctrl_regWrite_self, State.regWrite_eq, State.setCtrl_setCtrl]
    exact congrArg (fun c => (s.setCtrl i c).finish .ok 0) (Ctrl.write_cfgMode _ hc _ _)
  · rw [State.cfgMode, if_neg hc, if_neg (mt (s.ctrl i).configuring_iff.2 hc), State.setCtrl_ctrl]

/-- Settles O13: `State.cfgMode_eq`. -/
theorem cfgModeWritesModeBits : Obligations.CfgModeWritesModeBits := by
  unfold Obligations.CfgModeWritesModeBits
  intro inst s hk c
  exact ⟨commandWord_eq _ _, _, (onInst_known hk _).trans (congrArg _ (s.cfgMode_eq inst)), rfl,
    s.ctrlBecomes_setCtrl inst _⟩

/-! Bit timing (R225, R226). -/

/-- A word cut to a field and placed: the word under the field's mask, shifted (R21). -/
theorem place_setWidth (w : Word) {n : Nat} (hn : n ≤ 32) (k : Nat) :
    place (w.setWidth n) k = (w &&& place (BitVec.allOnes n) 0) <<< k := by
  rw [← place_extract, extract_low w hn, place_zero]
  rfl

/-- The nominal timing of SET_NOMINAL_TIMING's operands (R225). -/
def Nbtp.ofOperands (sjw ts1 ts2 prescaler : Word) : Nbtp where
  nsjw := sjw.setWidth 7
  nbrp := prescaler.setWidth 9
  ntseg1 := ts1.setWidth 8
  ntseg2 := ts2.setWidth 7

/-- The data-phase timing of SET_FD_TIMING's operands (R226). -/
def Dbtp.ofOperands (sjw ts1 ts2 prescaler : Word) : Dbtp where
  tdc := false
  dbrp := prescaler.setWidth 5
  dtseg1 := ts1.setWidth 5
  dtseg2 := ts2.setWidth 4
  dsjw := sjw.setWidth 4

theorem Nbtp.word_ofOperands (sjw ts1 ts2 prescaler : Word) :
    (Nbtp.ofOperands sjw ts1 ts2 prescaler).word = nominalWord sjw ts1 ts2 prescaler := by
  simp only [Nbtp.word, Nbtp.ofOperands, place_setWidth _ (show 7 ≤ 32 by decide), place_setWidth _ (show 9 ≤ 32 by decide),
    place_setWidth _ (show 8 ≤ 32 by decide), BitVec.shiftLeft_zero]
  rfl

theorem Dbtp.word_ofOperands (sjw ts1 ts2 prescaler : Word) :
    (Dbtp.ofOperands sjw ts1 ts2 prescaler).word = fdWord sjw ts1 ts2 prescaler := by
  simp only [Dbtp.word, Dbtp.ofOperands, place_setWidth _ (show 5 ≤ 32 by decide), place_setWidth _ (show 4 ≤ 32 by decide),
    BitVec.shiftLeft_zero, show flag false 23 = 0#32 from rfl, BitVec.zero_or]
  rfl

theorem State.setNominalTiming_eq (s : State) (i : BitVec 2) : s.setNominalTiming i =
    (s.setCtrl i (if (s.ctrl i).initAck = true ∧ (s.ctrl i).cce = true then
      { s.ctrl i with nbtp := Nbtp.ofOperands s.arg0 s.arg1 s.arg2 s.arg3 } else s.ctrl i)).finish .ok 0 := by
  rw [State.setNominalTiming, ← Nbtp.word_ofOperands, State.regWrite_eq]
  simp only [Ctrl.write, Nbtp.ofWord_word, Ctrl.configuring_iff]

theorem State.setFdTiming_eq (s : State) (i : BitVec 2) : s.setFdTiming i =
    (s.setCtrl i (if (s.ctrl i).initAck = true ∧ (s.ctrl i).cce = true then
      { s.ctrl i with dbtp := Dbtp.ofOperands s.arg0 s.arg1 s.arg2 s.arg3 } else s.ctrl i)).finish .ok 0 := by
  rw [State.setFdTiming, ← Dbtp.word_ofOperands, State.regWrite_eq]
  simp only [Ctrl.write, Dbtp.ofWord_word, Ctrl.configuring_iff]

/-- A register of an instance after its controller is set and the command finishes. -/
theorem State.regRead_setCtrl_finish (s : State) (i : BitVec 2) (c : Ctrl) (st : Status) (v : Word) (r : CtrlReg) :
    ((s.setCtrl i c).finish st v).regRead i r = c.read s.params.fifoDepth r := by
  simp [State.regRead]

/-- Settles O14: the word written is that of the masked fields, which NBTP takes and reads back. -/
theorem setNominalTimingPacksFields : Obligations.SetNominalTimingPacksFields := by
  unfold Obligations.SetNominalTimingPacksFields
  intro inst s hk c
  refine ⟨commandWord_eq _ _, _, (onInst_known hk _).trans (congrArg _ (s.setNominalTiming_eq inst)), rfl,
    s.ctrlBecomes_setCtrl inst _, fun hc => ?_⟩
  rw [State.regRead_setCtrl_finish, if_pos hc]
  exact Nbtp.word_ofOperands ..

/-- Settles O15: the word written is that of the masked fields with TDC 0, which DBTP takes and reads back. -/
theorem setFdTimingPacksFields : Obligations.SetFdTimingPacksFields := by
  unfold Obligations.SetFdTimingPacksFields
  intro inst s hk c
  refine ⟨commandWord_eq _ _, _, (onInst_known hk _).trans (congrArg _ (s.setFdTiming_eq inst)), rfl,
    s.ctrlBecomes_setCtrl inst _, fun hc => ?_⟩
  rw [State.regRead_setCtrl_finish, if_pos hc]
  exact Dbtp.word_ofOperands ..

end Sys2Proof.Machine

/-!
The filter-table loader (42_filters.md): a run of words written to the filter table, the table zeroed and its counts published, and
one element written.
-/

namespace Sys2Proof.Machine

/-- While CONFIGURING every word of a run is written in place and no byte outside the run changes (R101, R109). -/
theorem State.memWrites_configuring {s : State} {i : BitVec 2} (hc : (s.ctrl i).initAck = true ∧ (s.ctrl i).cce = true)
    (off : Nat) (ws : List Word) :
    (∀ (k : Nat) (h : k < ws.length), (s.memWrites i off ws).memRead i (off + 4 * k) = ws[k]) ∧
      s.SameOutside (s.memWrites i off ws) (s.params.msgram i + off) (4 * ws.length) := by
  have hg : gateOpen (s.ctrl i).configuring off = true := (gateOpen_iff _ off).2 (.inr hc)
  exact ⟨s.memRead_memWrites i off ws hg, fun _ => s.readByte_memWrites_outside i off ws⟩

/-- Outside CONFIGURING a run of words within the filter table changes nothing (R109). -/
theorem State.memWrites_notConfiguring {s : State} {i : BitVec 2}
    (hc : ¬((s.ctrl i).initAck = true ∧ (s.ctrl i).cce = true)) {off : Nat} {ws : List Word}
    (h : off + 4 * ws.length ≤ Config.f0Off) : s.memWrites i off ws = s :=
  s.memWrites_closed i off ws ((s.ctrl i).configuring_eq_false.2 hc) h

/-! Elements within the filter table (R107, R108). -/

theorem sfl_mod_four (k : Nat) : sfl k % 4 = 0 := Nat.mul_mod_right 4 k

theorem efl_mod_four (k : Nat) : efl k % 4 = 0 := by
  simp only [efl, Config.eflOff]
  omega

theorem sfl_le_f0Off {k : Nat} (h : k < 28) : sfl k + 4 ≤ Config.f0Off := by
  simp only [sfl, Config.f0Off, Config.eflOff, Config.stdMax, Config.extMax]
  omega

theorem efl_le_f0Off {k : Nat} (h : k < 8) : efl k + 8 ≤ Config.f0Off := by
  simp only [efl, Config.f0Off, Config.extMax]
  omega

/-! The table and its counts (R55, R260). -/

/-- A word that fits a field, cut to the field and placed, is the word shifted. -/
theorem place_setWidth_of_lt {w : Word} {n : Nat} (h : w.toNat < 2 ^ n) (k : Nat) : place (w.setWidth n) k = w <<< k := by
  have hw : (w.setWidth n).setWidth 32 = w := BitVec.eq_of_toNat_eq (by
    rw [BitVec.toNat_setWidth, BitVec.toNat_setWidth, Nat.mod_eq_of_lt h, Nat.mod_eq_of_lt w.isLt])
  rw [place, hw]

/-- RXGFC with the counts FILTER_INIT's operands give (R260). -/
def Rxgfc.withCounts (g : Rxgfc) (n m : Word) : Rxgfc := { g with lss := n.setWidth 5, lse := m.setWidth 4 }

/-- RXGFC without its counts (R55). -/
theorem Rxgfc.word_without_counts (g : Rxgfc) : g.word &&& ~~~0x0F1F0000#32 = place g.anfs 4 ||| place g.anfe 2 := by
  apply BitVec.eq_of_getLsbD_eq
  intro i hi
  interval_cases i <;> simp [Rxgfc.word]

/-- The word FILTER_INIT writes is RXGFC with the counts in their fields, which they fit (R260). -/
theorem Rxgfc.word_withCounts (g : Rxgfc) {n m : Word} (hn : n.toNat ≤ 28) (hm : m.toNat ≤ 8) :
    (g.withCounts n m).word = filterCountsWord g.word n m := by
  have hlss : place (n.setWidth 5) 16 = n <<< 16 := place_setWidth_of_lt (Nat.lt_of_le_of_lt hn (by decide)) 16
  have hlse : place (m.setWidth 4) 24 = m <<< 24 := place_setWidth_of_lt (Nat.lt_of_le_of_lt hm (by decide)) 24
  rw [filterCountsWord, Rxgfc.word_without_counts, Rxgfc.word, Rxgfc.withCounts, hlss, hlse,
    BitVec.or_assoc (m <<< 24 ||| n <<< 16), BitVec.or_comm, BitVec.or_comm (m <<< 24), ← BitVec.or_assoc]

/-- FILTER_INIT's write to RXGFC (R52, R260). -/
theorem Ctrl.write_filterCounts (d : Nat) (c : Ctrl) {n m : Word} (hn : n.toNat ≤ 28) (hm : m.toNat ≤ 8) :
    c.write d .rxgfc (filterCountsWord (c.read d .rxgfc) n m) =
      if c.initAck = true ∧ c.cce = true then { c with rxgfc := c.rxgfc.withCounts n m } else c := by
  rw [Ctrl.read, ← Rxgfc.word_withCounts _ hn hm]
  simp only [Ctrl.write, Rxgfc.ofWord_word, Ctrl.configuring_iff]

/-- FILTER_INIT with counts in range: one run of 44 zeros, and the counts published while CONFIGURING (R107, R260). -/
theorem State.filterInit_eq {s : State} (i : BitVec 2) (hn : s.arg0.toNat ≤ 28) (hm : s.arg1.toNat ≤ 8) :
    s.filterInit i = ((s.memWrites i 0 (List.replicate 44 0)).setCtrl i
      (if (s.ctrl i).initAck = true ∧ (s.ctrl i).cce = true then
        { s.ctrl i with rxgfc := (s.ctrl i).rxgfc.withCounts s.arg0 s.arg1 }
      else s.ctrl i)).finish .ok 0 := by
  have hfit : ¬(Config.stdMax < s.arg0.toNat ∨ Config.extMax < s.arg1.toNat) :=
    not_or.2 ⟨Nat.not_lt.2 hn, Nat.not_lt.2 hm⟩
  rw [State.filterInit, if_neg hfit, State.filterZero_eq, ← Ctrl.write_filterCounts s.params.fifoDepth (s.ctrl i) hn hm]
  rfl

/-- Every word of the zeroed table reads 0 (R260). -/
theorem State.memRead_filterZero {s : State} {i : BitVec 2} (hc : (s.ctrl i).initAck = true ∧ (s.ctrl i).cce = true)
    {off : Nat} (h4 : off % 4 = 0) (hoff : off + 4 ≤ Config.f0Off) :
    (s.memWrites i 0 (List.replicate 44 0)).memRead i off = 0 := by
  obtain ⟨hread, _⟩ := State.memWrites_configuring hc 0 (List.replicate 44 0)
  have hk : off / 4 < (List.replicate 44 (0 : Word)).length :=
    Nat.div_lt_of_lt_mul (Nat.lt_of_succ_le (Nat.le_of_add_right_le (k := 3) hoff))
  have hword := hread (off / 4) hk
  rwa [List.getElem_replicate, Nat.zero_add, Nat.mul_div_cancel' (Nat.dvd_of_mod_eq_zero h4)] at hword

/-- Settles O16: `State.filterInit_eq`; the 44 zeros are the 28 standard and 2 * 8 extended filter words. -/
theorem filterInitZeroesTableAndPublishesCounts : Obligations.FilterInitZeroesTableAndPublishesCounts := by
  unfold Obligations.FilterInitZeroesTableAndPublishesCounts
  intro inst s hk c
  refine ⟨commandWord_eq _ _, fun hout => (onInst_known hk _).trans (congrArg _ (if_pos hout)), fun hn hm =>
    ⟨_, (onInst_known hk _).trans (congrArg _ (State.filterInit_eq inst hn hm)), rfl, fun hc => ?_, fun hc => ?_⟩⟩
  · obtain ⟨_, hframe⟩ := State.memWrites_configuring hc 0 (List.replicate 44 0)
    rw [if_pos hc]
    refine ⟨State.ctrlBecomes_setCtrl _ inst _, fun k hk => ?_, fun k hk => ⟨?_, ?_⟩, hframe⟩
    · exact State.memRead_filterZero hc (sfl_mod_four k) (sfl_le_f0Off hk)
    · exact State.memRead_filterZero hc (efl_mod_four k) (Nat.le_of_add_right_le (k := 4) (efl_le_f0Off hk))
    · exact State.memRead_filterZero hc (by rw [Nat.add_mod_right, efl_mod_four]) (efl_le_f0Off hk)
  · rw [if_neg hc, State.memWrites_notConfiguring hc (by decide), State.setCtrl_ctrl]
    exact ⟨rfl, rfl⟩

/-! One element (R261, R262). -/

/-- Settles O17: below the count the command is one word write in the filter table. -/
theorem setStdFilterWritesElement : Obligations.SetStdFilterWritesElement := by
  unfold Obligations.SetStdFilterWritesElement
  intro inst s hk c
  refine ⟨commandWord_eq _ _, fun hout => (onInst_known hk _).trans (congrArg _ (if_pos hout)), fun hin =>
    ⟨_, (onInst_known hk _).trans (congrArg _ (if_neg (Nat.not_le.2 hin))), rfl, fun hc => ?_, fun hc => ?_⟩⟩
  · obtain ⟨hread, hframe⟩ := State.memWrites_configuring hc (sfl s.arg0.toNat)
      [stdFilterWord s.arg1 s.arg2 s.arg3 s.arg4]
    exact ⟨hread 0 Nat.one_pos, hframe⟩
  · rw [State.memWrites_notConfiguring hc (sfl_le_f0Off (lt_min_iff.1 hin).2)]
    rfl

/-- Settles O18: below the count the command is one run of two words in the filter table. -/
theorem setExtFilterWritesElement : Obligations.SetExtFilterWritesElement := by
  unfold Obligations.SetExtFilterWritesElement
  intro inst s hk c
  refine ⟨commandWord_eq _ _, fun hout => (onInst_known hk _).trans (congrArg _ (if_pos hout)), fun hin =>
    ⟨_, (onInst_known hk _).trans (congrArg _ (if_neg (Nat.not_le.2 hin))), rfl, fun hc => ?_, fun hc => ?_⟩⟩
  · obtain ⟨hread, hframe⟩ := State.memWrites_configuring hc (efl s.arg0.toNat)
      [extFilterWord0 s.arg2 s.arg4, extFilterWord1 s.arg1 s.arg3]
    exact ⟨hread 0 Nat.two_pos, hread 1 Nat.one_lt_two, hframe⟩
  · rw [State.memWrites_notConfiguring hc (efl_le_f0Off (lt_min_iff.1 hin).2)]
    rfl

end Sys2Proof.Machine

/-!
The transmit commands (43_transmit.md): which of its three answers TRANSMIT gives (R302), the transmit slot and the pending
request that a sent frame leaves (R59, R108), and the slot's header words (R303, R304).
-/

namespace Sys2Proof.Machine

/-- Settles O19: the pending vector the command reads is TRP. -/
theorem availableTxReportsFreeMailbox : Obligations.AvailableTxReportsFreeMailbox := by
  unfold Obligations.AvailableTxReportsFreeMailbox
  intro inst s hk
  refine ⟨commandWord_eq _ _, (onInst_known hk _).trans ?_⟩
  rw [State.availableTx, State.pending_eq]
  rfl

/-! The header words (R303, R304). -/

/-- A standard identifier in bits 28:18 of the 29-bit field is its low 11 bits there (R303). -/
theorem place_shifted_id (id : BitVec 29) : place (id <<< 18) 0 = (id.setWidth 32 &&& 0x7FF#32) <<< 18 := by
  have hmask : place (BitVec.allOnes 11) 0 = 0x7FF#32 := rfl
  rw [← hmask, ← place_setWidth _ (by decide)]
  apply BitVec.eq_of_getLsbD_eq
  intro k hk
  by_cases hfield : 18 ≤ k
  · have hlow : k < 29 ↔ k - 18 < 11 := by omega
    simp [hk, hlow, hfield, Nat.not_lt.2 hfield]
  · simp [Nat.not_le.1 hfield, hfield]

/-- The identifier field of a slot's first word (R303). -/
theorem place_idField (xtd : Bool) (id : BitVec 29) :
    place (idField xtd id) 0 = if xtd = true then id.setWidth 32 else (id.setWidth 32 &&& 0x7FF#32) <<< 18 := by
  cases xtd
  · exact place_shifted_id id
  · exact place_zero id

/-- Settles O21: each field at its bit, `place_idField` for the identifier. -/
theorem transmitHeaderWordFormulas : Obligations.TransmitHeaderWordFormulas := by
  unfold Obligations.TransmitHeaderWordFormulas
  intro r d bit
  constructor
  · rw [encT0, flag_eq_ite, flag_eq_ite, place_idField]
  · rw [encT1, flag_eq_ite, flag_eq_ite, place]

/-! TRANSMIT's answers (R300, R302). -/

section Transmit

variable {i : BitVec 2} {s : State} (hk : s.Known i)
include hk

/-- TRANSMIT with every mailbox pending (R302). -/
theorem exec_transmit_busy (hfull : (s.ctrl i).trp = 0b111#3) : exec (.transmit i) s = .next (s.fail .busy) := by
  refine (onInst_known hk _).trans ?_
  rw [State.transmit, State.pending_eq, firstZero_none.2 hfull]

/-- TRANSMIT of a length with no code, a mailbox being free (R302). -/
theorem exec_transmit_invalid (hfree : (s.ctrl i).trp ≠ 0b111#3) (hlen : l2d s.fr.len = none) :
    exec (.transmit i) s = .next (s.fail .invalid) := by
  obtain ⟨m, hm⟩ := Option.ne_none_iff_exists'.1 (mt firstZero_none.1 hfree)
  refine (onInst_known hk _).trans ?_
  rw [State.transmit, State.pending_eq, hm, hlen]

/-- TRANSMIT of an encodable length, `m` being the lowest free mailbox (R302). -/
theorem exec_transmit_sent {m : Fin 3} {d : BitVec 4} (hm : firstZero (s.ctrl i).trp = some m) (hd : l2d s.fr.len = some d) :
    exec (.transmit i) s = .next (s.sendFrame i m d) := by
  refine (onInst_known hk _).trans ?_
  rw [State.transmit, State.pending_eq, hm, hd]

end Transmit

/-! The frame sent (R302). -/

/-- The request bit TRANSMIT writes to TXBAR, as TRP takes it (R59). -/
theorem extract_requestBit (m : Fin 3) : (1#32 <<< m.val).extractLsb' 0 3 = 1#3 <<< m.val := by revert m; decide

/-- Sending a frame: one run of words in the mailbox's slot, then the request bit. -/
theorem State.sendFrame_eq (s : State) (i : BitVec 2) (m : Fin 3) (d : BitVec 4) :
    s.sendFrame i m d = ((s.memWrites i (txslot s.params m.val) (txWords s.fr d)).setCtrl i
      { s.ctrl i with trp := (s.ctrl i).trp ||| (1#3 <<< m.val) }).finish .ok (BitVec.ofNat 32 m.val) := by
  rw [State.sendFrame, State.regWrite_eq, Ctrl.write, extract_requestBit]
  rfl

/-- An encodable length is at most 64 bytes, so the slot gets all the words that hold it (R302). -/
theorem length_txWords_of_l2d {r : FrameRegs} {d : BitVec 4} (h : l2d r.len = some d) :
    (txWords r d).length = 2 + (r.len.toNat + 3) / 4 := by
  have := l2d_some_of_table h
  rw [length_txWords, ceil4]
  omega

/-- Data word `k` follows the two header words (R302). -/
theorem getElem_txWords_data (r : FrameRegs) (d : BitVec 4) (k : Fin 16) (h : k.val + 2 < (txWords r d).length) :
    (txWords r d)[k.val + 2] = r.data.get k := by
  simp [txWords, Vector.get_eq_getElem]

/-- The transmit slots lie past the filter regions, so the gate lets every write through (R107, R109). -/
theorem gateOpen_txslot (configuring : Bool) (p : Params) (m : Nat) : gateOpen configuring (txslot p m) = true := by
  have hpast : Config.f0Off ≤ txslot p m := by
    rw [txslot_eq]
    simp only [Config.f0Off, Config.eflOff, Config.stdMax, Config.extMax]
    omega
  simp [gateOpen, hpast]

/-- The slot of a sent frame: the header words, then the data words (R302). -/
theorem State.memRead_sendFrame (s : State) (i : BitVec 2) (m : Fin 3) (d : BitVec 4) (k : Nat)
    (h : k < (txWords s.fr d).length) :
    (s.sendFrame i m d).memRead i (txslot s.params m.val + 4 * k) = (txWords s.fr d)[k] :=
  s.memRead_memWrites i _ _ (gateOpen_txslot _ _ _) k h

/-- Settles O20: the mailbox is the first zero of TRP, and the slot's words and the bytes outside it are those of the one run of
words that `State.sendFrame` writes. -/
theorem transmitFillsLowestFreeMailbox : Obligations.TransmitFillsLowestFreeMailbox := by
  unfold Obligations.TransmitFillsLowestFreeMailbox
  intro inst s hk c
  refine ⟨commandWord_eq _ _, fun hfull => exec_transmit_busy hk hfull, fun hfree hlen => exec_transmit_invalid hk hfree hlen,
    fun m d hfree hbelow hd => ?_⟩
  have hlen := length_txWords_of_l2d hd
  have hread := s.memRead_sendFrame inst m d
  have hm : firstZero c.trp = some m := firstZero_some.2 ⟨hfree, hbelow⟩
  refine ⟨_, exec_transmit_sent hk hm hd, rfl, ?_, ?_, ?_, fun k hkn => ?_, fun a ha => ?_⟩
  · rw [State.sendFrame_eq]
    exact State.ctrlBecomes_setCtrl _ inst _
  · exact hread 0 (by omega)
  · exact hread 1 (by omega)
  · have hword := hread (k.val + 2) (by omega)
    rwa [getElem_txWords_data, Nat.mul_add, Nat.add_comm (4 * k.val), ← Nat.add_assoc] at hword
  · exact s.readByte_memWrites_outside inst _ _ (by omega)

/-! TRANSMITs in a row (R306). -/

/-- A TRANSMIT that takes mailbox `m` leaves its request pending and the frame as it is, so that the next one can follow. -/
theorem exec_transmit_takes {i : BitVec 2} {s : State} {m : Fin 3} {d : BitVec 4} (hk : s.Known i)
    (hm : firstZero (s.ctrl i).trp = some m) (hd : l2d s.fr.len = some d) :
    ∃ t, exec (.transmit i) s = .next t ∧ t.code = .ok ∧ t.result = BitVec.ofNat 32 m.val ∧ t.Known i ∧
      l2d t.fr.len = some d ∧ (t.ctrl i).trp = (s.ctrl i).trp ||| (1#3 <<< m.val) := by
  refine ⟨_, exec_transmit_sent hk hm hd, rfl, rfl, hk, hd, ?_⟩
  rw [State.sendFrame_eq, State.ctrl_finish, State.ctrl_setCtrl_self]

/-- With one request of three taken away its mailbox is the lowest free one (R300). -/
theorem firstZero_one_free (m : Fin 3) : firstZero (0b111#3 &&& ~~~(1#3 <<< m.val)) = some m := by revert m; decide

/-- Settles O22: `exec_transmit_takes` from 000, 001 and 011 gives 111, where the command is Busy; with bit `m` taken away it
takes `m`. -/
theorem threeTransmitsExhaustMailboxes : Obligations.ThreeTransmitsExhaustMailboxes := by
  unfold Obligations.ThreeTransmitsExhaustMailboxes
  intro inst s d hk htrp hd
  obtain ⟨t1, hx1, hc1, hr1, hk1, hd1, htrp1⟩ := exec_transmit_takes (m := 0) hk (by rw [htrp]; rfl) hd
  rw [htrp] at htrp1
  obtain ⟨t2, hx2, hc2, hr2, hk2, hd2, htrp2⟩ := exec_transmit_takes (m := 1) hk1 (by rw [htrp1]; rfl) hd1
  rw [htrp1] at htrp2
  obtain ⟨t3, hx3, hc3, hr3, hk3, hd3, htrp3⟩ := exec_transmit_takes (m := 2) hk2 (by rw [htrp2]; rfl) hd2
  rw [htrp2] at htrp3
  refine ⟨t1, t2, t3, t3.fail .busy, hx1, hc1, hr1, hx2, hc2, hr2, hx3, hc3, hr3, exec_transmit_busy hk3 htrp3, rfl, htrp3,
    fun m u hu ⟨hctrl, _⟩ => ?_⟩
  have hku : u.Known inst := by rw [hu]; exact hk3
  have hdu : l2d u.fr.len = some d := by rw [hu]; exact hd3
  have hfree : firstZero (u.ctrl inst).trp = some m := by
    rw [hctrl, State.fail_eq, State.ctrl_finish, htrp3]
    exact firstZero_one_free m
  obtain ⟨t5, hx5, hc5, hr5, _⟩ := exec_transmit_takes hku hfree hdu
  exact ⟨t5, hx5, hc5, hr5⟩

end Sys2Proof.Machine

/-!
The receive commands (44_receive.md): how the FIFO operand selects among a command's answers (R340, R342, R343), the acknowledge
of the get index (R58), and the decoded slot (R341).
-/

namespace Sys2Proof.Machine

/-- The number of a FIFO selects it (R340). -/
theorem fifoArg_of_eq_number {w : Word} {f : FifoId} (h : w = f.number) : fifoArg w = some f := by
  subst h
  cases f <;> rfl

/-! The slot decoder (R341). -/

/-- A field taken out and widened is the word shifted down, under the field's mask. -/
theorem setWidth_extract (w : Word) (k n : Nat) : (w.extractLsb' k n).setWidth 32 = (w >>> k) &&& place (BitVec.allOnes n) 0 := by
  rw [← place_extract, place_zero]
  apply BitVec.eq_of_getLsbD_eq
  intro i hi
  simp [hi]

/-- The low half of a word, widened and shifted up, is the word shifted up. -/
theorem setWidth_extract_low_shiftLeft (w : Word) : (w.extractLsb' 0 16).setWidth 32 <<< 16 = w <<< 16 := by
  apply BitVec.eq_of_getLsbD_eq
  intro i hi
  have hlow : i - 16 < 16 := by omega
  simp only [BitVec.getLsbD_shiftLeft, BitVec.getLsbD_setWidth, BitVec.getLsbD_extractLsb', hlow, decide_true, Bool.true_and,
    Nat.zero_add, show i - 16 < 32 by omega]

/-- The identifier of a slot's first word: its low 29 bits, or bits 28:18 (R341). -/
theorem setWidth_idOfField (xtd : Bool) (w : Word) : (idOfField xtd (w.extractLsb' 0 29)).setWidth 32 =
    if xtd = true then w &&& 0x1FFFFFFF#32 else (w >>> 18) &&& 0x7FF#32 := by
  cases xtd
  · refine Eq.trans ?_ (setWidth_extract w 18 11)
    apply BitVec.eq_of_getLsbD_eq
    intro i hi
    simp [idOfField]
  · exact setWidth_extract w 0 29

/-- Settles O25: each register's fields at their bits, a field of the slot as the word shifted and masked. -/
theorem slotDecoderFormulas : Obligations.SlotDecoderFormulas := by
  unfold Obligations.SlotDecoderFormulas
  intro r0 r1 data r bit
  refine ⟨?_, r.flagsWord_eq, ?_, ?_, rfl⟩
  · exact (place_zero _).trans (setWidth_idOfField _ r0)
  · exact Nat.mod_eq_of_lt ((d2l_le _).trans_lt (by decide))
  · rw [FrameRegs.metaWord_eq]
    exact congrArg₂ (· ||| ·) (setWidth_extract r1 24 7) (setWidth_extract_low_shiftLeft r1)

/-! The acknowledge of the get index (R57, R58). -/

/-- A FIFO with its oldest slot acknowledged. -/
def RxFifo.released (n : Nat) (x : RxFifo) : RxFifo :=
  { x with gi := BitVec.ofNat 2 ((x.gi.toNat + 1) % n), fl := x.fl - 1#4, ai := x.gi.setWidth 3 }

/-- Writing the get index to the acknowledge register of a FIFO that holds a frame (R57, R58). -/
theorem RxFifo.writeAck_get {n : Nat} {x : RxFifo} (hx : x.Ok n) (hne : x.fl ≠ 0#4) :
    x.writeAck n (x.gi.setWidth 3) = x.released n := by
  have hpos : 0 < x.fl.toNat := Nat.pos_of_ne_zero fun h => hne (BitVec.eq_of_toNat_eq h)
  have hgi : (x.gi.setWidth 3).toNat = x.gi.toNat := BitVec.toNat_setWidth_of_le (by decide)
  have hslot : (x.gi.setWidth 3).toNat = (x.gi.toNat + 0) % n := by
    rw [hgi, Nat.add_zero, Nat.mod_eq_of_lt hx.2.1]
  have hfl : BitVec.ofNat 4 (x.fl.toNat - (0 + 1)) = x.fl - 1#4 := by bv_omega
  rw [RxFifo.writeAck, RxFifo.ack_inside hx hpos hslot, hfl, hgi]
  rfl

/-- The receive commands' acknowledge of the get index (R342, R343). -/
theorem State.ackFifo_get {s : State} {i : BitVec 2} {f : FifoId} (hx : ((s.ctrl i).fifo f).Ok s.params.fifoDepth)
    (hne : ((s.ctrl i).fifo f).fl ≠ 0#4) : s.ackFifo i f ((s.ctrl i).fifo f).gi =
      s.setCtrl i ((s.ctrl i).setFifo f (((s.ctrl i).fifo f).released s.params.fifoDepth)) := by
  have hlow : (((s.ctrl i).fifo f).gi.setWidth 32).extractLsb' 0 3 = ((s.ctrl i).fifo f).gi.setWidth 3 := by
    rw [extract_low _ (by decide)]
    exact BitVec.setWidth_setWidth_of_le _ (by decide)
  rw [State.ackFifo, State.regWrite_eq, Ctrl.write, hlow, RxFifo.writeAck_get hx hne]

/-! The answers of the three commands. -/

section Receive

variable {i : BitVec 2} {s : State} (hk : s.Known i)
include hk

/-- A FIFO number other than 0 and 1 (R340, R342, R343). -/
theorem exec_receiveCommand_invalid (h : 1 < s.arg0.toNat) :
    exec (.availableRx i) s = .next (s.fail .invalid) ∧ exec (.receive i) s = .next (s.fail .invalid) ∧
      exec (.fifoRelease i) s = .next (s.fail .invalid) := by
  refine ⟨(onInst_known hk _).trans ?_, (onInst_known hk _).trans ?_, (onInst_known hk _).trans ?_⟩
  · rw [State.availableRx, fifoArg_none h]
  · rw [State.receive, fifoArg_none h]
  · rw [State.fifoRelease, fifoArg_none h]

variable {f : FifoId} (hf : s.arg0 = f.number)
include hf

/-- AVAILABLE_RX of a FIFO (R340). -/
theorem exec_availableRx_count : exec (.availableRx i) s = .next (s.finish .ok
    (((s.ctrl i).fifo f).fl.setWidth 32 ||| (((s.ctrl i).fifo f).gi.setWidth 32 <<< 8))) := by
  refine (onInst_known hk _).trans ?_
  rw [State.availableRx, fifoArg_of_eq_number hf]
  simp only [State.fillOf_status, State.getOf_status]

/-- RECEIVE and FIFO_RELEASE of an empty FIFO (R342, R343). -/
theorem exec_receiveCommand_empty (h0 : ((s.ctrl i).fifo f).fl = 0#4) :
    exec (.receive i) s = .next (s.fail .notAvailable) ∧ exec (.fifoRelease i) s = .next (s.fail .notAvailable) := by
  have hfill : fillOf (s.regRead i (.rxs f)) = 0#4 := (s.fillOf_status i f).trans h0
  refine ⟨(onInst_known hk _).trans ?_, (onInst_known hk _).trans ?_⟩
  · rw [State.receive, fifoArg_of_eq_number hf]
    exact congrArg _ (if_pos hfill)
  · rw [State.fifoRelease, fifoArg_of_eq_number hf]
    exact congrArg _ (if_pos hfill)

variable (hx : ((s.ctrl i).fifo f).Ok s.params.fifoDepth) (hne : ((s.ctrl i).fifo f).fl ≠ 0#4)
include hx hne

/-- RECEIVE of a FIFO that holds a frame (R342). -/
theorem exec_receive_frame : exec (.receive i) s = .next
    (({ s with fr := s.receivedFrame i f ((s.ctrl i).fifo f).gi }.setCtrl i
      (if s.arg1.getLsbD 0 = true then (s.ctrl i).setFifo f (((s.ctrl i).fifo f).released s.params.fifoDepth)
        else s.ctrl i)).finish .ok (((s.ctrl i).fifo f).gi.setWidth 32)) := by
  refine (onInst_known hk _).trans ?_
  rw [State.receive, fifoArg_of_eq_number hf]
  simp only [State.fillOf_status, State.getOf_status, if_neg hne]
  split
  · exact congrArg (fun t : State => Host.Outcome.next (t.finish _ _)) (State.ackFifo_get (s := { s with fr := _ }) hx hne)
  · exact congrArg (fun t : State => Host.Outcome.next (t.finish _ _)) (State.setCtrl_ctrl { s with fr := _ } i).symm

/-- FIFO_RELEASE of a FIFO that holds a frame (R343). -/
theorem exec_fifoRelease_frame : exec (.fifoRelease i) s = .next
    ((s.setCtrl i ((s.ctrl i).setFifo f (((s.ctrl i).fifo f).released s.params.fifoDepth))).finish .ok
      (((s.ctrl i).fifo f).gi.setWidth 32)) := by
  refine (onInst_known hk _).trans ?_
  rw [State.fifoRelease, fifoArg_of_eq_number hf]
  simp only [State.fillOf_status, State.getOf_status, if_neg hne]
  rw [State.ackFifo_get hx hne]

end Receive

/-- Settles O23: the FIFO operand selects the answer, and the status word is read back field by field (R56). -/
theorem availableRxReportsCountAndGetIndex : Obligations.AvailableRxReportsCountAndGetIndex := by
  unfold Obligations.AvailableRxReportsCountAndGetIndex
  intro inst s hk
  exact ⟨commandWord_eq _ _, rfl, rfl, fun h => (exec_receiveCommand_invalid hk h).1, fun _ hf => exec_availableRx_count hk hf⟩

/-- Settles O24: one lemma for each answer; the data words are those `State.receivedFrame` gathers, and with ARG1 bit 0 the
controller is the one `State.ackFifo_get` gives. -/
theorem receiveDecodesSlotAtGetIndex : Obligations.ReceiveDecodesSlotAtGetIndex := by
  unfold Obligations.ReceiveDecodesSlotAtGetIndex
  intro inst s hk
  exact ⟨commandWord_eq _ _, fun h => (exec_receiveCommand_invalid hk h).2.1,
    fun _ hf h0 => (exec_receiveCommand_empty hk hf h0).1, fun f hf _ hx hne =>
      ⟨_, exec_receive_frame hk hf hx hne, rfl, rfl, fun k => Vector.get_ofFn _ k, State.ctrlBecomes_setCtrl _ inst _⟩⟩

/-- Settles O26: one lemma for each answer, the acknowledge being `State.ackFifo_get`. -/
theorem fifoReleaseFreesOneSlot : Obligations.FifoReleaseFreesOneSlot := by
  unfold Obligations.FifoReleaseFreesOneSlot
  intro inst s hk
  exact ⟨commandWord_eq _ _, fun h => (exec_receiveCommand_invalid hk h).2.2,
    fun _ hf h0 => (exec_receiveCommand_empty hk hf h0).2, fun f hf _ hx hne =>
      ⟨_, exec_fifoRelease_frame hk hf hx hne, rfl, State.ctrlBecomes_setCtrl _ inst _⟩⟩

end Sys2Proof.Machine

/-!
The interrupt line commands (45_irq.md): ILE is two bits wide, so the word each command computes from the register read and the
masked operand is the widened new value of the field, which ILE takes and the command answers.
-/

namespace Sys2Proof.Machine

/-- A write of a widened 2-bit value to ILE, which no gate holds back (R64). -/
theorem State.regWrite_ile (s : State) (i : BitVec 2) (v : BitVec 2) :
    s.regWrite i .ile (v.setWidth 32) = s.setCtrl i { s.ctrl i with ile := v } := by
  have hlow : (v.setWidth 32).extractLsb' 0 2 = v := by
    rw [extract_low _ (by decide), BitVec.setWidth_setWidth_of_le _ (by decide), BitVec.setWidth_eq]
  rw [State.regWrite_eq, Ctrl.write, hlow]

theorem State.regRead_ile (s : State) (i : BitVec 2) : s.regRead i .ile = (s.ctrl i).ile.setWidth 32 := place_zero _

/-- The lines operand: bits 1:0 of ARG0 (R380, R381). -/
theorem and_three_eq_setWidth (w : Word) : w &&& 0x3#32 = (w.setWidth 2).setWidth 32 := by
  have h := place_setWidth w (show 2 ≤ 32 by decide) 0
  rw [place_zero, BitVec.shiftLeft_zero] at h
  exact h.symm

/-- The complement of a widened mask keeps bits 31:2, which a widened value does not have (R381). -/
theorem setWidth_and_not_setWidth {m n : Nat} (v x : BitVec m) :
    v.setWidth n &&& ~~~x.setWidth n = (v &&& ~~~x).setWidth n := by
  apply BitVec.eq_of_getLsbD_eq
  intro k hk
  by_cases hm : k < m
  · simp [hk, hm]
  · simp [hk, hm, BitVec.getLsbD_of_ge v k (Nat.not_lt.1 hm)]

theorem State.enableIrq_eq (s : State) (i : BitVec 2) : s.enableIrq i =
    (s.setCtrl i { s.ctrl i with ile := (s.ctrl i).ile ||| s.arg0.setWidth 2 }).finish .ok
      (((s.ctrl i).ile ||| s.arg0.setWidth 2).setWidth 32) := by
  simp only [State.enableIrq, State.regRead_ile, and_three_eq_setWidth, ← BitVec.setWidth_or, State.regWrite_ile]

theorem State.disableIrq_eq (s : State) (i : BitVec 2) : s.disableIrq i =
    (s.setCtrl i { s.ctrl i with ile := (s.ctrl i).ile &&& ~~~s.arg0.setWidth 2 }).finish .ok
      (((s.ctrl i).ile &&& ~~~s.arg0.setWidth 2).setWidth 32) := by
  simp only [State.disableIrq, State.regRead_ile, and_three_eq_setWidth, setWidth_and_not_setWidth, State.regWrite_ile]

/-- Settles O28: `State.enableIrq_eq`. -/
theorem enableIrqOrsMask : Obligations.EnableIrqOrsMask := by
  unfold Obligations.EnableIrqOrsMask
  intro inst s hk
  exact ⟨commandWord_eq _ _, _, (onInst_known hk _).trans (congrArg _ (s.enableIrq_eq inst)), rfl,
    s.ctrlBecomes_setCtrl inst _⟩

/-- Settles O29: `State.disableIrq_eq`. -/
theorem disableIrqClearsMask : Obligations.DisableIrqClearsMask := by
  unfold Obligations.DisableIrqClearsMask
  intro inst s hk
  exact ⟨commandWord_eq _ _, _, (onInst_known hk _).trans (congrArg _ (s.disableIrq_eq inst)), rfl,
    s.ctrlBecomes_setCtrl inst _⟩

end Sys2Proof.Machine

/-!
Acceptance filtering (R405 to R411): the scan's answer from the first element that matches, an element's rule on its fields as
numbers, and where an action code or a routing value sends the frame.
-/

namespace Sys2Proof.Machine

/-! The scan (R405). -/

/-- The element rule that filtering scans for a frame: the extended or the standard table's (R405). -/
def State.filterRule (s : State) (i : BitVec 2) (f : Frame) (k : Nat) : Option (BitVec 3) :=
  if f.xtd = true then extRule (s.memRead i (efl k)) (s.memRead i (efl k + 4)) f.id else stdRule (s.memRead i (sfl k)) f.id

/-- How many elements filtering scans for a frame: effLSE or effLSS (R25, R405). -/
def State.filterCount (s : State) (i : BitVec 2) (f : Frame) : Nat :=
  if f.xtd = true then (s.ctrl i).effLSE else (s.ctrl i).effLSS

/-- Filtering is one scan with the frame's rule and count (R405). -/
theorem State.scan_eq (s : State) (i : BitVec 2) (f : Frame) :
    (if f.xtd = true then s.extMatch i f.id else s.stdMatch i f.id) =
      firstMatch (s.filterRule i f) 0 (s.filterCount i f) := by
  unfold State.filterCount State.extMatch State.stdMatch
  split
  · rename_i hx
    exact congrArg (firstMatch · 0 _) (funext fun k => (if_pos hx).symm)
  · rename_i hx
    exact congrArg (firstMatch · 0 _) (funext fun k => (if_neg hx).symm)

/-- The first element that matches decides (R405). -/
theorem State.accept_of_first {s : State} {i : BitVec 2} {f : Frame} {k : Nat} {a : BitVec 3} (hk : k < s.filterCount i f)
    (hmatch : s.filterRule i f k = some a) (hskip : ∀ j < k, s.filterRule i f j = none) (d : Draws) :
    s.accept i f d = filterAction d a k := by
  have hfirst : firstMatch (s.filterRule i f) 0 (s.filterCount i f) = some (a, k) :=
    firstMatch_some.2 ⟨Nat.zero_le k, by omega, hmatch, fun j _ hj => hskip j hj⟩
  simp only [State.accept, State.scan_eq, hfirst]

/-- With no element that matches the global rule decides (R405, R411). -/
theorem State.accept_of_none {s : State} {i : BitVec 2} {f : Frame}
    (hskip : ∀ k < s.filterCount i f, s.filterRule i f k = none) (d : Draws) :
    s.accept i f d = nonmatch d (if f.xtd = true then (s.ctrl i).rxgfc.anfe else (s.ctrl i).rxgfc.anfs) := by
  have hfirst : firstMatch (s.filterRule i f) 0 (s.filterCount i f) = none :=
    firstMatch_none.2 fun k _ hk => hskip k (by omega)
  simp only [State.accept, State.scan_eq, hfirst]

/-- Settles O49: `State.accept_of_first` and `State.accept_of_none`. -/
theorem firstMatchingFilterDecides : Obligations.FirstMatchingFilterDecides := by
  unfold Obligations.FirstMatchingFilterDecides
  intro s i f d c rule count
  exact ⟨fun k a hk hmatch hskip => State.accept_of_first hk hmatch hskip d, fun hskip => State.accept_of_none hskip d⟩

/-! The elements (R406, R407, R408). -/

/-- A field of a word as a number (R21). -/
theorem toNat_field (w : Word) (k n : Nat) : (w.extractLsb' k n).toNat = w.toNat / 2 ^ k % 2 ^ n := by
  rw [BitVec.extractLsb'_toNat, Nat.shiftRight_eq_div_pow]

/-- A field that reaches bit 31 is all the bits from its lowest up. -/
theorem toNat_topField (w : Word) {k n : Nat} (h : k + n = 32) : (w.extractLsb' k n).toNat = w.toNat / 2 ^ k := by
  rw [toNat_field, Nat.mod_eq_of_lt]
  exact Nat.div_lt_of_lt_mul (by rw [← Nat.pow_add, h]; exact w.isLt)

/-- A field is its number. -/
theorem eq_ofNat_of_toNat {n m : Nat} {x : BitVec n} (h : x.toNat = m) : x = BitVec.ofNat n m := by
  rw [← h, BitVec.ofNat_toNat, BitVec.setWidth_eq]

/-- Settles O50: the two rules with every field and every comparison turned to numbers. -/
theorem filterElementMatchModes : Obligations.FilterElementMatchModes := by
  unfold Obligations.FilterElementMatchModes
  intro w w1 id
  have htype (v : Word) : (v.extractLsb' 30 2).toNat = v.toNat / 2 ^ 30 := toNat_topField v rfl
  constructor
  · intro hid t c id1 id2
    have hid11 : (id.setWidth 11).toNat = id.toNat := (BitVec.toNat_setWidth _ _).trans (Nat.mod_eq_of_lt hid)
    have hcode : w.extractLsb' 27 3 = BitVec.ofNat 3 c := eq_ofNat_of_toNat (toNat_field w 27 3)
    simp only [stdRule, ← BitVec.toNat_inj, BitVec.toNat_and, hid11, htype, toNat_field, rangeMatch, Bool.and_eq_true,
      decide_eq_true_eq, Nat.pow_zero, Nat.div_one]
    rw [hcode]
    rfl
  · intro c id1 t id2
    have hc : (w.extractLsb' 29 3).toNat = w.toNat / 2 ^ 29 := toNat_topField w rfl
    simp only [extRule, ← BitVec.toNat_inj, BitVec.toNat_and, htype, hc, toNat_field, rangeMatch, Bool.and_eq_true,
      decide_eq_true_eq, Nat.pow_zero, Nat.div_one]
    rw [eq_ofNat_of_toNat hc]
    rfl

/-- Settles O51: each code's and each routing value's branch. -/
theorem filterActionsAndNonMatchingRouting : Obligations.FilterActionsAndNonMatchingRouting := by
  unfold Obligations.FilterActionsAndNonMatchingRouting
  intro d k g
  exact ⟨rfl, rfl, rfl, rfl, rfl, rfl, rfl, fun _ _ _ _ => ⟨rfl, rfl⟩, rfl, fun _ _ => ⟨rfl, rfl⟩⟩
end Sys2Proof.Machine

/-!
The protocol engine's steps (R390 to R396): when each is enabled, and what the enabled synchronisation, completion and receive
steps do.
-/

namespace Sys2Proof.Machine

/-! When a step is enabled (R390, R391, R392, R394). -/

/-- Instance `i` exists and its clock runs (R18, R391). -/
theorem State.clocked_iff (s : State) (i : BitVec 2) :
    s.clocked i = true ↔ s.Known i ∧ s.params.clockRunning.get i.toFin = true := by
  rw [State.clocked, Bool.and_eq_true, decide_eq_true_eq]

/-- LOOPBACK is TEST with LBCK (R395). -/
theorem Ctrl.loopback_iff (c : Ctrl) : c.loopback = true ↔ c.test = true ∧ c.lbck = true := Bool.and_eq_true_iff

/-- The condition of a completion: the instance runs, the mailbox is pending, and MON does not silence it (R392). -/
theorem State.txEnabled_iff (s : State) (i : BitVec 2) (m : Fin 3) : s.txEnabled i m = true ↔
    s.running i = true ∧ (s.ctrl i).trp.getLsbD m.val = true ∧ ((s.ctrl i).mon = true → (s.ctrl i).loopback = true) := by
  cases hmon : (s.ctrl i).mon <;> simp [State.txEnabled, hmon, and_assoc]

/-- A completion that is not enabled is passed over (log 3). -/
theorem State.txStep_passed {s : State} {i : BitVec 2} {m : Fin 3} (h : ¬s.txEnabled i m = true) (ok : Bool) (d : Draws) :
    s.txStep i m ok d = s := if_neg h

/-- The receive step of frame `f` is enabled: the instance runs outside internal loopback, and the bus can bring `f` (R394,
R395). -/
def State.RxEnabled (s : State) (i : BitVec 2) (f : Frame) : Prop :=
  s.running i = true ∧ ¬((s.ctrl i).loopback = true ∧ (s.ctrl i).mon = true) ∧ busFrame (s.ctrl i) f = true

/-- The condition of the receive step (R394). -/
theorem State.rxEnabled_iff (s : State) (i : BitVec 2) (f : Frame) :
    (s.running i && !((s.ctrl i).loopback && (s.ctrl i).mon) && busFrame (s.ctrl i) f) = true ↔ s.RxEnabled i f := by
  rw [Bool.and_eq_true, Bool.and_eq_true, Bool.not_eq_true', Bool.eq_false_iff, Ne, Bool.and_eq_true, and_assoc]
  rfl

theorem State.rxStep_enabled {s : State} {i : BitVec 2} {f : Frame} (h : s.RxEnabled i f) (d : Draws) :
    s.rxStep i f d = s.deliver i f d := if_pos ((s.rxEnabled_iff i f).2 h)

theorem State.rxStep_passed {s : State} {i : BitVec 2} {f : Frame} (h : ¬s.RxEnabled i f) (d : Draws) :
    s.rxStep i f d = s := if_neg (mt (s.rxEnabled_iff i f).1 h)

/-- The synchronisation step of an instance that is clocked (R390). -/
theorem State.syncStep_clocked {s : State} {i : BitVec 2} (h : s.clocked i = true) :
    s.syncStep i = s.setCtrl i { s.ctrl i with initAck := (s.ctrl i).initReq } := by
  rw [State.syncStep_eq, if_pos h]

/-- The synchronisation entry of an instance that is not clocked is passed over (R391, log 3). -/
theorem State.syncStep_passed {s : State} {i : BitVec 2} (h : ¬s.clocked i = true) : s.syncStep i = s := by
  rw [State.syncStep_eq, if_neg h]

/-- Settles O40: the two outcomes of the synchronisation step. -/
theorem syncCopiesRequestToAcknowledge : Obligations.SyncCopiesRequestToAcknowledge := by
  unfold Obligations.SyncCopiesRequestToAcknowledge
  intro s rest i ha
  by_cases hclk : s.Known i ∧ s.params.clockRunning.get i.toFin = true
  · have hstep := State.syncStep_clocked (s := { s with agenda := rest }) ((s.clocked_iff i).2 hclk)
    rw [if_pos hclk]
    exact ⟨_, (step_cons ha).trans (congrArg Host.Outcome.next hstep), rfl,
      State.ctrlBecomes_setCtrl { s with agenda := rest } i _⟩
  · have hstep := State.syncStep_passed (s := { s with agenda := rest }) (mt (s.clocked_iff i).1 hclk)
    rw [if_neg hclk]
    exact ⟨_, (step_cons ha).trans (congrArg Host.Outcome.next hstep), rfl,
      State.ctrlBecomes_self { s with agenda := rest } i⟩

/-- The entry of an engine step of instance `i` that asks for a running instance (R391, R398). -/
theorem State.turnStep_not_running {s : State} {i : BitVec 2} (h : ¬s.running i = true) {u : Turn}
    (hu : (∃ m ok d, u = .txDone i m ok d) ∨ (∃ f d, u = .rxFrame i f d) ∨ u = .busOff i) : s.turnStep u = .next s := by
  rcases hu with ⟨m, ok, d, rfl⟩ | ⟨f, d, rfl⟩ | rfl
  · exact congrArg _ (State.txStep_passed (fun hen => h ((s.txEnabled_iff i m).1 hen).1) ok d)
  · exact congrArg _ (State.rxStep_passed (fun hen => h hen.1) d)
  · refine congrArg _ (State.busOffStep_passed fun hen => h ((s.running_iff i).2 ?_))
    obtain ⟨_, hk, hclk, hinit, _⟩ := hen
    exact ⟨hk, hclk, hinit⟩

/-- Settles O41: each clause denies the condition of its step, and `busFrame_iff` is the last. -/
theorem noTrafficWithoutClockOrInInitialisation : Obligations.NoTrafficWithoutClockOrInInitialisation := by
  unfold Obligations.NoTrafficWithoutClockOrInInitialisation
  intro s rest i m ok f d c onBus
  have hbus : busFrame c f = true ↔ onBus := busFrame_iff
  refine ⟨fun hoff ha => ?_, fun hoff ha => ?_, fun hoff ha => ?_, hbus⟩
  · have hrun : ¬s.running i = true := by
      rw [s.running_iff]
      rintro ⟨hk, hclk, hinit⟩
      rcases hoff with h | h | h
      · exact h hk
      · exact Bool.false_ne_true (h.symm.trans hclk)
      · exact Bool.false_ne_true (hinit.symm.trans h)
    rcases ha with ha | ha | ha | ⟨ha, hoff⟩ <;> rw [step_cons ha]
    · exact State.turnStep_not_running (s := { s with agenda := rest }) hrun (.inl ⟨m, ok, d, rfl⟩)
    · exact State.turnStep_not_running (s := { s with agenda := rest }) hrun (.inr (.inl ⟨f, d, rfl⟩))
    · exact State.turnStep_not_running (s := { s with agenda := rest }) hrun (.inr (.inr rfl))
    · refine congrArg _ (State.syncStep_passed (s := { s with agenda := rest }) fun hclk => ?_)
      obtain ⟨hk, hclk⟩ := (s.clocked_iff i).1 hclk
      rcases hoff with h | h
      · exact h hk
      · exact Bool.false_ne_true (h.symm.trans hclk)
  · rw [step_cons ha]
    refine congrArg _ (State.txStep_passed (s := { s with agenda := rest }) (fun hen => ?_) ok d)
    obtain ⟨_, hpending, hmon⟩ := (s.txEnabled_iff i m).1 hen
    rcases hoff with h | ⟨h, hloop⟩
    · exact Bool.false_ne_true (h.symm.trans hpending)
    · exact hloop (c.loopback_iff.1 (hmon h))
  · rw [step_cons ha]
    refine congrArg _ (State.rxStep_passed (s := { s with agenda := rest }) (fun hen => ?_) d)
    obtain ⟨_, hloop, hframe⟩ := hen
    rcases hoff with ⟨hmon, htest, hlbck⟩ | h
    · exact hloop ⟨c.loopback_iff.2 ⟨htest, hlbck⟩, hmon⟩
    · exact h (hbus.1 hframe)

/-! Completions (R392, R396). -/

/-- Which requests are left after the completion of mailbox `m` (R392). -/
theorem Ctrl.getLsbD_trp_complete (c : Ctrl) (m k : Fin 3) (tc : Bool) :
    (c.complete m tc).trp.getLsbD k.val = if k = m then false else c.trp.getLsbD k.val := by
  have hbit : ∀ (p : BitVec 3) (m k : Fin 3),
      (p &&& ~~~(1#3 <<< m.val)).getLsbD k.val = if k = m then false else p.getLsbD k.val := by decide
  exact hbit c.trp m k

/-- A successful completion sets TC (R392). -/
theorem Ctrl.complete_true (c : Ctrl) (m : Fin 3) :
    c.complete m true = { c with trp := c.trp &&& ~~~(1#3 <<< m.val), ir := { c.ir with tc := true } } := by
  rw [Ctrl.complete, Bool.or_true]

/-- After the completion of mailbox `m` its request is gone, TC is set if `tc` says so, and all else is as before (R392). -/
theorem State.completed (s : State) (i : BitVec 2) (m : Fin 3) (tc : Bool) :
    s.CtrlBecomes (s.setCtrl i ((s.ctrl i).complete m tc)) i { s.ctrl i with
      trp := (s.setCtrl i ((s.ctrl i).complete m tc)).trpOf i, ir := { (s.ctrl i).ir with tc := (s.ctrl i).ir.tc || tc } } ∧
    ∀ k : Fin 3, ((s.setCtrl i ((s.ctrl i).complete m tc)).trpOf i).getLsbD k.val =
      if k = m then false else (s.ctrl i).trp.getLsbD k.val := by
  have hset := s.ctrlBecomes_setCtrl i ((s.ctrl i).complete m tc)
  refine ⟨⟨?_, hset.2⟩, fun k => ?_⟩
  · rw [State.trpOf, hset.1]
    rfl
  · rw [State.trpOf, hset.1]
    exact Ctrl.getLsbD_trp_complete _ m k tc

/-- A completion outside loopback (R392). -/
theorem State.txStep_bus {s : State} {i : BitVec 2} {m : Fin 3} (hen : s.txEnabled i m = true)
    (hloop : ¬(s.ctrl i).loopback = true) (ok : Bool) (d : Draws) : s.txStep i m ok d =
      if ok = true then s.setCtrl i ((s.ctrl i).complete m true)
      else if (s.ctrl i).dar = true then s.setCtrl i ((s.ctrl i).complete m false)
      else s := (if_pos hen).trans (if_neg hloop)

/-- A completion in loopback (R392, R396). -/
theorem State.txStep_loopback {s : State} {i : BitVec 2} {m : Fin 3} (hen : s.txEnabled i m = true)
    (hloop : (s.ctrl i).loopback = true) (ok : Bool) (d : Draws) :
    s.txStep i m ok d = (s.setCtrl i ((s.ctrl i).complete m true)).deliver i (s.txFrame i m) d :=
  (if_pos hen).trans (if_pos hloop)

/-- Settles O42: the three outcomes of `State.txStep_bus`. -/
theorem transmitCompletionOutsideLoopback : Obligations.TransmitCompletionOutsideLoopback := by
  unfold Obligations.TransmitCompletionOutsideLoopback
  intro s rest i m ok d ha hk hclk hinit hpending hmon hloop
  have hen : s.txEnabled i m = true := (s.txEnabled_iff i m).2
    ⟨(s.running_iff i).2 ⟨hk, hclk, hinit⟩, hpending, fun h => absurd (hmon.symm.trans h) Bool.false_ne_true⟩
  have hstep := (step_cons ha).trans (congrArg Host.Outcome.next
    (State.txStep_bus (s := { s with agenda := rest }) hen (mt (s.ctrl i).loopback_iff.1 hloop) ok d))
  have hcomplete := fun tc => State.completed { s with agenda := rest } i m tc
  by_cases hok : ok = true
  · obtain ⟨hctrl, hbits⟩ := hcomplete true
    rw [Bool.or_true] at hctrl
    rw [if_pos hok] at hstep
    refine ⟨_, hstep, rfl, ?_, fun k => (hbits k).trans ?_⟩
    · rw [if_pos hok]
      exact hctrl
    · simp only [hok, true_or, and_true]
      rfl
  · rw [if_neg hok] at hstep
    by_cases hdar : (s.ctrl i).dar = true
    · obtain ⟨hctrl, hbits⟩ := hcomplete false
      rw [Bool.or_false] at hctrl
      refine ⟨_, hstep.trans (congrArg _ (if_pos hdar)), rfl, ?_, fun k => (hbits k).trans ?_⟩
      · rw [if_neg hok, if_pos hdar]
        exact hctrl
      · simp only [hdar, or_true, and_true]
        rfl
    · refine ⟨_, hstep.trans (congrArg _ (if_neg hdar)), rfl, ?_, fun k => ?_⟩
      · rw [if_neg hok, if_neg hdar]
        exact State.ctrlBecomes_self { s with agenda := rest } i
      · rw [if_neg fun h => h.2.elim hok hdar]
        rfl

/-- Filtering looks at the filter configuration and memory alone (R405). -/
theorem State.accept_setCtrl (s : State) (i : BitVec 2) {c : Ctrl} (h : c.rxgfc = (s.ctrl i).rxgfc) (f : Frame) (d : Draws) :
    (s.setCtrl i c).accept i f d = s.accept i f d := by
  simp only [State.accept, State.extMatch, State.stdMatch, Ctrl.effLSE, Ctrl.effLSS, State.ctrl_setCtrl_self, h]
  rfl

/-- A discarded frame is not stored (R394). -/
theorem State.deliver_discard {s : State} {i : BitVec 2} {f : Frame} {d : Draws} (h : (s.accept i f d).dest = .discard) :
    s.deliver i f d = s := by
  simp only [State.deliver, h]

@[simp] theorem IrqBits.tc_setLost (b : IrqBits) (q : FifoId) : (b.setLost q).tc = b.tc := by cases q <;> rfl

@[simp] theorem IrqBits.tc_stored (b : IrqBits) (n : Nat) (q : FifoId) (x : RxFifo) : (b.stored n q x).tc = b.tc := by
  unfold IrqBits.stored
  cases q <;> split <;> rfl

/-- A delivery leaves TC (R394). -/
theorem State.tc_deliver (s : State) (i : BitVec 2) (f : Frame) (d : Draws) :
    ((s.deliver i f d).ctrl i).ir.tc = (s.ctrl i).ir.tc := by
  rcases s.deliver_cases i f d with ⟨_, h⟩ | ⟨q, _, ⟨_, h⟩ | ⟨_, h⟩⟩ <;> rw [h]
  · rw [State.ctrl_setCtrl_self, IrqBits.tc_setLost]
  · rw [State.ctrl_setCtrl_self, IrqBits.tc_stored]

/-- A delivery leaves the pending requests (R394). -/
theorem State.trpOf_deliver (s : State) (i : BitVec 2) (f : Frame) (d : Draws) : (s.deliver i f d).trpOf i = s.trpOf i := by
  obtain ⟨_, _, _, h⟩ := s.ctrl_deliver i f d i
  rw [State.trpOf, h]

/-- Settles O43: the completed state of `Ctrl.complete_true` and a delivery to it, which leaves TC and the requests. -/
theorem loopbackCompletionDeliversOwnFrame : Obligations.LoopbackCompletionDeliversOwnFrame := by
  unfold Obligations.LoopbackCompletionDeliversOwnFrame
  intro s rest i m ok d ha hk hclk hinit hpending htest hlbck
  have hloop : (s.ctrl i).loopback = true := (s.ctrl i).loopback_iff.2 ⟨htest, hlbck⟩
  have hen : s.txEnabled i m = true :=
    (s.txEnabled_iff i m).2 ⟨(s.running_iff i).2 ⟨hk, hclk, hinit⟩, hpending, fun _ => hloop⟩
  have hstep : step s = .next ((({ s with agenda := rest } : State).setCtrl i ((s.ctrl i).complete m true)).deliver i
      (s.txFrame i m) d) :=
    (step_cons ha).trans (congrArg _ (State.txStep_loopback (s := { s with agenda := rest }) hen hloop ok d))
  have hset := State.ctrlBecomes_setCtrl { s with agenda := rest } i ((s.ctrl i).complete m true)
  have haccept := State.accept_setCtrl { s with agenda := rest } i (c := (s.ctrl i).complete m true) rfl (s.txFrame i m) d
  refine ⟨_, _, hstep, rfl, (Ctrl.complete_true _ m) ▸ hset, rfl, fun hdiscard => ?_, ?_, ?_, rfl⟩
  · exact State.deliver_discard ((congrArg Accepted.dest haccept).trans hdiscard)
  · rw [State.trpOf_deliver, State.trpOf, hset.1]
    exact ((s.ctrl i).getLsbD_trp_complete m m true).trans (if_pos rfl)
  · rw [State.tc_deliver, hset.1]
    exact Bool.or_true _

/-! The frame sent (R393). -/

/-- The identifier in a slot's first word, as a number (R393). -/
theorem toNat_idOfField (xtd : Bool) (w : Word) : (idOfField xtd (w.extractLsb' 0 29)).toNat =
    if xtd = true then w.toNat % 2 ^ 29 else (w.toNat / 2 ^ 18) % 2 ^ 11 := by
  cases xtd
  · simp only [idOfField, BitVec.toNat_setWidth, BitVec.extractLsb'_toNat, Nat.shiftRight_eq_div_pow, Bool.false_eq_true,
      if_false]
    omega
  · simp only [idOfField, BitVec.extractLsb'_toNat, Nat.shiftRight_zero, if_true]

/-- Byte `k` of the frame sent is the slot's byte `8 + k` (R393). -/
theorem State.getElem?_txFrame_bytes (s : State) (i : BitVec 2) (m : Fin 3) {k : Nat} (hk : k < (s.txFrame i m).bytes.length) :
    (s.txFrame i m).bytes[k]? = some (s.mem.readByte (s.params.msgram i + txslot s.params m.val + 8 + k)) := by
  rw [List.getElem?_eq_getElem hk]
  simp [State.txFrame]

/-- Settles O44: each field of `State.txFrame`, the identifier by `toNat_idOfField`. -/
theorem sentFrameFollowsSlotAndModes : Obligations.SentFrameFollowsSlotAndModes := by
  unfold Obligations.SentFrameFollowsSlotAndModes
  intro s i m a t0 t1 f
  exact ⟨rfl, rfl, toNat_idOfField _ t0, rfl, rfl, rfl, rfl, s.length_txFrame i m,
    fun k hk => s.getElem?_txFrame_bytes i m hk⟩

end Sys2Proof.Machine

/-!
Receiving (R394): what a delivery leaves in the FIFO, the flags and the slot, and what it leaves alone (R413).
-/

namespace Sys2Proof.Machine

/-! The words of a slot and their bytes (R101, R113, R394). -/

/-- Byte `k` of a word of four bytes (R101). -/
theorem extract_wordOfBytes_getElem (b0 b1 b2 b3 : Byte) {k : Nat} (hk : k < 4) :
    (wordOfBytes b0 b1 b2 b3).extractLsb' (8 * k) 8 = [b0, b1, b2, b3][k] := by
  obtain ⟨h0, h1, h2, h3⟩ := extract_wordOfBytes b0 b1 b2 b3
  match k, hk with
  | 0, _ => exact h0
  | 1, _ => exact h1
  | 2, _ => exact h2
  | 3, _ => exact h3

/-- Byte `k` of a word in memory is the byte `k` past the word's address (R101). -/
theorem Memory.extract_readWord (m : Memory) (a : Nat) {k : Nat} (hk : k < 4) :
    (m.readWord a).extractLsb' (8 * k) 8 = m.readByte (a + k) := by
  rw [Memory.readWord, extract_wordOfBytes_getElem _ _ _ _ hk]
  match k, hk with
  | 0, _ | 1, _ | 2, _ | 3, _ => rfl

/-- Byte `k` of a payload stands in word `k / 4` (R101, R394). -/
theorem extract_wordsOfBytes (pad : BitVec 24) : ∀ (bs : List Byte) {k : Nat} (hk : k < bs.length)
    (hw : k / 4 < (wordsOfBytes pad bs).length), (wordsOfBytes pad bs)[k / 4].extractLsb' (8 * (k % 4)) 8 = bs[k]
  | [b0], k, hk, _ => by
    match k, hk with
    | 0, _ => exact extract_wordOfBytes_getElem b0 _ _ _ (k := 0) (by decide)
  | [b0, b1], k, hk, _ => by
    match k, hk with
    | 0, _ => exact extract_wordOfBytes_getElem b0 b1 _ _ (k := 0) (by decide)
    | 1, _ => exact extract_wordOfBytes_getElem b0 b1 _ _ (k := 1) (by decide)
  | [b0, b1, b2], k, hk, _ => by
    match k, hk with
    | 0, _ => exact extract_wordOfBytes_getElem b0 b1 b2 _ (k := 0) (by decide)
    | 1, _ => exact extract_wordOfBytes_getElem b0 b1 b2 _ (k := 1) (by decide)
    | 2, _ => exact extract_wordOfBytes_getElem b0 b1 b2 _ (k := 2) (by decide)
  | b0 :: b1 :: b2 :: b3 :: bs, k, hk, hw => by
    match k, hk with
    | 0, _ => exact extract_wordOfBytes_getElem b0 b1 b2 b3 (k := 0) (by decide)
    | 1, _ => exact extract_wordOfBytes_getElem b0 b1 b2 b3 (k := 1) (by decide)
    | 2, _ => exact extract_wordOfBytes_getElem b0 b1 b2 b3 (k := 2) (by decide)
    | 3, _ => exact extract_wordOfBytes_getElem b0 b1 b2 b3 (k := 3) (by decide)
    | k + 4, hk =>
      have hword : (k + 4) / 4 = k / 4 + 1 := Nat.add_div_right k (by decide)
      simp only [hword, Nat.add_mod_right, wordsOfBytes, List.getElem_cons_succ]
      exact extract_wordsOfBytes pad bs (by simpa using hk) (by simpa [hword, wordsOfBytes] using hw)

/-- With the gate open, a payload written behind two header words is in memory byte by byte (R101, R394). -/
theorem State.readByte_memWrites_payload (s : State) (i : BitVec 2) {off : Nat} (w0 w1 : Word) (pad : BitVec 24)
    (bs : List Byte) (hg : gateOpen (s.ctrl i).configuring off = true) {k : Nat} (hk : k < bs.length) :
    (s.memWrites i off (w0 :: w1 :: wordsOfBytes pad bs)).mem.readByte (s.params.msgram i + off + 8 + k) = bs[k] := by
  have hw : k / 4 < (wordsOfBytes pad bs).length := by rw [length_wordsOfBytes]; omega
  have hword := s.memRead_memWrites i off (w0 :: w1 :: wordsOfBytes pad bs) hg (k / 4 + 2) (by simpa using hw)
  have haddr : s.params.msgram i + (off + 4 * (k / 4 + 2)) + k % 4 = s.params.msgram i + off + 8 + k := by omega
  calc (s.memWrites i off (w0 :: w1 :: wordsOfBytes pad bs)).mem.readByte (s.params.msgram i + off + 8 + k)
      = ((s.memWrites i off (w0 :: w1 :: wordsOfBytes pad bs)).memRead i (off + 4 * (k / 4 + 2))).extractLsb'
          (8 * (k % 4)) 8 := by
        rw [State.memRead, Memory.extract_readWord _ _ (Nat.mod_lt k (by decide)), State.memWrites_params, haddr]
    _ = (wordsOfBytes pad bs)[k / 4].extractLsb' (8 * (k % 4)) 8 := congrArg _ hword
    _ = bs[k] := extract_wordsOfBytes pad bs hk hw

/-- The identifier field of an identifier in its range (R113, R114). -/
theorem place_idField_of_lt {xtd : Bool} {id : BitVec 29} (hid : xtd = false → id.toNat < 2 ^ 11) :
    place (idField xtd id) 0 = if xtd = true then id.setWidth 32 else id.setWidth 32 <<< 18 := by
  rw [place_idField]
  split
  · rfl
  · rename_i hx
    have hlow : (0x7FF#32).toNat = 2 ^ 11 - 1 := rfl
    have hmask : id.setWidth 32 &&& 0x7FF#32 = id.setWidth 32 := by
      apply BitVec.eq_of_toNat_eq
      rw [BitVec.toNat_and, BitVec.toNat_setWidth_of_le (by decide), hlow, Nat.and_two_pow_sub_one_eq_mod,
        Nat.mod_eq_of_lt (hid (Bool.eq_false_iff.2 hx))]
    rw [hmask]

/-- RX0 of a frame whose identifier is in its range (R113, R394). -/
theorem encRx0_eq {f : Frame} (hid : f.xtd = false → f.id.toNat < 2 ^ 11) : encRx0 f =
    ((if f.esi = true then 1#32 else 0#32) <<< 31) ||| ((if f.xtd = true then 1#32 else 0#32) <<< 30) |||
      ((if f.rtr = true then 1#32 else 0#32) <<< 29) |||
      (if f.xtd = true then f.id.setWidth 32 else f.id.setWidth 32 <<< 18) := by
  rw [encRx0, flag_eq_ite, flag_eq_ite, flag_eq_ite, place_idField_of_lt hid]

/-- RX1 (R113, R394). -/
theorem encRx1_eq (f : Frame) (anmf : Bool) (fidx : BitVec 7) (ts : BitVec 16) : encRx1 f anmf fidx ts =
    ((if anmf = true then 1#32 else 0#32) <<< 31) ||| (fidx.setWidth 32 <<< 24) |||
      ((if f.fdf = true then 1#32 else 0#32) <<< 21) ||| ((if f.brs = true then 1#32 else 0#32) <<< 20) |||
      (f.dlc.setWidth 32 <<< 16) ||| ts.setWidth 32 := by
  rw [encRx1, flag_eq_ite, flag_eq_ite, flag_eq_ite, place_zero, place, place]

/-! The FIFO and the flags (R60, R61, R394). -/

/-- The fill level after a push, which does not wrap at the legal depths (R60, R394). -/
theorem RxFifo.toNat_fl_push {n : Nat} {x : RxFifo} (h : x.fl.toNat < 15) : (x.push n).fl.toNat = x.fl.toNat + 1 := by
  simp only [RxFifo.push, BitVec.toNat_add, BitVec.toNat_ofNat]
  omega

/-- A push as numbers (R394). -/
theorem RxFifo.push_eq (n : Nat) (x : RxFifo) : x.push n =
    { x with pi := BitVec.ofNat 2 ((x.pi.toNat + 1) % n), fl := BitVec.ofNat 4 (x.fl.toNat + 1) } := by
  rw [RxFifo.push, BitVec.ofNat_add, BitVec.ofNat_toNat, BitVec.setWidth_eq]

/-- RF0N, and RF0F if FIFO 0 is now full (R394). -/
theorem IrqBits.stored_fifo0 (b : IrqBits) (n : Nat) (x : RxFifo) :
    b.stored n .fifo0 x = { b with rf0n := true, rf0f := b.rf0f || decide (x.fl.toNat = n) } := by
  by_cases h : x.fl.toNat = n <;> simp [IrqBits.stored, IrqBits.setNew, IrqBits.setFull, h]

/-- RF1N, and RF1F if FIFO 1 is now full (R394). -/
theorem IrqBits.stored_fifo1 (b : IrqBits) (n : Nat) (x : RxFifo) :
    b.stored n .fifo1 x = { b with rf1n := true, rf1f := b.rf1f || decide (x.fl.toNat = n) } := by
  by_cases h : x.fl.toNat = n <;> simp [IrqBits.stored, IrqBits.setNew, IrqBits.setFull, h]

/-- The controller after one more frame in FIFO `q` of depth `n` (R394). -/
def Ctrl.storing (c : Ctrl) (n : Nat) (q : FifoId) : Ctrl :=
  { c.setFifo q ((c.fifo q).push n) with ir := c.ir.stored n q ((c.fifo q).push n) }

theorem Ctrl.storing_fifo0 {c : Ctrl} {n : Nat} (h : c.fifo0.fl.toNat < 15) : c.storing n .fifo0 = { c with
    fifo0 := { c.fifo0 with pi := BitVec.ofNat 2 ((c.fifo0.pi.toNat + 1) % n), fl := BitVec.ofNat 4 (c.fifo0.fl.toNat + 1) }
    ir := { c.ir with rf0n := true, rf0f := c.ir.rf0f || decide (c.fifo0.fl.toNat + 1 = n) } } := by
  rw [← RxFifo.push_eq, ← RxFifo.toNat_fl_push (n := n) h, ← IrqBits.stored_fifo0]
  rfl

theorem Ctrl.storing_fifo1 {c : Ctrl} {n : Nat} (h : c.fifo1.fl.toNat < 15) : c.storing n .fifo1 = { c with
    fifo1 := { c.fifo1 with pi := BitVec.ofNat 2 ((c.fifo1.pi.toNat + 1) % n), fl := BitVec.ofNat 4 (c.fifo1.fl.toNat + 1) }
    ir := { c.ir with rf1n := true, rf1f := c.ir.rf1f || decide (c.fifo1.fl.toNat + 1 = n) } } := by
  rw [← RxFifo.push_eq, ← RxFifo.toNat_fl_push (n := n) h, ← IrqBits.stored_fifo1]
  rfl

/-! A delivery's outcomes and the receive step (R394). -/

/-- A frame for a full FIFO is lost (R394). -/
theorem State.deliver_lost {s : State} {i : BitVec 2} {f : Frame} {d : Draws} {q : FifoId}
    (hdest : (s.accept i f d).dest = .store q) (hfull : ((s.ctrl i).fifo q).fl.toNat = s.params.fifoDepth) :
    s.deliver i f d = s.setCtrl i { s.ctrl i with ir := (s.ctrl i).ir.setLost q } := by
  simp only [State.deliver, hdest]
  exact if_pos hfull

/-- A frame for a FIFO that is not full is stored (R394). -/
theorem State.deliver_stored {s : State} {i : BitVec 2} {f : Frame} {d : Draws} {q : FifoId}
    (hdest : (s.accept i f d).dest = .store q) (hfree : ((s.ctrl i).fifo q).fl.toNat ≠ s.params.fifoDepth) :
    s.deliver i f d =
      (s.memWrites i (rxslot s.params q ((s.ctrl i).fifo q).pi.toNat) (storedWords f (s.accept i f d) d)).setCtrl i
        ((s.ctrl i).storing s.params.fifoDepth q) := by
  simp only [State.deliver, hdest]
  exact if_neg hfree

/-- Outside internal loopback a running instance receives every frame that meets the constraints (R394, R395). -/
theorem State.rxEnabled_of {s : State} {i : BitVec 2} {f : Frame} (hrun : s.running i = true)
    (hloop : ¬((s.ctrl i).test = true ∧ (s.ctrl i).lbck = true ∧ (s.ctrl i).mon = true))
    (hbus : busFrame (s.ctrl i) f = true) : s.RxEnabled i f := by
  refine ⟨hrun, fun h => hloop ?_, hbus⟩
  obtain ⟨hl, hmon⟩ := h
  obtain ⟨htest, hlbck⟩ := (s.ctrl i).loopback_iff.1 hl
  exact ⟨htest, hlbck, hmon⟩

/-- The step of an enabled receive entry (R394). -/
theorem step_rxFrame {s : State} {rest : List Turn} {i : BitVec 2} {f : Frame} {d : Draws}
    (ha : s.agenda = .rxFrame i f d :: rest) (hen : s.RxEnabled i f) :
    step s = .next (({ s with agenda := rest } : State).deliver i f d) :=
  (step_cons ha).trans (congrArg _ (State.rxStep_enabled (s := { s with agenda := rest }) hen d))

/-- Settles O46: `State.deliver_lost` and `State.deliver_discard`. -/
theorem fullFifoLosesFrame : Obligations.FullFifoLosesFrame := by
  unfold Obligations.FullFifoLosesFrame
  intro s rest i f d ha hk hclk hinit hloop hfdoe hbrs hrtr hesi hlen hid
  have hen := State.rxEnabled_of ((s.running_iff i).2 ⟨hk, hclk, hinit⟩) hloop
    (busFrame_iff.2 ⟨hfdoe, hbrs, hrtr, hesi, hlen, hid⟩)
  have hstep := step_rxFrame ha hen
  refine ⟨fun q hdest hfull => ?_, fun hdest => ?_⟩
  · have hlost := State.deliver_lost (s := { s with agenda := rest }) hdest hfull
    refine ⟨_, hstep, rfl, ?_⟩
    rw [hlost]
    refine ⟨rfl, ?_⟩
    cases q <;> exact State.ctrlBecomes_setCtrl { s with agenda := rest } i _
  · have hsame := State.deliver_discard (s := { s with agenda := rest }) hdest
    exact ⟨hstep.trans (congrArg _ hsame), hsame⟩

/-- Settles O45: the state of `State.deliver_stored`, its controller field by field, its slot word by word. -/
theorem receiveStoresFrameAtPutIndex : Obligations.ReceiveStoresFrameAtPutIndex := by
  unfold Obligations.ReceiveStoresFrameAtPutIndex
  intro s rest i f d q ha hk hclk hinit hloop hfdoe hbrs hrtr hesi hlen hid hdest hlegal hok hfree c x n a r bit y full
  have hen := State.rxEnabled_of ((s.running_iff i).2 ⟨hk, hclk, hinit⟩) hloop
    (busFrame_iff.2 ⟨hfdoe, hbrs, hrtr, hesi, hlen, hid⟩)
  have hstored := State.deliver_stored (s := { s with agenda := rest }) hdest hfree
  obtain ⟨_, _, _, hdepth, _⟩ := hlegal
  obtain ⟨hfl, _, hpi, _⟩ := hok
  have hlt : x.fl.toNat < 15 := (hfl.trans hdepth).trans_lt (by decide)
  have hgate : gateOpen c.configuring a = true := (gateOpen_iff c a).2 (.inl (rxslot_bounds s.params q hpi).1)
  have hword := State.memRead_memWrites { s with agenda := rest } i a (storedWords f r d) hgate
  refine ⟨_, step_rxFrame ha hen, rfl, ?_⟩
  rw [hstored]
  refine ⟨rfl, ?_, ?_, ?_, fun k hk => ?_, fun b hb => ?_⟩
  · refine ⟨(State.ctrl_setCtrl_self _ i _).trans ?_, fun j hj => State.ctrl_setCtrl_ne _ _ hj⟩
    cases q
    · exact Ctrl.storing_fifo0 hlt
    · exact Ctrl.storing_fifo1 hlt
  · exact (hword 0 (by simp [storedWords])).trans (encRx0_eq hid)
  · exact (hword 1 (by simp [storedWords])).trans (encRx1_eq f r.anmf r.fidx d.ts)
  · rw [List.getElem?_eq_getElem hk]
    exact congrArg some (State.readByte_memWrites_payload { s with agenda := rest } i _ _ d.pad f.bytes hgate hk).symm
  · refine State.readByte_memWrites_outside { s with agenda := rest } i a (storedWords f r d) fun hin => hb ?_
    rwa [length_storedWords, Nat.mul_add] at hin

/-! What an engine step leaves alone (R413, R454). -/

/-- From `s` to `t` only instance `i`'s controller and message RAM may change. -/
def State.OnlyInstance (s t : State) (i : BitVec 2) : Prop :=
  t = { s with ctrls := t.ctrls, mem := t.mem } ∧ ∀ j : BitVec 2, j ≠ i → t.ctrl j = s.ctrl j

theorem State.OnlyInstance.refl (s : State) (i : BitVec 2) : s.OnlyInstance s i := ⟨rfl, fun _ _ => rfl⟩

theorem State.OnlyInstance.trans {s t u : State} {i : BitVec 2} (h : s.OnlyInstance t i) (h' : t.OnlyInstance u i) :
    s.OnlyInstance u i := by
  refine ⟨?_, fun j hj => (h'.2 j hj).trans (h.2 j hj)⟩
  rw [h'.1, h.1]

theorem State.onlyInstance_setCtrl (s : State) (i : BitVec 2) (c : Ctrl) : s.OnlyInstance (s.setCtrl i c) i :=
  ⟨rfl, fun _ hj => s.ctrl_setCtrl_ne c hj⟩

/-- A delivery changes its instance's controller and message RAM (R394). -/
theorem State.onlyInstance_deliver (s : State) (i : BitVec 2) (f : Frame) (d : Draws) : s.OnlyInstance (s.deliver i f d) i := by
  rcases s.deliver_cases i f d with ⟨_, h⟩ | ⟨q, _, ⟨_, h⟩ | ⟨_, h⟩⟩ <;> rw [h]
  · exact .refl s i
  · exact s.onlyInstance_setCtrl i _
  · exact State.OnlyInstance.trans (t := s.memWrites i _ _) ⟨rfl, fun _ _ => rfl⟩ (State.onlyInstance_setCtrl _ i _)

/-- A transmit completion changes its instance's controller and message RAM (R392, R396). -/
theorem State.onlyInstance_txStep (s : State) (i : BitVec 2) (m : Fin 3) (ok : Bool) (d : Draws) :
    s.OnlyInstance (s.txStep i m ok d) i := by
  rcases s.txStep_cases i m ok d with ⟨_, h⟩ | ⟨_, ⟨_, h⟩ | ⟨_, h⟩⟩ <;> rw [h]
  · exact .refl s i
  · exact (s.onlyInstance_setCtrl i _).trans (State.onlyInstance_deliver _ i _ d)
  · split
    · exact s.onlyInstance_setCtrl i _
    · split
      · exact s.onlyInstance_setCtrl i _
      · exact .refl s i

/-- An engine step changes its instance's controller and message RAM (R413). -/
theorem State.onlyInstance_turnStep {s t : State} {u : Turn} (h : s.turnStep u = .next t) {i : BitVec 2} {m : Fin 3}
    {ok : Bool} {f : Frame} {d : Draws} (hu : u = .sync i ∨ u = .txDone i m ok d ∨ u = .rxFrame i f d ∨ u = .busOff i) :
    s.OnlyInstance t i := by
  rcases hu with rfl | rfl | rfl | rfl <;> obtain rfl := Host.Outcome.next.inj h
  · rw [State.syncStep_eq]
    split
    · exact s.onlyInstance_setCtrl i _
    · exact .refl s i
  · exact s.onlyInstance_txStep i m ok d
  · rcases s.rxStep_cases i f d with h | ⟨_, _, h⟩ <;> rw [h]
    · exact .refl s i
    · exact s.onlyInstance_deliver i f d
  · unfold State.busOffStep
    split
    · exact s.onlyInstance_setCtrl i _
    · exact .refl s i

/-- A delivery writes within the instance's receive FIFOs (R107, R394). -/
theorem State.InPutSlot.in_fifos {s : State} {i : BitVec 2} {a : Nat} (h : s.InPutSlot i a) (hs : s.Inv) :
    s.params.msgram i + 176 ≤ a ∧ a < s.params.msgram i + 176 + 2 * (72 * s.params.fifoDepth) := by
  obtain ⟨q, _, hlo, hhi⟩ := h
  obtain ⟨_, _, hpi, _⟩ := hs.fifo_ok i q
  simp only [rxslot, Params.f1Off, Config.f0Off, Config.eflOff, Config.slotBytes, Config.stdMax, Config.extMax] at hlo hhi
  cases q <;> dsimp only at hlo hhi <;> omega

/-- Settles O60: `State.onlyInstance_turnStep`, and memory by `TurnEffect.readByte_of_engine`. -/
theorem engineStepTouchesOwnInstanceOnly : Obligations.EngineStepTouchesOwnInstanceOnly := by
  unfold Obligations.EngineStepTouchesOwnInstanceOnly
  intro s t i rest m ok f d hs hagenda hstep
  obtain ⟨u, ha, hu⟩ : ∃ u, s.agenda = u :: rest ∧
      (u = .sync i ∨ u = .txDone i m ok d ∨ u = .rxFrame i f d ∨ u = .busOff i) := by
    rcases hagenda with ha | ha | ha | ha <;> exact ⟨_, ha, by simp⟩
  rw [step_cons ha] at hstep
  obtain ⟨hframe, hothers⟩ := State.onlyInstance_turnStep hstep hu
  exact ⟨hframe, hothers, fun a hout =>
    (State.turnStep_effect hstep).readByte_of_engine hu fun hin => hout (hin.in_fifos hs)⟩

end Sys2Proof.Machine

/-!
The frame of a command over the sequencer's own registers (R66, R422): the arguments stay, and the frame registers are RECEIVE's.
-/

namespace Sys2Proof.Machine

/-- An argument depends on the argument fields alone, which no command may change (R66). -/
theorem CommandEffect.arg {i : BitVec 2} {s t : State} (h : CommandEffect i s t) (k : Fin 5) : t.arg k = s.arg k := by
  rw [h.frame]
  match k with | 0 | 1 | 2 | 3 | 4 => rfl

/-- RECEIVE writes the frame registers only on its way to `Ok` (R342). -/
theorem State.receive_fr_or_code (i : BitVec 2) (s : State) : (s.receive i).fr = s.fr ∨ (s.receive i).code = .ok := by
  simp only [State.receive]
  split
  · exact .inl rfl
  · split
    · exact .inl rfl
    · exact .inr rfl

/-- TRANSMIT reads the frame registers and leaves them (R302). -/
theorem State.transmit_fr (i : BitVec 2) (s : State) : (s.transmit i).fr = s.fr := by
  simp only [State.transmit]
  split
  · rfl
  · split <;> rfl

/-- FIFO_RELEASE acknowledges a slot without decoding it (R343). -/
theorem State.fifoRelease_fr (i : BitVec 2) (s : State) : (s.fifoRelease i).fr = s.fr := by
  simp only [State.fifoRelease]
  split
  · rfl
  · split <;> rfl

/-- Every command leaves the frame registers, but a RECEIVE that finishes `Ok` (R66, R422). -/
theorem exec_fr {i : Instr} {s t : State} (h : exec i s = .next t) :
    t.fr = s.fr ∨ t.code = .ok ∧ ∃ inst, i = .receive inst := by
  cases i <;> simp only [exec] at h
  case lengthToDlc => unfold execLengthToDlc at h; split at h <;> cases h <;> exact .inl rfl
  case dlcToLength => unfold execDlcToLength at h; split at h <;> cases h <;> exact .inl rfl
  all_goals rcases onInst_cases h with ⟨_, rfl⟩ | ⟨_, rfl⟩
  case receive.inl n _ => exact (s.receive_fr_or_code n).imp_right fun hcode => ⟨hcode, n, rfl⟩
  -- every other body leaves them, and so does the answer to an unknown instance
  all_goals refine .inl ?_
  case transmit.inl n _ => exact s.transmit_fr n
  case fifoRelease.inl n _ => exact s.fifoRelease_fr n
  case enterConfig.inl => simp only [State.enterConfig]; split <;> rfl
  case leaveConfig.inl => simp only [State.leaveConfig]; split <;> rfl
  case cfgMode.inl => simp only [State.cfgMode]; split <;> rfl
  case filterInit.inl => simp only [State.filterInit]; split <;> rfl
  case setStdFilter.inl => simp only [State.setStdFilter]; split <;> rfl
  case setExtFilter.inl => simp only [State.setExtFilter]; split <;> rfl
  case availableRx.inl => simp only [State.availableRx]; split <;> rfl
  all_goals rfl

/-- Settles O57: the arguments by `exec_effect`, the frame registers by `exec_fr`. -/
theorem commandsKeepArgumentsAndFrameRegisters : Obligations.CommandsKeepArgumentsAndFrameRegisters := by
  unfold Obligations.CommandsKeepArgumentsAndFrameRegisters
  exact fun i s t h => ⟨(exec_effect h).arg, (exec_fr h).resolve_left⟩

end Sys2Proof.Machine

/-!
The interrupt lines by source and group (R63, R446), and the reset step register by register (R69, R480).
-/

namespace Sys2Proof.Machine

/-! The interrupt lines (R446). -/

theorem mem_irqSources (x : IrqSource) : x ∈ irqSources := by cases x <;> decide

/-- The line by source: enabled, and driven by an enabled flag whose group is routed to it. -/
theorem irqLine_iff (c : Ctrl) (k : Bool) : irqLine c k = true ↔ c.ile.getLsbD k.toNat = true ∧
    ∃ x, (c.ir.bit x && c.ie.bit x) = true ∧ c.ils.getLsbD (irqGroup x) = k := by
  simp only [irqLine, Bool.and_eq_true (c.ile.getLsbD _), List.any_eq_true, Bool.and_eq_true (_ && _), beq_iff_eq,
    mem_irqSources, true_and]

/-- Some source is driven and routed to `k` exactly when some group is routed to `k` and holds a driven source (R63, R446). -/
theorem exists_source_iff_group (b : IrqSource → Bool) (route : Nat → Bool) (k : Bool) :
    (∃ x, b x = true ∧ route (irqGroup x) = k) ↔
      (route 0 = k ∧ (b .rf0n || b .rf0f || b .rf0l) = true) ∨ (route 1 = k ∧ (b .rf1n || b .rf1f || b .rf1l) = true) ∨
        (route 2 = k ∧ b .tc = true) := by
  simp only [Bool.or_eq_true]
  constructor
  · rintro ⟨x, hx, hk⟩
    cases x <;> simp_all [irqGroup]
  · rintro (⟨hk, (hx | hx) | hx⟩ | ⟨hk, (hx | hx) | hx⟩ | ⟨hk, hx⟩) <;> exact ⟨_, hx, hk⟩

/-- Settles O30: the line by source, and the sources by group. -/
theorem irqLineIsEnabledRoutedFlag : Obligations.IrqLineIsEnabledRoutedFlag := by
  unfold Obligations.IrqLineIsEnabledRoutedFlag
  intro c k
  rw [irqLine_iff, exists_source_iff_group (fun x => c.ir.bit x && c.ie.bit x) (c.ils.getLsbD ·)]
  rfl

/-! The reset step (R480). -/

/-- After a reset step every sequencer register reads 0 (R69). -/
theorem State.seqRead_resetStep (s : State) (r : SeqReg) : s.resetStep.seqRead r = 0 := by
  cases r with
  | arg k => match k with | 0 | 1 | 2 | 3 | 4 => rfl
  | frData k => exact Vector.getElem_replicate k.isLt
  | stat => exact (by decide : statWord false .ok false = 0)
  | frFlags => exact (by decide : FrameRegs.reset.flagsWord = 0)
  | frMeta => exact (by decide : FrameRegs.reset.metaWord = 0)
  | _ => rfl

/-- After a reset step an instance's register reads what it reads of a controller after reset (R69). -/
theorem State.regRead_resetStep (s : State) (i : BitVec 2) (r : CtrlReg) :
    s.resetStep.regRead i r = Ctrl.reset.read s.params.fifoDepth r := by
  rw [State.regRead, State.ctrl_resetStep]
  rfl

/-- Settles O52: the state is `State.resetStep`, its registers by `State.seqRead_resetStep` and `State.regRead_resetStep`. -/
theorem resetStepRestoresResetValues : Obligations.ResetStepRestoresResetValues := by
  unfold Obligations.ResetStepRestoresResetValues
  intro s rest ha
  refine ⟨_, step_cons ha, rfl, fun hs => ⟨rfl, hs⟩, rfl, rfl, rfl, rfl, State.seqRead_resetStep _ _,
    State.seqRead_resetStep _, rfl, rfl, fun i => ?_⟩
  simp only [State.regRead_resetStep, State.ctrl_resetStep]
  exact ⟨rfl, rfl, rfl, rfl, rfl, rfl, rfl, rfl, rfl, rfl, rfl, fun f => by cases f <;> exact ⟨rfl, rfl, rfl, rfl⟩⟩

end Sys2Proof.Machine

/-!
Every state has a next state, and what the host is stuck on decides no other agent's step (R440, R516).
-/

namespace Sys2Proof.Machine

/-- The state with the host stuck on `h`, or not stuck. -/
def State.withStuck (h : Option Fault) (s : State) : State := { s with hostStuck := h }

/-- The state function `f` is the same whatever the host is stuck on, and keeps it. -/
def StuckBlind (f : State → State) : Prop := ∀ (s : State) (h : Option Fault), f (s.withStuck h) = (f s).withStuck h

/-- A choice that does not look at the host, between two such functions. -/
theorem StuckBlind.ite {c : State → Prop} [DecidablePred c] {f g : State → State}
    (hc : ∀ s h, c (s.withStuck h) = c s) (hf : StuckBlind f) (hg : StuckBlind g) :
    StuckBlind fun s => if c s then f s else g s := by
  intro s h
  simp only [hc, hf s h, hg s h, apply_ite (State.withStuck h)]

/-! The bodies of the commands. -/

theorem stuckBlind_enterConfig (i : BitVec 2) : StuckBlind (State.enterConfig i) :=
  .ite (fun _ _ => rfl) (fun _ _ => rfl) fun _ _ => rfl

theorem stuckBlind_leaveConfig (i : BitVec 2) : StuckBlind (State.leaveConfig i) :=
  .ite (fun _ _ => rfl) (fun _ _ => rfl) fun _ _ => rfl

theorem stuckBlind_cfgMode (i : BitVec 2) : StuckBlind (State.cfgMode i) :=
  .ite (fun _ _ => rfl) (fun _ _ => rfl) fun _ _ => rfl

/-- The words FILTER_INIT writes are named apart, so that no check evaluates them. -/
theorem stuckBlind_filterInit (i : BitVec 2) : StuckBlind (State.filterInit i) := by
  unfold State.filterInit
  generalize List.replicate Config.stdMax (0 : Word) = ws
  generalize List.replicate (2 * Config.extMax) (0 : Word) = vs
  exact .ite (fun _ _ => rfl) (fun _ _ => rfl) fun _ _ => rfl

theorem stuckBlind_setStdFilter (i : BitVec 2) : StuckBlind (State.setStdFilter i) :=
  .ite (fun _ _ => rfl) (fun _ _ => rfl) fun _ _ => rfl

theorem stuckBlind_setExtFilter (i : BitVec 2) : StuckBlind (State.setExtFilter i) :=
  .ite (fun _ _ => rfl) (fun _ _ => rfl) fun _ _ => rfl

theorem stuckBlind_transmit (i : BitVec 2) : StuckBlind (State.transmit i) := by
  intro s h
  have hpending : (s.withStuck h).pending i = s.pending i := rfl
  have hlen : (s.withStuck h).fr.len = s.fr.len := rfl
  simp only [State.transmit, hpending, hlen]
  cases firstZero (s.pending i) with
  | none => rfl
  | some m => cases l2d s.fr.len <;> rfl

theorem stuckBlind_availableRx (i : BitVec 2) : StuckBlind (State.availableRx i) := by
  intro s h
  have harg : (s.withStuck h).arg0 = s.arg0 := rfl
  simp only [State.availableRx, harg]
  cases fifoArg s.arg0 <;> rfl

theorem stuckBlind_receive (i : BitVec 2) : StuckBlind (State.receive i) := by
  intro s h
  have harg0 : (s.withStuck h).arg0 = s.arg0 := rfl
  have harg1 : (s.withStuck h).arg1 = s.arg1 := rfl
  have hread (r : CtrlReg) : (s.withStuck h).regRead i r = s.regRead i r := rfl
  simp only [State.receive, harg0, harg1, hread]
  cases fifoArg s.arg0 with
  | none => rfl
  | some f =>
    dsimp only
    split
    · rfl
    · split <;> rfl

theorem stuckBlind_fifoRelease (i : BitVec 2) : StuckBlind (State.fifoRelease i) := by
  intro s h
  have harg : (s.withStuck h).arg0 = s.arg0 := rfl
  have hread (r : CtrlReg) : (s.withStuck h).regRead i r = s.regRead i r := rfl
  simp only [State.fifoRelease, harg, hread]
  cases fifoArg s.arg0 with
  | none => rfl
  | some f =>
    dsimp only
    split <;> rfl

/-! The steps of the protocol engine. -/

theorem stuckBlind_syncStep (i : BitVec 2) : StuckBlind (State.syncStep i) :=
  .ite (fun _ _ => rfl) (fun _ _ => rfl) fun _ _ => rfl

theorem stuckBlind_store (i : BitVec 2) (q : FifoId) (f : Frame) (a : Accepted) (d : Draws) :
    StuckBlind (·.store i q f a d) :=
  .ite (fun _ _ => rfl) (fun _ _ => rfl) fun _ _ => rfl

theorem stuckBlind_deliver (i : BitVec 2) (f : Frame) (d : Draws) : StuckBlind (·.deliver i f d) := by
  intro s h
  have haccept : (s.withStuck h).accept i f d = s.accept i f d := rfl
  simp only [State.deliver, haccept]
  cases (s.accept i f d).dest with
  | discard => rfl
  | store q => exact stuckBlind_store i q f _ d s h

/-- A transmit completion: its branches, of which only the delivery is more than a controller's update (R392, R396). -/
theorem stuckBlind_txStep (i : BitVec 2) (m : Fin 3) (ok : Bool) (d : Draws) : StuckBlind (State.txStep i m ok d) := by
  have hdelivery : StuckBlind fun s => (s.setCtrl i ((s.ctrl i).complete m true)).deliver i (s.txFrame i m) d := by
    intro s h
    have hframe : (s.withStuck h).txFrame i m = s.txFrame i m := rfl
    dsimp only
    rw [hframe]
    exact stuckBlind_deliver i (s.txFrame i m) d (s.setCtrl i _) h
  refine .ite (c := (·.txEnabled i m = true)) (fun _ _ => rfl) ?_ fun _ _ => rfl
  refine .ite (c := fun s => (s.ctrl i).loopback = true) (fun _ _ => rfl) hdelivery ?_
  refine .ite (c := fun _ => ok = true) (fun _ _ => rfl) (fun _ _ => rfl) ?_
  exact .ite (c := fun s => (s.ctrl i).dar = true) (fun _ _ => rfl) (fun _ _ => rfl) fun _ _ => rfl

theorem stuckBlind_rxStep (i : BitVec 2) (f : Frame) (d : Draws) : StuckBlind (State.rxStep i f d) :=
  .ite (fun _ _ => rfl) (stuckBlind_deliver i f d) fun _ _ => rfl

theorem stuckBlind_busOffStep (i : BitVec 2) : StuckBlind (State.busOffStep i) :=
  .ite (fun _ _ => rfl) (fun _ _ => rfl) fun _ _ => rfl

/-! The sequencer's step, and every agent's. -/

theorem stuckBlind_pollStep : StuckBlind State.pollStep :=
  .ite (fun _ _ => rfl) (fun _ _ => rfl) (.ite (fun _ _ => rfl) (fun _ _ => rfl) fun _ _ => rfl)

/-- `f` answers a next state in `s`, and the same whatever the host is stuck on, and keeps it. -/
def AnswersBlindly (f : State → Host.Outcome State Fault Refusal) (s : State) : Prop :=
  ∃ t, f s = .next t ∧ ∀ h, f (s.withStuck h) = .next (t.withStuck h)

theorem StuckBlind.answers {g : State → State} (hg : StuckBlind g) (s : State) : AnswersBlindly (fun s => .next (g s)) s :=
  ⟨g s, rfl, fun h => congrArg _ (hg s h)⟩

/-- The instance check does not look at the host (R151). -/
theorem onInst_answersBlindly (i : BitVec 2) (s : State) {body : State → State} (hb : StuckBlind body) :
    AnswersBlindly (onInst i · body) s := by
  by_cases hk : s.Known i
  · exact ⟨_, onInst_known hk body, fun h => (onInst_known (s := s.withStuck h) hk body).trans (congrArg _ (hb s h))⟩
  · have hu : s.params.numInst ≤ i.toNat := not_lt.1 hk
    exact ⟨_, onInst_unknown hu body, fun h => onInst_unknown (s := s.withStuck h) hu body⟩

/-- No command looks at the host. -/
theorem exec_answersBlindly (c : Instr) (s : State) : AnswersBlindly (exec c) s := by
  cases c with
  | enterConfig i => exact onInst_answersBlindly i s (stuckBlind_enterConfig i)
  | leaveConfig i => exact onInst_answersBlindly i s (stuckBlind_leaveConfig i)
  | cfgMode i => exact onInst_answersBlindly i s (stuckBlind_cfgMode i)
  | filterInit i => exact onInst_answersBlindly i s (stuckBlind_filterInit i)
  | setStdFilter i => exact onInst_answersBlindly i s (stuckBlind_setStdFilter i)
  | setExtFilter i => exact onInst_answersBlindly i s (stuckBlind_setExtFilter i)
  | transmit i => exact onInst_answersBlindly i s (stuckBlind_transmit i)
  | availableRx i => exact onInst_answersBlindly i s (stuckBlind_availableRx i)
  | receive i => exact onInst_answersBlindly i s (stuckBlind_receive i)
  | fifoRelease i => exact onInst_answersBlindly i s (stuckBlind_fifoRelease i)
  | setNominalTiming i | setFdTiming i | availableTx i | enableIrq i | disableIrq i =>
    exact onInst_answersBlindly i s fun _ _ => rfl
  | lengthToDlc i =>
    cases hd : l2d s.arg0 with
    | none => exact ⟨_, exec_lengthToDlc_none hd i, fun h => exec_lengthToDlc_none (s := s.withStuck h) hd i⟩
    | some d => exact ⟨_, exec_lengthToDlc_some hd i, fun h => exec_lengthToDlc_some (s := s.withStuck h) hd i⟩
  | dlcToLength i =>
    by_cases hn : 15 < s.arg0.toNat
    · exact ⟨_, exec_dlcToLength_invalid hn i, fun h => exec_dlcToLength_invalid (s := s.withStuck h) hn i⟩
    · exact ⟨_, if_neg hn, fun h => if_neg (show ¬15 < (s.withStuck h).arg0.toNat from hn)⟩

/-- The sequencer does not look at the host (R516). -/
theorem State.sequencerStep_answersBlindly (s : State) : AnswersBlindly State.sequencerStep s := by
  cases hp : s.phase with
  | idle => exact ⟨s, s.sequencerStep_idle hp, fun h => State.sequencerStep_idle (s := s.withStuck h) hp⟩
  | poll =>
    exact ⟨_, s.sequencerStep_poll hp, fun h =>
      (State.sequencerStep_poll (s := s.withStuck h) hp).trans (congrArg _ (stuckBlind_pollStep s h))⟩
  | exec =>
    cases hd : decode s.cur with
    | ok c =>
      obtain ⟨t, ht, hblind⟩ := exec_answersBlindly c s
      exact ⟨t, (s.sequencerStep_exec hp hd).trans ht, fun h =>
        (State.sequencerStep_exec (s := s.withStuck h) hp hd).trans (hblind h)⟩
    | error e =>
      exact ⟨_, s.sequencerStep_reject hp hd, fun h => State.sequencerStep_reject (s := s.withStuck h) hp hd⟩

/-- No agent but the host looks at whether the host is stuck (R516). -/
theorem State.turnStep_answersBlindly {u : Turn} (hu : u.isHost = false) (s : State) : AnswersBlindly (State.turnStep u) s := by
  cases u with
  | sequencer => exact s.sequencerStep_answersBlindly
  | hostWrite => cases hu
  | hostRead => cases hu
  | sync i => exact (stuckBlind_syncStep i).answers s
  | txDone i m ok d => exact (stuckBlind_txStep i m ok d).answers s
  | rxFrame i f d => exact (stuckBlind_rxStep i f d).answers s
  | busOff i => exact (stuckBlind_busOffStep i).answers s
  | reset => exact StuckBlind.answers (g := State.resetStep) (fun _ _ => rfl) s

/-- An agent that does not look at whether the host is stuck keeps it. -/
theorem hostStuck_of_blind {f : State → Host.Outcome State Fault Refusal} {s t : State} (ht : f s = .next t)
    (hblind : ∀ h, f (s.withStuck h) = .next (t.withStuck h)) : t.hostStuck = s.hostStuck :=
  have hself : t = t.withStuck s.hostStuck := Host.Outcome.next.inj (ht.symm.trans (hblind s.hostStuck))
  (congrArg State.hostStuck hself :)

/-- An access whose effect is not on the host changes whether the host is stuck only by being refused (R103, R104, R110). -/
theorem State.hostAccess_sticks {s : State} {width : Width} {addr : Word} {effect : State}
    (heffect : effect.hostStuck = s.hostStuck) (hne : (s.hostAccess width addr effect).hostStuck ≠ s.hostStuck) :
    s.hostStuck = none ∧ Refused s.params width addr ∧ ∃ e, s.hostAccess width addr effect = s.withStuck e := by
  rcases s.hostAccess_cases width addr effect with ⟨_, h⟩ | ⟨hs, hr, e, h⟩ | ⟨_, _, h⟩
  · exact absurd (congrArg State.hostStuck h) hne
  · exact ⟨hs, hr, some e, h⟩
  · exact absurd ((congrArg State.hostStuck h).trans heffect) hne

/-- What an entry of the host does: an access whose effect is not on the host (R516). -/
theorem State.turnStep_host {u : Turn} (hu : u.isHost = true) (s : State) : ∃ (width : Width) (addr : Word) (effect : State),
    (u = .hostRead width addr ∨ ∃ w, u = .hostWrite width addr w) ∧ effect.hostStuck = s.hostStuck ∧
      s.turnStep u = .next (s.hostAccess width addr effect) := by
  cases u with
  | hostWrite width addr w => exact ⟨width, addr, s.busWrite addr w, .inr ⟨w, rfl⟩, (s.busWrite_host addr w).2.1, rfl⟩
  | hostRead width addr => exact ⟨width, addr, { s with hostData := s.busRead addr }, .inl rfl, rfl, rfl⟩
  | _ => cases hu

/-- The next entry is the host's only if it stands on the agenda: with an empty agenda the sequencer steps (log 2). -/
theorem State.agenda_of_isHost_nextTurn {s : State} (h : s.nextTurn.isHost = true) : s.agenda = s.nextTurn :: s.agenda.tail := by
  cases ha : s.agenda with
  | nil => simp [State.nextTurn, ha, Turn.isHost] at h
  | cons u rest => simp [State.nextTurn, ha]

/-- Settles O56: an entry of the host by `State.hostAccess_sticks`, any other by `State.turnStep_answersBlindly`. -/
theorem onlyRefusedHostAccessesStickHost : Obligations.OnlyRefusedHostAccessesStickHost := by
  unfold Obligations.OnlyRefusedHostAccessesStickHost
  intro s
  cases hu : s.nextTurn.isHost with
  | false =>
    obtain ⟨t, ht, hblind⟩ := s.dropTurn.turnStep_answersBlindly hu
    exact ⟨t, ht, fun hne => absurd (hostStuck_of_blind ht hblind) hne, fun _ => hblind⟩
  | true =>
    have ha := State.agenda_of_isHost_nextTurn hu
    obtain ⟨width, addr, effect, hturn, heffect, hstep⟩ := s.dropTurn.turnStep_host hu
    refine ⟨_, hstep, fun hne => ?_, fun hother => absurd (hother _ _ ha) (by simp [hu])⟩
    obtain ⟨hs, hr, e, he⟩ := State.hostAccess_sticks heffect hne
    refine ⟨hs, width, addr, s.agenda.tail, hr, ?_, ?_⟩
    · rw [ha, List.tail_cons]
      exact hturn.imp (congrArg (· :: _)) (Exists.imp fun _ => congrArg (· :: _))
    · rw [he]
      rfl

end Sys2Proof.Machine
